-- ==== Sys2Proof/Word.lean ====
section
/-!
DEFINITION. The plain data of TWC: words, registers, symbol codes, command words, symbols.
-/

namespace Sys2Proof

/-- One word of the word memory `M`: WBITS = 8 bits (spec 10_state.md R45). -/
abbrev MWord := BitVec 8

/-- One register of the register file: 32 bits (10_state.md R31). -/
abbrev RegVal := BitVec 32

/-- One command word (30_encoding.md R100). -/
abbrev CmdWord := BitVec 32

/-- One symbol code, the 2-bit form of a symbol outside a packed word (10_state.md R47). -/
abbrev SymCode := BitVec 2

/-- One symbol. `zero` and `pos` are the two bits 0 and 1 of BIN8; `neg`, `zero` and `pos` are the trits −1, 0 and
+1 of TER5 (00_scope.md R7). One type serves both alphabets; `neg` is no symbol of BIN8 (log 12). -/
inductive Sym where
  | zero
  | pos
  | neg
deriving DecidableEq, Repr

/-- The number a symbol stands for (00_scope.md R7). -/
def Sym.toInt : Sym → Int
  | .zero => 0
  | .pos => 1
  | .neg => -1

end Sys2Proof
end

