-- ==== Sys2Proof/Config.lean ====
section
/-!
DEFINITION. What is fixed when a TWC is built: the word encoding and the two sizes the spec leaves open.
-/

namespace Sys2Proof

/-- The word encoding `ENC`, "fixed when the hardware is built" (00_scope.md R6). -/
inductive Enc where
  | bin8
  | ter5
deriving DecidableEq, Repr

/-- The constant SIZE, symbols per word (00_scope.md R7). -/
def Enc.size : Enc → Nat
  | .bin8 => 8
  | .ter5 => 5

/-- The parameters a model of TWC takes as arguments (00_scope.md R6, R8). They stand in `State` and no step changes
them, so that a statement about every state is a statement about every build (log 1). -/
structure Params where
  /-- `ENC` -/
  enc : Enc
  /-- `MEM_WORDS`, the number of words of `M` -/
  memWords : Nat
  /-- `TBUF_CELLS`, the number of cells of TBUF -/
  tbufCells : Nat
deriving DecidableEq, Repr

/-- The ranges of the parameters: 1 ≤ MEM_WORDS ≤ 2^32 and SIZE ≤ TBUF_CELLS ≤ 2^32 (00_scope.md R8). -/
abbrev Params.wf (p : Params) : Prop :=
  1 ≤ p.memWords ∧ p.memWords ≤ 2 ^ 32 ∧ p.enc.size ≤ p.tbufCells ∧ p.tbufCells ≤ 2 ^ 32

/-- DESIGN CHOICE (log 1, unsafe): the build whose reset state is `State.reset`. The spec leaves all three open; 64 and
64 are the sizes of its test vectors (95_test_vectors.md, Conventions). -/
def Params.vectors : Params := { enc := .bin8, memWords := 64, tbufCells := 64 }

end Sys2Proof
end

