-- ==== Sys2Proof/Machine/Codec.lean ====
section
/-!
DEFINITION. The word codec, the symbol codes and the symbol algebra: the encoding capability of 00_scope.md R9.
-/

namespace Sys2Proof.Machine

open Sys2Proof

/-! ### Symbol codes (10_state.md R47) -/

/-- `Code(s)`. -/
def symCode : Sym → SymCode
  | .zero => 0b00#2
  | .pos => 0b01#2
  | .neg => 0b11#2

/-- `Uncode(c)`; `none` where it is undefined. -/
def uncode (e : Enc) (c : SymCode) : Option Sym :=
  match e, c.toNat with
  | _, 0 => some .zero
  | _, 1 => some .pos
  | .ter5, 3 => some .neg
  | _, _ => none

/-- Membership in the alphabet `Sym` of an encoding (00_scope.md R7). -/
def inAlphabet (e : Enc) (v : Sym) : Bool :=
  match e, v with
  | .bin8, .neg => false
  | _, _ => true

/-! ### The words (40_word_codec.md R130, R131) -/

/-- `ZERO_WORD` (00_scope.md R7, 40_word_codec.md R133). -/
def zeroWord : MWord := 0x00#8

/-- The base of the place values: symbol i has weight 2^i on BIN8 and 3^i on TER5. -/
def placeBase : Enc → Int
  | .bin8 => 2
  | .ter5 => 3

/-- `Legal(w)`: every pattern on BIN8; −121 ≤ sext_8(w) ≤ 121 on TER5. -/
def legal (e : Enc) (w : MWord) : Bool :=
  match e with
  | .bin8 => true
  | .ter5 => decide (-121 ≤ w.toInt ∧ w.toInt ≤ 121)

/-- The trit with remainder `r` modulo 3: 0, 1, and −1 for 2. -/
def tritOf (r : Int) : Sym :=
  if r = 0 then .zero else if r = 1 then .pos else .neg

/-- The loop of `Dec` on TER5: the `count` lowest balanced trits of `v`, lowest first. -/
def trits : Nat → Int → List Sym
  | 0, _ => []
  | count + 1, v => tritOf (v % 3) :: trits count ((v - (tritOf (v % 3)).toInt) / 3)

/-- A bit as a symbol of BIN8. -/
def bitSym (b : Bool) : Sym := if b then .pos else .zero

/-- `Dec(w)`, an array of SIZE symbols, symbol 0 first. On an illegal pattern no command reads its answer (log 15). -/
def dec (e : Enc) (w : MWord) : List Sym :=
  match e with
  | .bin8 => (List.range 8).map fun i => bitSym (w.getLsbD i)
  | .ter5 => trits 5 w.toInt

/-- The sum over i of a[i] · base^i, by Horner's scheme. -/
def weigh (base : Int) : List Sym → Int
  | [] => 0
  | v :: rest => v.toInt + base * weigh base rest

/-- `Enc(a)`: the 8-bit (two's complement) pattern of the weighted sum. -/
def enc (e : Enc) (a : List Sym) : MWord := BitVec.ofInt 8 (weigh (placeBase e) a)

/-! ### The algebra (42_symbol_arithmetic.md R180, R181) -/

/-- XOR of two bits. -/
def xorSym (x y : Sym) : Sym := bitSym (Bool.xor (decide (x = .pos)) (decide (y = .pos)))

/-- The member of −1, 0, +1 congruent to `v` modulo 3. -/
def balance (v : Int) : Sym := tritOf (v % 3)

/-- `add(x, y)`: XOR on BIN8, the sum modulo 3 on TER5. -/
def symAdd (e : Enc) (x y : Sym) : Sym :=
  match e with
  | .bin8 => xorSym x y
  | .ter5 => balance (x.toInt + y.toInt)

/-- `sub(x, y)`: XOR on BIN8, the difference modulo 3 on TER5. -/
def symSub (e : Enc) (x y : Sym) : Sym :=
  match e with
  | .bin8 => xorSym x y
  | .ter5 => balance (x.toInt - y.toInt)

end Sys2Proof.Machine
end

