-- ==== Sys2Proof/Syntax.lean ====
section
/-!
DEFINITION. The instructions of TWC: the 23 commands and the 14 assembler names of sponge operations.
-/

namespace Sys2Proof

/-- A span register group (30_encoding.md R102). The reserved selector 3 is no value of this type. -/
inductive SpanSel where
  | s
  | x
  | y
deriving DecidableEq, Repr

/-- One constructor per row of spec/opcode_table.json. Symbol immediates stay 2-bit codes: an illegal code is an
operand that raises `IllegalSymbol`, not another encoding (30_encoding.md R103). -/
inductive Instr where
  -- word codec and symbol access (30_encoding.md R104)
  | w2s
  | s2w
  | get (spa : SpanSel)
  | put (spa : SpanSel) (sym : SymCode)
  | tosym (spa : SpanSel)
  | fromsym (spa : SpanSel)
  -- bulk span operations
  | copy (spa spb : SpanSel)
  | fillz (spa : SpanSel)
  | equ (spa spb : SpanSel)
  -- symbol arithmetic unit
  | add (sym sym2 : SymCode)
  | sub (sym sym2 : SymCode)
  -- state-feedback combinators
  | setxa
  | setxs
  | setya
  | setys
  | setxam
  | setxsm
  | setyam
  | setysm
  -- sponge commands
  | adds
  | sqzow
  | sqeow
  -- error acknowledge
  | clrerr
  -- the assembler names of R109, each another name of one command word
  | absorbOw
  | absorbX
  | squeezeOw
  | squeezeX
  | squeezeeqOw
  | squeezeeqX
  | encryptOw
  | encryptOwM
  | encryptX
  | encryptXM
  | decryptOw
  | decryptOwM
  | decryptX
  | decryptXM
deriving DecidableEq, Repr

end Sys2Proof
end

