-- ==== Sys2Proof/WellFormed.lean ====
section
/-!
DEFINITION. Which instructions are commands of the machine, and what an assembler name expands to.
-/

namespace Sys2Proof

/-- What an assembler name stands for (30_encoding.md R109); a command stands for itself. -/
def Instr.expand : Instr → Instr
  | .absorbOw => .copy .x .s
  | .absorbX => .adds
  | .squeezeOw => .sqzow
  | .squeezeX => .copy .s .y
  | .squeezeeqOw => .sqeow
  | .squeezeeqX => .equ .s .x
  | .encryptOw => .setxa
  | .encryptOwM => .setxam
  | .encryptX => .setya
  | .encryptXM => .setyam
  | .decryptOw => .setxs
  | .decryptOwM => .setxsm
  | .decryptX => .setys
  | .decryptXM => .setysm
  | i => i

/-- An instruction is well formed when it is one of the 23 commands of 30_encoding.md R104, the instructions a command
word decodes to. The 14 names of R109 are assembler notation for some of them: "the hardware cannot tell them apart". -/
def Instr.wf (i : Instr) : Bool := decide (i.expand = i)

end Sys2Proof
end

