-- ==== Sys2Proof/Decode.lean ====
section
/-!
DEFINITION. The command word: fields, decoder and encoder (spec 30_encoding.md).
-/

namespace Sys2Proof

/-! ### The fields of a command word (30_encoding.md R101) -/

/-- `op` = bits [5:0]. -/
def opField (w : CmdWord) : Nat := (w.extractLsb' 0 6).toNat

/-- `spa` = bits [7:6]. -/
def spaField (w : CmdWord) : BitVec 2 := w.extractLsb' 6 2

/-- `spb` = bits [9:8]. -/
def spbField (w : CmdWord) : BitVec 2 := w.extractLsb' 8 2

/-- `sym` = bits [11:10]. -/
def symField (w : CmdWord) : SymCode := w.extractLsb' 10 2

/-- `sym2` = bits [13:12]. -/
def sym2Field (w : CmdWord) : SymCode := w.extractLsb' 12 2

/-- Bits [31:14], reserved, must be zero. -/
def reservedField (w : CmdWord) : BitVec 18 := w.extractLsb' 14 18

/-- Why a word is no command: the four cases of 30_encoding.md R106. All of them raise `IllegalCmd`. -/
inductive DecodeError where
  /-- (a) `op` is not one of the 23 opcodes -/
  | reservedOpcode (op : Nat)
  /-- (b) one of bits [31:14] is 1 -/
  | reservedBits
  /-- (c) a field the command does not use is not zero -/
  | unusedField
  /-- (d) a selector field the command uses holds 3 -/
  | reservedSelector
deriving DecidableEq, Repr

/-- A selector field (30_encoding.md R102): 0 = S, 1 = X, 2 = Y; 3 is reserved. -/
def decodeSel (f : BitVec 2) : Except DecodeError SpanSel :=
  match f.toNat with
  | 0 => .ok .s
  | 1 => .ok .x
  | 2 => .ok .y
  | _ => .error .reservedSelector

/-! ### The operand forms of 30_encoding.md R104: the fields a command does not use must be zero -/

/-- No operand field is used. -/
def formPlain (w : CmdWord) (i : Instr) : Except DecodeError Instr :=
  if spaField w = 0 ∧ spbField w = 0 ∧ symField w = 0 ∧ sym2Field w = 0 then .ok i else .error .unusedField

/-- `spa` is used. -/
def formA (w : CmdWord) (mk : SpanSel → Instr) : Except DecodeError Instr :=
  if spbField w = 0 ∧ symField w = 0 ∧ sym2Field w = 0 then
    match decodeSel (spaField w) with
    | .ok a => .ok (mk a)
    | .error e => .error e
  else .error .unusedField

/-- `spa` and `sym` are used. -/
def formASym (w : CmdWord) (mk : SpanSel → SymCode → Instr) : Except DecodeError Instr :=
  if spbField w = 0 ∧ sym2Field w = 0 then
    match decodeSel (spaField w) with
    | .ok a => .ok (mk a (symField w))
    | .error e => .error e
  else .error .unusedField

/-- `spa` and `spb` are used. -/
def formAB (w : CmdWord) (mk : SpanSel → SpanSel → Instr) : Except DecodeError Instr :=
  if symField w = 0 ∧ sym2Field w = 0 then
    match decodeSel (spaField w) with
    | .error e => .error e
    | .ok a =>
      match decodeSel (spbField w) with
      | .ok b => .ok (mk a b)
      | .error e => .error e
  else .error .unusedField

/-- `sym` and `sym2` are used. -/
def formSymSym (w : CmdWord) (mk : SymCode → SymCode → Instr) : Except DecodeError Instr :=
  if spaField w = 0 ∧ spbField w = 0 then .ok (mk (symField w) (sym2Field w)) else .error .unusedField

/-- The opcode map of 30_encoding.md R104, for a word whose reserved bits are zero. -/
def decodeOp (w : CmdWord) : Except DecodeError Instr :=
  match opField w with
  | 0x01 => formPlain w .w2s
  | 0x02 => formPlain w .s2w
  | 0x03 => formA w .get
  | 0x04 => formASym w .put
  | 0x05 => formA w .tosym
  | 0x06 => formA w .fromsym
  | 0x08 => formAB w .copy
  | 0x09 => formA w .fillz
  | 0x0A => formAB w .equ
  | 0x10 => formSymSym w .add
  | 0x11 => formSymSym w .sub
  | 0x20 => formPlain w .setxa
  | 0x21 => formPlain w .setxs
  | 0x22 => formPlain w .setya
  | 0x23 => formPlain w .setys
  | 0x24 => formPlain w .setxam
  | 0x25 => formPlain w .setxsm
  | 0x26 => formPlain w .setyam
  | 0x27 => formPlain w .setysm
  | 0x28 => formPlain w .adds
  | 0x29 => formPlain w .sqzow
  | 0x2A => formPlain w .sqeow
  | 0x3F => formPlain w .clrerr
  | op => .error (.reservedOpcode op)

/-- The decoder, total on the 2^32 command words: "every one of the 2^32 words is either one of the 23 commands or
raises `IllegalCmd`" (30_encoding.md R106). It answers a command, never an assembler name (log 6). -/
def decode (w : CmdWord) : Except DecodeError Instr :=
  if reservedField w = 0 then decodeOp w else .error .reservedBits

/-! ### The encoder (30_encoding.md R101, R102, R104, R109) -/

/-- The selector code of a span register group. -/
def SpanSel.code : SpanSel → BitVec 2
  | .s => 0
  | .x => 1
  | .y => 2

/-- `op + 64·spa + 256·spb + 1024·sym + 4096·sym2`. -/
def packWord (op spa spb sym sym2 : Nat) : CmdWord :=
  BitVec.ofNat 32 (op + 64 * spa + 256 * spb + 1024 * sym + 4096 * sym2)

/-- The command word of an instruction. The words of the 14 assembler names are the ones R109 prints. -/
def encode : Instr → CmdWord
  | .w2s => packWord 0x01 0 0 0 0
  | .s2w => packWord 0x02 0 0 0 0
  | .get a => packWord 0x03 a.code.toNat 0 0 0
  | .put a v => packWord 0x04 a.code.toNat 0 v.toNat 0
  | .tosym a => packWord 0x05 a.code.toNat 0 0 0
  | .fromsym a => packWord 0x06 a.code.toNat 0 0 0
  | .copy a b => packWord 0x08 a.code.toNat b.code.toNat 0 0
  | .fillz a => packWord 0x09 a.code.toNat 0 0 0
  | .equ a b => packWord 0x0A a.code.toNat b.code.toNat 0 0
  | .add v u => packWord 0x10 0 0 v.toNat u.toNat
  | .sub v u => packWord 0x11 0 0 v.toNat u.toNat
  | .setxa => packWord 0x20 0 0 0 0
  | .setxs => packWord 0x21 0 0 0 0
  | .setya => packWord 0x22 0 0 0 0
  | .setys => packWord 0x23 0 0 0 0
  | .setxam => packWord 0x24 0 0 0 0
  | .setxsm => packWord 0x25 0 0 0 0
  | .setyam => packWord 0x26 0 0 0 0
  | .setysm => packWord 0x27 0 0 0 0
  | .adds => packWord 0x28 0 0 0 0
  | .sqzow => packWord 0x29 0 0 0 0
  | .sqeow => packWord 0x2A 0 0 0 0
  | .clrerr => packWord 0x3F 0 0 0 0
  | .absorbOw => 0x00000048#32
  | .absorbX => 0x00000028#32
  | .squeezeOw => 0x00000029#32
  | .squeezeX => 0x00000208#32
  | .squeezeeqOw => 0x0000002A#32
  | .squeezeeqX => 0x0000010A#32
  | .encryptOw => 0x00000020#32
  | .encryptOwM => 0x00000024#32
  | .encryptX => 0x00000022#32
  | .encryptXM => 0x00000026#32
  | .decryptOw => 0x00000021#32
  | .decryptOwM => 0x00000025#32
  | .decryptX => 0x00000023#32
  | .decryptXM => 0x00000027#32

/-! ### The host's reading of a table word -/

/-- The command word whose low `nbits` bits are those of `w`, the rest 0. A command is one 32-bit word (R100), so there
is nothing to lay out beyond it. -/
def tableWord (nbits w : Nat) : CmdWord := BitVec.ofNat 32 (w % 2 ^ nbits)

/-- The instruction the decoder reads from a row's word. -/
def decodeTableWord (nbits w : Nat) : Option Instr :=
  match decode (tableWord nbits w) with
  | .ok i => some i
  | .error _ => none

end Sys2Proof
end

