-- ==== Sys2Proof/Machine/State.lean ====
section
/-!
DEFINITION. The machine's state, the reasons a step can stop, and the machine right after reset.
-/

namespace Sys2Proof.Machine

open Sys2Proof

/-- Sparse storage of `w`-bit cells: (address, value) pairs with strictly rising addresses and no value equal to what an
unlisted address reads as (`powerUp`). `Memory 8` is a list of `Host.Cell`. -/
abbrev Memory (w : Nat) := List (Nat × BitVec w)

/-- What an address that nothing has written reads as. DESIGN CHOICE (logs 2 and 3, unsafe): the spec leaves the
content of `M` and of TBUF after power-up unspecified (70_reset_and_hazards.md R281). -/
def powerUp (w : Nat) : BitVec w := 0#w

/-- A span register group: the registers `BASE`, `LEN`, `OFF` of one span (10_state.md R32). -/
structure SpanRegs where
  base : RegVal
  len : RegVal
  off : RegVal
deriving DecidableEq, Repr

/-- One action of the host, the whole host interface of 70_reset_and_hazards.md R296. -/
inductive HostAction where
  /-- `RD reg`: read the register with this number -/
  | rd (reg : Nat)
  /-- `WR reg, v`: write the register with this number; register 5 (`CMD`) runs a command -/
  | wr (reg : Nat) (v : RegVal)
  /-- `MR addr, count`: read words of `M` -/
  | mr (addr count : Nat)
  /-- `MW addr, b0 b1 ...`: write words of `M` from `addr` upward -/
  | mw (addr : Nat) (words : List MWord)
  /-- `TR cell, count`: read TBUF cells -/
  | tr (cell count : Nat)
  /-- `TW cell, c0 c1 ...`: write TBUF cells from `cell` upward -/
  | tw (cell : Nat) (codes : List SymCode)
  /-- the reset event (70_reset_and_hazards.md R280) -/
  | reset
deriving DecidableEq, Repr

/-- What a reading action gives the host. -/
inductive HostReply where
  | reg (v : RegVal)
  | words (ws : List MWord)
  | cells (cs : List SymCode)
deriving DecidableEq, Repr

/-- All the state of TWC (10_state.md R30, R31, R45, R46), its parameters, and the model's own two lists that stand for
the host. `CFG` and `CMD` need no storage: `CFG` is hard-wired by `params.enc` (R36), `CMD` is not stored (R41). -/
structure State where
  /-- `ENC`, `MEM_WORDS`, `TBUF_CELLS` (00_scope.md R6, R8); never changed -/
  params : Params
  /-- register 1, `STATUS` (R37) -/
  status : RegVal
  /-- register 2, `ERRINFO` (R38) -/
  errInfo : RegVal
  /-- register 3, `ERRADDR` (R39) -/
  errAddr : RegVal
  /-- register 4, `RESULT` (R40) -/
  result : RegVal
  /-- register 6, `N` (R33) -/
  n : RegVal
  /-- register 7, `TBOFF` (R34) -/
  tboff : RegVal
  /-- register 8, `WDATA`: bits [7:0]; "Bits [31:8] are not implemented" (R35; log 14) -/
  wdata : MWord
  /-- registers 9 to 11, `S.BASE`, `S.LEN`, `S.OFF` (R32) -/
  spanS : SpanRegs
  /-- registers 12 to 14, `X.BASE`, `X.LEN`, `X.OFF` (R32) -/
  spanX : SpanRegs
  /-- registers 15 to 17, `Y.BASE`, `Y.LEN`, `Y.OFF` (R32) -/
  spanY : SpanRegs
  /-- the word memory `M` (R45) -/
  mem : Memory 8
  /-- the symbol buffer TBUF (R46) -/
  tbuf : Memory 2
  /-- the model's own: the host's coming actions, oldest first (log 4) -/
  inbox : List HostAction
  /-- the model's own: what the host's reads have returned, oldest first (log 5) -/
  outbox : List HostReply
deriving DecidableEq, Repr

/-- Why a step stops with a fault: an access to an address that the spec says does not exist (10_state.md R45, R46;
20_memory.md R86). All are safe: the model stops where the spec gives no effect. -/
inductive Fault where
  /-- raised by `MR` and `MW` of the host that reach a word address at or above MEM_WORDS, or that are of zero words and
  start above MEM_WORDS; no command raises it, the bounds check (20_memory.md R74) stands before every access; safe
  (log 8) -/
  | noSuchWord (addr : Nat)
  /-- raised by `TR` and `TW` of the host that reach a cell index at or above TBUF_CELLS, or that are of zero cells and
  start above TBUF_CELLS; no command raises it; safe (log 8) -/
  | noSuchCell (cell : Nat)
deriving DecidableEq, Repr

/-- Why a step refuses. -/
inductive Refusal where
  /-- raised by `exec` for an instruction without a meaning; there is none left; safe -/
  | notModelled (mnemonic : String)
deriving DecidableEq, Repr

/-- All registers at their reset values (70_reset_and_hazards.md R280), with the given parameters, storage contents
and host lists: "`M` and TBUF are not reset" (R281). -/
def State.resetWith (p : Params) (mem : Memory 8) (tbuf : Memory 2) (inbox : List HostAction)
    (outbox : List HostReply) : State where
  params := p
  status := 0
  errInfo := 0
  errAddr := 0
  result := 0
  n := 0
  tboff := 0
  wdata := 0
  spanS := { base := 0, len := 0, off := 0 }
  spanX := { base := 0, len := 0, off := 0 }
  spanY := { base := 0, len := 0, off := 0 }
  mem := mem
  tbuf := tbuf
  inbox := inbox
  outbox := outbox

/-- The machine right after a power-up reset: registers as R280 says, nothing listed in `M` and TBUF (logs 2, 3), the
build of the test vectors (log 1), and no host action waiting (log 4). -/
def State.reset : State := State.resetWith Params.vectors [] [] [] []

end Sys2Proof.Machine
end

