-- ==== Sys2Proof/Machine/Flags.lean ====
section
/-!
DEFINITION. TWC has no condition flags (10_state.md R44); this file holds what it has instead: the fields of `STATUS`,
`ERRINFO` and `CFG`, and the value of `RESULT`.
-/

namespace Sys2Proof.Machine

open Sys2Proof

/-- The five errors (60_exceptions.md R240). -/
inductive ErrKind where
  | illegalCmd
  | illegalSymbol
  | bounds
  | overlap
  | illegalWord
deriving DecidableEq, Repr

/-- The code latched in `STATUS.ERR` (60_exceptions.md R240). -/
def errCode : ErrKind → BitVec 4
  | .illegalCmd => 1
  | .illegalSymbol => 2
  | .bounds => 3
  | .overlap => 4
  | .illegalWord => 5

/-- What `raise E(info, addr)` carries (00_scope.md R14). -/
structure Err where
  kind : ErrKind
  info : RegVal
  addr : RegVal
deriving DecidableEq, Repr

/-- `STATUS.BUSY`, bit 0 (10_state.md R37). -/
def busyField (status : RegVal) : BitVec 1 := status.extractLsb' 0 1

/-- `STATUS.ERR`, bits [7:4] (10_state.md R37). -/
def errField (status : RegVal) : BitVec 4 := status.extractLsb' 4 4

/-- `STATUS` with its field `ERR` replaced. -/
def withErrField (status : RegVal) (code : BitVec 4) : RegVal :=
  (status &&& 0xFFFFFF0F#32) ||| (code.setWidth 32 <<< 4)

/-- `ERRINFO.SPAN1` code of TBUF (10_state.md R38). -/
def tbufCode : RegVal := 3

/-- `ERRINFO` with `IMM` set (10_state.md R38). -/
def immInfo : RegVal := 0x10

/-- `ERRINFO` with `WD` set (10_state.md R38). -/
def wdInfo : RegVal := 0x20

/-- The span code of a group as `ERRINFO` holds it: 0 = S, 1 = X, 2 = Y (10_state.md R38). -/
def spanCode : SpanSel → RegVal
  | .s => 0
  | .x => 1
  | .y => 2

/-- `ERRINFO` of an overlapping pair: `SPAN1` and `SPAN2` (10_state.md R38, 60_exceptions.md R244). -/
def pairInfo (a b : SpanSel) : RegVal := spanCode a + 4 * spanCode b

/-- `CFG.ENC` (10_state.md R36). -/
def encField : Enc → RegVal
  | .bin8 => 0
  | .ter5 => 1

/-- The hard-wired value of `CFG`: `ENC` [3:0], `SIZE` [11:4], `WBITS` [19:12] (10_state.md R36). -/
def cfgValue (e : Enc) : RegVal :=
  encField e ||| (BitVec.ofNat 32 e.size <<< 4) ||| (8#32 <<< 12)

/-- `RESULT` of a comparison: 1 for equal, 0 for not equal (10_state.md R40). -/
def boolResult (b : Bool) : RegVal := if b then 1 else 0

end Sys2Proof.Machine
end

