-- ==== Sys2Proof/Machine/Operands.lean ====
section
/-!
DEFINITION. The operand forms: spans and their addressing (20_memory.md), and what each command uses (30_encoding.md R105).
-/

namespace Sys2Proof.Machine

open Sys2Proof

/-! ### Spans (20_memory.md R73, R74, R77) -/

/-- The operand a command takes from a span group: the three registers read when the command starts (30_encoding.md
R102), as unbounded naturals (00_scope.md R10). -/
structure Operand where
  sel : SpanSel
  base : Nat
  len : Nat
  off : Nat
deriving DecidableEq, Repr

/-- The registers of a span group. -/
def spanRegs (s : State) : SpanSel → SpanRegs
  | .s => s.spanS
  | .x => s.spanX
  | .y => s.spanY

/-- The operand in a span group. -/
def operand (s : State) (sp : SpanSel) : Operand where
  sel := sp
  base := (spanRegs s sp).base.toNat
  len := (spanRegs s sp).len.toNat
  off := (spanRegs s sp).off.toNat

/-- `wa(sp, k)`, the word address of symbol k (20_memory.md R73). -/
def Operand.wa (e : Enc) (o : Operand) (k : Nat) : Nat := o.base + (o.off + k) / e.size

/-- `ix(sp, k)`, the index of symbol k inside its word (20_memory.md R73). -/
def Operand.ix (e : Enc) (o : Operand) (k : Nat) : Nat := (o.off + k) % e.size

/-- `abs(sp)`, the absolute symbol address of symbol 0 (20_memory.md R73). -/
def Operand.abs (e : Enc) (o : Operand) : Nat := o.base * e.size + o.off

/-- `Valid(sp, n)` (20_memory.md R74). -/
def Operand.valid (p : Params) (o : Operand) (n : Nat) : Bool :=
  decide (o.base + o.len ≤ p.memWords ∧ o.off + n ≤ o.len * p.enc.size)

/-- Two spans of n symbols are disjoint (20_memory.md R77). -/
def disjointSpans (e : Enc) (a b : Operand) (n : Nat) : Bool :=
  decide (a.abs e + n ≤ b.abs e ∨ b.abs e + n ≤ a.abs e)

/-- Two spans are identical (20_memory.md R77). -/
def identicalSpans (e : Enc) (a b : Operand) : Bool := decide (a.abs e = b.abs e)

/-! ### The words a span touches (20_memory.md R83) -/

/-- `Segments(sp, n)`. -/
structure Segments where
  first : Nat
  lead : Nat
  full : Nat
  trail : Nat
  /-- address of the lead word -/
  wl : Nat
  /-- address of the first full word -/
  w0 : Nat
deriving DecidableEq, Repr

/-- The symbols of the lead segment. -/
def leadLength (e : Enc) (o : Operand) (n : Nat) : Nat :=
  if o.off % e.size ≠ 0 then min n (e.size - o.off % e.size) else 0

/-- `Segments(sp, n)` (20_memory.md R83). -/
def segments (e : Enc) (o : Operand) (n : Nat) : Segments where
  first := o.off % e.size
  lead := leadLength e o n
  full := (n - leadLength e o n) / e.size
  trail := (n - leadLength e o n) % e.size
  wl := o.base + o.off / e.size
  w0 := o.base + (o.off + leadLength e o n) / e.size

/-- One touched word: its address, the in-word index range `[lo, hi)` of the span, and the span index of its first
symbol. -/
structure Touch where
  addr : Nat
  lo : Nat
  hi : Nat
  k0 : Nat
deriving DecidableEq, Repr

/-- The full words of a span, ascending. -/
def fullTouches (e : Enc) (g : Segments) : List Touch :=
  (List.range g.full).map fun j => { addr := g.w0 + j, lo := 0, hi := e.size, k0 := g.lead + j * e.size }

/-- `Touched(sp, n)`, in ascending address order. -/
def touched (e : Enc) (o : Operand) (n : Nat) : List Touch :=
  let g := segments e o n
  (if g.lead > 0 then [{ addr := g.wl, lo := g.first, hi := g.first + g.lead, k0 := 0 }] else [])
    ++ fullTouches e g
    ++ (if g.trail > 0 then [{ addr := g.w0 + g.full, lo := 0, hi := g.trail, k0 := g.lead + g.full * e.size }] else [])

/-- `a[lo..hi)`. -/
def slice (a : List Sym) (lo hi : Nat) : List Sym := (a.take hi).drop lo

/-- `a` with `a[lo..hi)` replaced by `v`. -/
def splice (a : List Sym) (lo hi : Nat) (v : List Sym) : List Sym := a.take lo ++ v ++ a.drop hi

/-! ### What each command uses (30_encoding.md R105) -/

/-- Whether a command takes its count from `N`, and how many TBUF cells it uses. -/
inductive CellUse where
  | none
  /-- SIZE cells from `TBOFF` -/
  | oneWord
  /-- n cells from `TBOFF` -/
  | counted
deriving DecidableEq, Repr

/-- How a pair of different span groups is treated by the overlap rule (20_memory.md R77). -/
inductive PairRule where
  | mustBeDisjoint
  | mayBeIdentical
  | notChecked
deriving DecidableEq, Repr

/-- One row of the table of 30_encoding.md R105. -/
structure Uses where
  /-- the count is `N` and the zero-length rule holds -/
  counted : Bool
  /-- the span groups used -/
  spans : List SpanSel
  /-- the TBUF cells used -/
  cells : CellUse
  /-- the overlap rule of a pair of different groups -/
  pair : SpanSel → SpanSel → PairRule

/-- No pair is exempt. -/
def strictPairs (_ _ : SpanSel) : PairRule := .mustBeDisjoint

/-- The one pair of COPY. -/
def copyPairs (_ _ : SpanSel) : PairRule := .mayBeIdentical

/-- The one pair of EQU, only read. -/
def readOnlyPairs (_ _ : SpanSel) : PairRule := .notChecked

/-- The pairs of the two-buffer combinators: (X, Y) may be identical. -/
def feedbackPairs : SpanSel → SpanSel → PairRule
  | .x, .y => .mayBeIdentical
  | .y, .x => .mayBeIdentical
  | _, _ => .mustBeDisjoint

/-- A row that uses no counted span: the given cells, count 1. -/
def uncounted (spans : List SpanSel) (cells : CellUse) : Uses :=
  { counted := false, spans := spans, cells := cells, pair := strictPairs }

/-- A row whose count is `N`. -/
def countedUses (spans : List SpanSel) (cells : CellUse) (pair : SpanSel → SpanSel → PairRule) : Uses :=
  { counted := true, spans := spans, cells := cells, pair := pair }

/-- The table of 30_encoding.md R105; an assembler name has the row of the command it expands to (R109). -/
def usesOf : Instr → Uses
  | .w2s => uncounted [] .oneWord
  | .s2w => uncounted [] .oneWord
  | .get a => uncounted [a] .none
  | .put a _ => uncounted [a] .none
  | .tosym a => countedUses [a] .counted strictPairs
  | .fromsym a => countedUses [a] .counted strictPairs
  | .copy a b => countedUses [a, b] .none copyPairs
  | .fillz a => countedUses [a] .none strictPairs
  | .equ a b => countedUses [a, b] .none readOnlyPairs
  | .add _ _ => uncounted [] .none
  | .sub _ _ => uncounted [] .none
  | .setxa => countedUses [.s, .x, .y] .none feedbackPairs
  | .setxs => countedUses [.s, .x, .y] .none feedbackPairs
  | .setya => countedUses [.s, .x, .y] .none feedbackPairs
  | .setys => countedUses [.s, .x, .y] .none feedbackPairs
  | .setxam => countedUses [.s, .x] .none strictPairs
  | .setxsm => countedUses [.s, .x] .none strictPairs
  | .setyam => countedUses [.s, .x] .none strictPairs
  | .setysm => countedUses [.s, .x] .none strictPairs
  | .adds => countedUses [.s, .x] .none strictPairs
  | .sqzow => countedUses [.s, .y] .none strictPairs
  | .sqeow => countedUses [.s, .x] .none strictPairs
  | .clrerr => uncounted [] .none
  | .absorbOw => countedUses [.x, .s] .none copyPairs
  | .absorbX => countedUses [.s, .x] .none strictPairs
  | .squeezeOw => countedUses [.s, .y] .none strictPairs
  | .squeezeX => countedUses [.s, .y] .none copyPairs
  | .squeezeeqOw => countedUses [.s, .x] .none strictPairs
  | .squeezeeqX => countedUses [.s, .x] .none readOnlyPairs
  | .encryptOw => countedUses [.s, .x, .y] .none feedbackPairs
  | .encryptOwM => countedUses [.s, .x] .none strictPairs
  | .encryptX => countedUses [.s, .x, .y] .none feedbackPairs
  | .encryptXM => countedUses [.s, .x] .none strictPairs
  | .decryptOw => countedUses [.s, .x, .y] .none feedbackPairs
  | .decryptOwM => countedUses [.s, .x] .none strictPairs
  | .decryptX => countedUses [.s, .x, .y] .none feedbackPairs
  | .decryptXM => countedUses [.s, .x] .none strictPairs

/-- The count n of step 5 of the frame: `N` for a counted command, else 1 (30_encoding.md R111). -/
def Uses.count (u : Uses) (s : State) : Nat := if u.counted then s.n.toNat else 1

/-- The number m of TBUF cells of step 5 of the frame. -/
def Uses.cellCount (u : Uses) (s : State) : Nat :=
  match u.cells with
  | .none => 0
  | .oneWord => s.params.enc.size
  | .counted => u.count s

/-! ### The checks of the frame (30_encoding.md R111 steps 5 and 6) -/

/-- Step 5: the spans in the order S, X, Y, then TBUF; the first failure. -/
def boundsError (u : Uses) (s : State) : Option Err :=
  match [SpanSel.s, .x, .y].find? fun sp =>
      decide (sp ∈ u.spans) && !(operand s sp).valid s.params (u.count s) with
  | some sp => some { kind := .bounds, info := spanCode sp, addr := 0 }
  | none =>
    if u.cells ≠ .none ∧ s.params.tbufCells < s.tboff.toNat + u.cellCount s then
      some { kind := .bounds, info := tbufCode, addr := 0 }
    else none

/-- Whether the overlap rule refuses a pair. -/
def pairClash (u : Uses) (s : State) (a b : SpanSel) : Bool :=
  match u.pair a b with
  | .notChecked => false
  | .mayBeIdentical =>
    !identicalSpans s.params.enc (operand s a) (operand s b)
      && !disjointSpans s.params.enc (operand s a) (operand s b) (u.count s)
  | .mustBeDisjoint => !disjointSpans s.params.enc (operand s a) (operand s b) (u.count s)

/-- Step 6: the pairs in the order (S, X), (S, Y), (X, Y); the first clash. -/
def overlapError (u : Uses) (s : State) : Option Err :=
  match [(SpanSel.s, SpanSel.x), (.s, .y), (.x, .y)].find? fun ab =>
      decide (ab.1 ∈ u.spans) && decide (ab.2 ∈ u.spans) && pairClash u s ab.1 ab.2 with
  | some ab => some { kind := .overlap, info := pairInfo ab.1 ab.2, addr := 0 }
  | none => none

end Sys2Proof.Machine
end

