-- ==== Sys2Proof/Machine/Ops.lean ====
section
/-!
DEFINITION. The shared operations: storage, the register file, taking and clearing an error, the access primitives of
20_memory.md R80 to R85, and the execution frame of 30_encoding.md R111.
-/

namespace Sys2Proof.Machine

open Sys2Proof

/-! ### Sparse storage in canonical form -/

/-- What address `a` holds. -/
def Memory.read {w : Nat} : Memory w → Nat → BitVec w
  | [], _ => powerUp w
  | (b, v) :: rest, a => if a = b then v else Memory.read rest a

/-- Storage with nothing listed at address `a`. -/
def Memory.erase {w : Nat} : Memory w → Nat → Memory w
  | [], _ => []
  | (b, u) :: rest, a => if a = b then Memory.erase rest a else (b, u) :: Memory.erase rest a

/-- The cell (a, v) put before the first cell with a higher address. -/
def Memory.insert {w : Nat} : Memory w → Nat → BitVec w → Memory w
  | [], a, v => [(a, v)]
  | (b, u) :: rest, a, v => if a < b then (a, v) :: (b, u) :: rest else (b, u) :: Memory.insert rest a v

/-- Storage with address `a` holding `v`: listed in its place, unless `v` is what an unlisted address reads as. -/
def Memory.write {w : Nat} (m : Memory w) (a : Nat) (v : BitVec w) : Memory w :=
  if v = powerUp w then Memory.erase m a else Memory.insert (Memory.erase m a) a v

/-- The canonical form: addresses strictly rising, no listed value equal to what an unlisted address reads as. -/
def Memory.wf {w : Nat} : Memory w → Bool
  | [] => true
  | (a, v) :: rest => rest.all (fun c => decide (a < c.1)) && decide (v ≠ powerUp w) && Memory.wf rest

/-- Every listed address lies below `bound`. -/
def Memory.below {w : Nat} (bound : Nat) (m : Memory w) : Bool := m.all fun c => decide (c.1 < bound)

/-- Consecutive addresses read upward. -/
def Memory.readMany {w : Nat} (m : Memory w) (a : Nat) : Nat → List (BitVec w)
  | 0 => []
  | count + 1 => Memory.read m a :: Memory.readMany m (a + 1) count

/-- Consecutive addresses written upward. -/
def Memory.writeMany {w : Nat} (m : Memory w) (a : Nat) : List (BitVec w) → Memory w
  | [] => m
  | v :: rest => Memory.writeMany (Memory.write m a v) (a + 1) rest

/-! ### Named updates of the state -/

/-- `M` replaced. -/
def withMem (s : State) (m : Memory 8) : State := { s with mem := m }

/-- TBUF replaced. -/
def withTbuf (s : State) (c : Memory 2) : State := { s with tbuf := c }

/-- `RESULT <- v`. -/
def withResult (s : State) (v : RegVal) : State := { s with result := v }

/-- `WDATA <- zext_32(w)`: only bits [7:0] exist (10_state.md R35). -/
def withWdata (s : State) (w : MWord) : State := { s with wdata := w }

/-- The host's coming actions replaced. -/
def withInbox (s : State) (q : List HostAction) : State := { s with inbox := q }

/-- One more reply to the host. -/
def withReply (s : State) (r : HostReply) : State := { s with outbox := s.outbox ++ [r] }

/-! ### Taking an error, and clearing it (60_exceptions.md R247, R250) -/

/-- What `raise E(info, addr)` does: the code goes to `STATUS.ERR`, `info` to `ERRINFO`, `addr` to `ERRADDR`; there is no
vector and no saved pc. "RESULT, WDATA and every other register keep the value they had at the raise". -/
def takeError (e : Err) (s : State) : State :=
  { s with status := withErrField s.status (errCode e.kind), errInfo := e.info, errAddr := e.addr }

/-- The body of CLRERR, "the only return from error". -/
def clearError (s : State) : State :=
  { s with status := withErrField s.status 0, errInfo := 0, errAddr := 0 }

/-! ### The register file (10_state.md R31, R42; 70_reset_and_hazards.md R296) -/

/-- A register as the host reads it. `CFG` is hard-wired, `CMD` reads 0, `WDATA` reads zero above bit 7, numbers 18 and
above read 0. -/
def readReg (s : State) (r : Nat) : RegVal :=
  match r with
  | 0 => cfgValue s.params.enc
  | 1 => s.status
  | 2 => s.errInfo
  | 3 => s.errAddr
  | 4 => s.result
  | 6 => s.n
  | 7 => s.tboff
  | 8 => s.wdata.setWidth 32
  | 9 => s.spanS.base
  | 10 => s.spanS.len
  | 11 => s.spanS.off
  | 12 => s.spanX.base
  | 13 => s.spanX.len
  | 14 => s.spanX.off
  | 15 => s.spanY.base
  | 16 => s.spanY.len
  | 17 => s.spanY.off
  | _ => 0

/-- A write of the host to a register other than `CMD`: registers 6 to 17 store the value (`WDATA` bits [7:0] only),
every other number is ignored. -/
def writeReg (s : State) (r : Nat) (v : RegVal) : State :=
  match r with
  | 6 => { s with n := v }
  | 7 => { s with tboff := v }
  | 8 => { s with wdata := v.setWidth 8 }
  | 9 => { s with spanS := { s.spanS with base := v } }
  | 10 => { s with spanS := { s.spanS with len := v } }
  | 11 => { s with spanS := { s.spanS with off := v } }
  | 12 => { s with spanX := { s.spanX with base := v } }
  | 13 => { s with spanX := { s.spanX with len := v } }
  | 14 => { s with spanX := { s.spanX with off := v } }
  | 15 => { s with spanY := { s.spanY with base := v } }
  | 16 => { s with spanY := { s.spanY with len := v } }
  | 17 => { s with spanY := { s.spanY with off := v } }
  | _ => s

/-! ### Running a command's pseudocode -/

/-- How a piece of pseudocode ends: with a value; with a `raise`, keeping the writes made before it (00_scope.md R14); or
on an access to storage that does not exist, which no command reaches (20_memory.md R74; log 13). -/
inductive Res (α : Type) where
  | done (a : α) (s : State)
  | raised (e : Err) (s : State)
  | absent (f : Fault)
deriving DecidableEq, Repr

/-- A piece of pseudocode. -/
abbrev Cmd (α : Type) := State → Res α

/-- Ends with a value and no effect. -/
def Cmd.ret {α : Type} (a : α) : Cmd α := fun s => .done a s

/-- One piece, then the next with its value (00_scope.md R15: "one after the other, never overlapped"). -/
def Cmd.bind {α β : Type} (m : Cmd α) (k : α → Cmd β) : Cmd β := fun s =>
  match m s with
  | .done a s' => k a s'
  | .raised e s' => .raised e s'
  | .absent f => .absent f

/-- `raise <Error>(info, addr)` (00_scope.md R14). -/
def Cmd.raise {α : Type} (kind : ErrKind) (info addr : RegVal) : Cmd α := fun s =>
  .raised { kind := kind, info := info, addr := addr } s

/-- `for k in k0 .. k0 + count - 1`, ascending (00_scope.md R15). -/
def Cmd.forUp (body : Nat → Cmd Unit) : Nat → Nat → Cmd Unit
  | 0, _ => Cmd.ret ()
  | count + 1, k => Cmd.bind (body k) fun _ => Cmd.forUp body count (k + 1)

/-- A body for each element of a list, in order. -/
def Cmd.forEach {α : Type} (body : α → Cmd Unit) : List α → Cmd Unit
  | [] => Cmd.ret ()
  | t :: rest => Cmd.bind (body t) fun _ => Cmd.forEach body rest

/-- `RESULT <- v`. -/
def setResult (v : RegVal) : Cmd Unit := fun s => .done () (withResult s v)

/-- `MemRead(addr, 1)` (00_scope.md R13). -/
def memRead (addr : Nat) : Cmd MWord := fun s =>
  if addr < s.params.memWords then .done (Memory.read s.mem addr) s else .absent (.noSuchWord addr)

/-- `MemWrite(addr, 1, w)` (00_scope.md R13). -/
def memWrite (addr : Nat) (w : MWord) : Cmd Unit := fun s =>
  if addr < s.params.memWords then .done () (withMem s (Memory.write s.mem addr w)) else .absent (.noSuchWord addr)

/-- `TbufRead(c)` (00_scope.md R13). -/
def tbufRead (c : Nat) : Cmd SymCode := fun s =>
  if c < s.params.tbufCells then .done (Memory.read s.tbuf c) s else .absent (.noSuchCell c)

/-- `TbufWrite(c, code)` (00_scope.md R13). -/
def tbufWrite (c : Nat) (code : SymCode) : Cmd Unit := fun s =>
  if c < s.params.tbufCells then .done () (withTbuf s (Memory.write s.tbuf c code)) else .absent (.noSuchCell c)

/-! ### Access primitives (20_memory.md R80 to R85) -/

/-- `DecodeAt(sp, addr)` (R80). -/
def decodeAt (e : Enc) (o : Operand) (addr : Nat) : Cmd (List Sym) :=
  Cmd.bind (memRead addr) fun w =>
    if legal e w then Cmd.ret (dec e w)
    else Cmd.raise .illegalWord (spanCode o.sel) (BitVec.ofNat 32 addr)

/-- `a[i]`. -/
def symAtIndex (a : List Sym) (i : Nat) : Sym := a.getD i .zero

/-- `GetSym(sp, k)` (R81). -/
def getSym (e : Enc) (o : Operand) (k : Nat) : Cmd Sym :=
  Cmd.bind (decodeAt e o (o.wa e k)) fun a => Cmd.ret (symAtIndex a (o.ix e k))

/-- `PutSym(sp, k, v)` (R82). -/
def putSym (e : Enc) (o : Operand) (k : Nat) (v : Sym) : Cmd Unit :=
  Cmd.bind (decodeAt e o (o.wa e k)) fun a => memWrite (o.wa e k) (enc e (a.set (o.ix e k) v))

/-- `TraverseRO(sp, n, visit)` (R84). -/
def traverseRO (e : Enc) (o : Operand) (n : Nat) (visit : Nat → List Sym → Cmd Unit) : Cmd Unit :=
  Cmd.forEach (fun t => Cmd.bind (decodeAt e o t.addr) fun a => visit t.k0 (slice a t.lo t.hi)) (touched e o n)

/-- `TraverseRW(sp, n, visit)` (R85): every touched word is decoded, also a full one. -/
def traverseRW (e : Enc) (o : Operand) (n : Nat) (visit : Nat → List Sym → Cmd (List Sym)) : Cmd Unit :=
  Cmd.forEach
    (fun t =>
      Cmd.bind (decodeAt e o t.addr) fun a =>
        Cmd.bind (visit t.k0 (slice a t.lo t.hi)) fun v => memWrite t.addr (enc e (splice a t.lo t.hi v)))
    (touched e o n)

/-- Consecutive cells from `c` upward get the codes of the symbols. -/
def writeCells : Nat → List Sym → Cmd Unit
  | _, [] => Cmd.ret ()
  | c, v :: rest => Cmd.bind (tbufWrite c (symCode v)) fun _ => writeCells (c + 1) rest

/-- `count` consecutive cells from `c` upward as symbols; an illegal code raises `IllegalSymbol` with the cell's index
(60_exceptions.md R242 (b)). -/
def readCells (e : Enc) : Nat → Nat → Cmd (List Sym)
  | 0, _ => Cmd.ret []
  | count + 1, c =>
    Cmd.bind (tbufRead c) fun code =>
      match uncode e code with
      | none => Cmd.raise .illegalSymbol tbufCode (BitVec.ofNat 32 c)
      | some v => Cmd.bind (readCells e count (c + 1)) fun rest => Cmd.ret (v :: rest)

/-! ### The execution frame (30_encoding.md R111 steps 3 to 7) -/

/-- Step 3: a symbol immediate; `which` is 0 for `sym` and 1 for `sym2`. -/
def immediate (e : Enc) (code : SymCode) (which : RegVal) (k : Sym → Cmd Unit) : Cmd Unit :=
  match uncode e code with
  | none => Cmd.raise .illegalSymbol immInfo which
  | some v => k v

/-- Steps 4 to 7: the zero-length rule with its effect `onZero`, the bounds checks, the overlap checks, the body. The
body is given the count. -/
def framed (u : Uses) (onZero : Cmd Unit) (body : Nat → Cmd Unit) : Cmd Unit := fun s =>
  if u.counted = true ∧ s.n = 0 then onZero s
  else
    match boundsError u s with
    | some e => .raised e s
    | none =>
      match overlapError u s with
      | some e => .raised e s
      | none => body (u.count s) s

/-- The end of a command: a `raise` latches its error (60_exceptions.md R247), which is a next state. -/
def finish : Res Unit → Host.Outcome State Fault Refusal
  | .done _ s => .next s
  | .raised e s => .next (takeError e s)
  | .absent f => .fault f

end Sys2Proof.Machine
end

