-- ==== Sys2Proof/Machine/BulkSpan.lean ====
section
/-!
DEFINITION. The bulk span operations COPY, FILLZ, EQU and their procedures (spec 41_bulk_span_ops.md).
-/

namespace Sys2Proof.Machine

open Sys2Proof

/-- The path test of 41_bulk_span_ops.md R160. -/
def fastPath (e : Enc) (a b : Operand) : Bool := decide (a.off % e.size = b.off % e.size)

/-- The read-modify-write of one edge word on the fast path of COPY (R161): indices `[lo, hi)` of the destination word
get those of the source word. -/
def copyEdge (e : Enc) (a b : Operand) (addrA addrB lo hi : Nat) : Cmd Unit :=
  Cmd.bind (decodeAt e a addrA) fun sa =>
    Cmd.bind (decodeAt e b addrB) fun sb => memWrite addrB (enc e (splice sb lo hi (slice sa lo hi)))

/-- One full word on the fast path of COPY: the raw pattern (R161). -/
def copyWord (addrA addrB : Nat) : Cmd Unit := Cmd.bind (memRead addrA) fun w => memWrite addrB w

/-- The fast path of `CopyProc` (R161). -/
def copyFast (e : Enc) (n : Nat) (a b : Operand) : Cmd Unit :=
  let g := segments e a n
  let h := segments e b n
  Cmd.bind (if g.lead > 0 then copyEdge e a b g.wl h.wl g.first (g.first + g.lead) else Cmd.ret ()) fun _ =>
    Cmd.bind (Cmd.forUp (fun j => copyWord (g.w0 + j) (h.w0 + j)) g.full 0) fun _ =>
      if g.trail > 0 then copyEdge e a b (g.w0 + g.full) (h.w0 + g.full) 0 g.trail else Cmd.ret ()

/-- The slow path of `CopyProc` (R161). -/
def copySlow (e : Enc) (n : Nat) (a b : Operand) : Cmd Unit :=
  Cmd.forUp (fun k => Cmd.bind (getSym e a k) fun v => putSym e b k v) n 0

/-- `CopyProc(n, a, b)` (R161). -/
def copyProc (e : Enc) (n : Nat) (a b : Operand) : Cmd Unit :=
  if fastPath e a b then copyFast e n a b else copySlow e n a b

/-- One touched word of `FillzProc` (R163): a full word is overwritten without being read. -/
def fillWord (e : Enc) (a : Operand) (t : Touch) : Cmd Unit :=
  if t.hi - t.lo = e.size then memWrite t.addr zeroWord
  else Cmd.bind (decodeAt e a t.addr) fun s =>
    memWrite t.addr (enc e (splice s t.lo t.hi (List.replicate (t.hi - t.lo) .zero)))

/-- `FillzProc(n, a)` (R163). -/
def fillzProc (e : Enc) (n : Nat) (a : Operand) : Cmd Unit := Cmd.forEach (fillWord e a) (touched e a n)

/-- The comparison of one edge word on the fast path of EQU (R165). -/
def equEdge (e : Enc) (a b : Operand) (addrA addrB lo hi : Nat) : Cmd Bool :=
  Cmd.bind (decodeAt e a addrA) fun sa =>
    Cmd.bind (decodeAt e b addrB) fun sb => Cmd.ret (decide (slice sa lo hi = slice sb lo hi))

/-- The full words on the fast path of EQU: raw patterns, stopping at the first mismatch (R165). -/
def equWords (addrA addrB : Nat) : Nat → Cmd Bool
  | 0 => Cmd.ret true
  | count + 1 =>
    Cmd.bind (memRead addrA) fun u =>
      Cmd.bind (memRead addrB) fun v =>
        if u = v then equWords (addrA + 1) (addrB + 1) count else Cmd.ret false

/-- A comparison, then the next one if it found no mismatch ("must short-circuit on first mismatch", R165). -/
def Cmd.andAlso (m k : Cmd Bool) : Cmd Bool := Cmd.bind m fun r => if r then k else Cmd.ret false

/-- The fast path of `EquProc` (R165). -/
def equFast (e : Enc) (n : Nat) (a b : Operand) : Cmd Bool :=
  let g := segments e a n
  let h := segments e b n
  Cmd.andAlso (if g.lead > 0 then equEdge e a b g.wl h.wl g.first (g.first + g.lead) else Cmd.ret true)
    (Cmd.andAlso (equWords g.w0 h.w0 g.full)
      (if g.trail > 0 then equEdge e a b (g.w0 + g.full) (h.w0 + g.full) 0 g.trail else Cmd.ret true))

/-- The slow path of `EquProc` (R165): every pair is read, no early exit. -/
def equSlow (e : Enc) (a b : Operand) : Nat → Nat → Bool → Cmd Bool
  | 0, _, eq => Cmd.ret eq
  | count + 1, k, eq =>
    Cmd.bind (getSym e a k) fun va =>
      Cmd.bind (getSym e b k) fun vb => equSlow e a b count (k + 1) (if va = vb then eq else false)

/-- `EquProc(n, a, b)` (R165). -/
def equProc (e : Enc) (n : Nat) (a b : Operand) : Cmd Bool :=
  if fastPath e a b then equFast e n a b else equSlow e a b n 0 true

/-- `COPY spa, spb` (41_bulk_span_ops.md R162). -/
def execCopy (spa spb : SpanSel) (s : State) : Host.Outcome State Fault Refusal :=
  finish (framed (usesOf (.copy spa spb)) (Cmd.ret ()) (fun n =>
    copyProc s.params.enc n (operand s spa) (operand s spb)) s)

/-- `FILLZ spa` (41_bulk_span_ops.md R164). -/
def execFillz (spa : SpanSel) (s : State) : Host.Outcome State Fault Refusal :=
  finish (framed (usesOf (.fillz spa)) (Cmd.ret ()) (fun n => fillzProc s.params.enc n (operand s spa)) s)

/-- `EQU spa, spb` (41_bulk_span_ops.md R166); with `N` = 0 `RESULT` = 1 (20_memory.md R76). -/
def execEqu (spa spb : SpanSel) (s : State) : Host.Outcome State Fault Refusal :=
  finish (framed (usesOf (.equ spa spb)) (setResult (boolResult true)) (fun n =>
    Cmd.bind (equProc s.params.enc n (operand s spa) (operand s spb)) fun r => setResult (boolResult r)) s)

end Sys2Proof.Machine
end

