-- ==== Sys2Proof/Machine/Feedback.lean ====
section
/-!
DEFINITION. The state-feedback combinators (spec 43_feedback_combinators.md).
-/

namespace Sys2Proof.Machine

open Sys2Proof

/-- One position of a combinator (43_feedback_combinators.md R190): the data symbol, then the state symbol, then the
output, then the new state. -/
def feedbackStep (e : Enc) (d st out : Operand) (f g : Sym → Sym → Sym) (k : Nat) : Cmd Unit :=
  Cmd.bind (getSym e d k) fun dv =>
    Cmd.bind (getSym e st k) fun sv =>
      Cmd.bind (putSym e out k (f dv sv)) fun _ => putSym e st k (g dv sv)

/-- The loop of a combinator: data span `d`, state span S, output span `out`, output function `f` and state function `g`
of the data symbol and the state symbol. -/
def feedback (e : Enc) (d st out : Operand) (f g : Sym → Sym → Sym) (n : Nat) : Cmd Unit :=
  Cmd.forUp (feedbackStep e d st out f g) n 0

/-- The new state is the data symbol. -/
def keepData (dv _ : Sym) : Sym := dv

/-- A combinator command: frame and loop. -/
def feedbackCmd (u : Uses) (d out : SpanSel) (f g : Sym → Sym → Sym) (s : State) : Host.Outcome State Fault Refusal :=
  finish (framed u (Cmd.ret ()) (feedback s.params.enc (operand s d) (operand s .s) (operand s out) f g) s)

/-- `SETXA`: y := x + s, then s := x (43_feedback_combinators.md R191). -/
def execSetxa (s : State) : Host.Outcome State Fault Refusal :=
  feedbackCmd (usesOf .setxa) .x .y (symAdd s.params.enc) keepData s

/-- `SETXS`: x := y − s, then s := x (43_feedback_combinators.md R192). -/
def execSetxs (s : State) : Host.Outcome State Fault Refusal :=
  feedbackCmd (usesOf .setxs) .y .x (symSub s.params.enc) (symSub s.params.enc) s

/-- `SETYA`: y := x + s, then s := y (43_feedback_combinators.md R193). -/
def execSetya (s : State) : Host.Outcome State Fault Refusal :=
  feedbackCmd (usesOf .setya) .x .y (symAdd s.params.enc) (symAdd s.params.enc) s

/-- `SETYS`: x := y − s, then s := y (43_feedback_combinators.md R194). -/
def execSetys (s : State) : Host.Outcome State Fault Refusal :=
  feedbackCmd (usesOf .setys) .y .x (symSub s.params.enc) keepData s

/-- `SETXAM`, the in-place form of SETXA (43_feedback_combinators.md R195). -/
def execSetxam (s : State) : Host.Outcome State Fault Refusal :=
  feedbackCmd (usesOf .setxam) .x .x (symAdd s.params.enc) keepData s

/-- `SETXSM`, the in-place form of SETXS (43_feedback_combinators.md R196). -/
def execSetxsm (s : State) : Host.Outcome State Fault Refusal :=
  feedbackCmd (usesOf .setxsm) .x .x (symSub s.params.enc) (symSub s.params.enc) s

/-- `SETYAM`, the in-place form of SETYA (43_feedback_combinators.md R197). -/
def execSetyam (s : State) : Host.Outcome State Fault Refusal :=
  feedbackCmd (usesOf .setyam) .x .x (symAdd s.params.enc) (symAdd s.params.enc) s

/-- `SETYSM`, the in-place form of SETYS (43_feedback_combinators.md R198). -/
def execSetysm (s : State) : Host.Outcome State Fault Refusal :=
  feedbackCmd (usesOf .setysm) .x .x (symSub s.params.enc) keepData s

end Sys2Proof.Machine
end

