-- ==== Sys2Proof/Machine/Sponge.lean ====
section
/-!
DEFINITION. The sponge commands ADDS, SQZOW, SQEOW and the fourteen sponge operation names (spec 44_sponge_ops.md).
-/

namespace Sys2Proof.Machine

open Sys2Proof

/-- One position of ADDS (44_sponge_ops.md R211): the state is read before the data. -/
def absorbStep (e : Enc) (st d : Operand) (k : Nat) : Cmd Unit :=
  Cmd.bind (getSym e st k) fun sv =>
    Cmd.bind (getSym e d k) fun xv => putSym e st k (symAdd e sv xv)

/-- `ADDS`: the data added into the state (44_sponge_ops.md R211). -/
def execAdds (s : State) : Host.Outcome State Fault Refusal :=
  finish (framed (usesOf .adds) (Cmd.ret ()) (fun n =>
    Cmd.forUp (absorbStep s.params.enc (operand s .s) (operand s .x)) n 0) s)

/-- `SQZOW`: the state copied out, then zeroed (44_sponge_ops.md R212). -/
def execSqzow (s : State) : Host.Outcome State Fault Refusal :=
  finish (framed (usesOf .sqzow) (Cmd.ret ()) (fun n =>
    Cmd.bind (copyProc s.params.enc n (operand s .s) (operand s .y)) fun _ =>
      fillzProc s.params.enc n (operand s .s)) s)

/-- `SQEOW`: the state compared with the expectation, then zeroed whatever the comparison said (44_sponge_ops.md R214);
with `N` = 0 `RESULT` = 1 (20_memory.md R76). -/
def execSqeow (s : State) : Host.Outcome State Fault Refusal :=
  finish (framed (usesOf .sqeow) (setResult (boolResult true)) (fun n =>
    Cmd.bind (equProc s.params.enc n (operand s .s) (operand s .x)) fun r =>
      Cmd.bind (fillzProc s.params.enc n (operand s .s)) fun _ => setResult (boolResult r)) s)

/-! ### The assembler names (30_encoding.md R109): each is the command it expands to -/

/-- `ABSORB.OW` = `COPY X, S` (44_sponge_ops.md R210). -/
def execAbsorbOw (s : State) : Host.Outcome State Fault Refusal := execCopy .x .s s

/-- `ABSORB.X` = `ADDS` (44_sponge_ops.md R211). -/
def execAbsorbX (s : State) : Host.Outcome State Fault Refusal := execAdds s

/-- `SQUEEZE.OW` = `SQZOW` (44_sponge_ops.md R212). -/
def execSqueezeOw (s : State) : Host.Outcome State Fault Refusal := execSqzow s

/-- `SQUEEZE.X` = `COPY S, Y` (44_sponge_ops.md R213). -/
def execSqueezeX (s : State) : Host.Outcome State Fault Refusal := execCopy .s .y s

/-- `SQUEEZEEQ.OW` = `SQEOW` (44_sponge_ops.md R214). -/
def execSqueezeeqOw (s : State) : Host.Outcome State Fault Refusal := execSqeow s

/-- `SQUEEZEEQ.X` = `EQU S, X` (44_sponge_ops.md R215). -/
def execSqueezeeqX (s : State) : Host.Outcome State Fault Refusal := execEqu .s .x s

/-- `ENCRYPT.OW` = `SETXA` (44_sponge_ops.md R216). -/
def execEncryptOw (s : State) : Host.Outcome State Fault Refusal := execSetxa s

/-- `ENCRYPT.OW.M` = `SETXAM` (44_sponge_ops.md R217). -/
def execEncryptOwM (s : State) : Host.Outcome State Fault Refusal := execSetxam s

/-- `ENCRYPT.X` = `SETYA` (44_sponge_ops.md R218). -/
def execEncryptX (s : State) : Host.Outcome State Fault Refusal := execSetya s

/-- `ENCRYPT.X.M` = `SETYAM` (44_sponge_ops.md R219). -/
def execEncryptXM (s : State) : Host.Outcome State Fault Refusal := execSetyam s

/-- `DECRYPT.OW` = `SETXS` (44_sponge_ops.md R220). -/
def execDecryptOw (s : State) : Host.Outcome State Fault Refusal := execSetxs s

/-- `DECRYPT.OW.M` = `SETXSM` (44_sponge_ops.md R221). -/
def execDecryptOwM (s : State) : Host.Outcome State Fault Refusal := execSetxsm s

/-- `DECRYPT.X` = `SETYS` (44_sponge_ops.md R222). -/
def execDecryptX (s : State) : Host.Outcome State Fault Refusal := execSetys s

/-- `DECRYPT.X.M` = `SETYSM` (44_sponge_ops.md R223). -/
def execDecryptXM (s : State) : Host.Outcome State Fault Refusal := execSetysm s

end Sys2Proof.Machine
end

