-- ==== Sys2Proof/Machine/SymbolArith.lean ====
section
/-!
DEFINITION. The symbol arithmetic commands ADD and SUB (spec 42_symbol_arithmetic.md).
-/

namespace Sys2Proof.Machine

open Sys2Proof

/-- The common shape of ADD and SUB: two immediates, `sym` before `sym2`, and a function of the alphabet
(42_symbol_arithmetic.md R183, R184). -/
def symbolOp (u : Uses) (f : Sym → Sym → Sym) (sym sym2 : SymCode) (e : Enc) : Cmd Unit :=
  immediate e sym 0 fun x =>
    immediate e sym2 1 fun y =>
      framed u (Cmd.ret ()) fun _ => setResult ((symCode (f x y)).setWidth 32)

/-- `ADD x, y` (42_symbol_arithmetic.md R183). -/
def execAdd (sym sym2 : SymCode) (s : State) : Host.Outcome State Fault Refusal :=
  finish (symbolOp (usesOf (.add sym sym2)) (symAdd s.params.enc) sym sym2 s.params.enc s)

/-- `SUB x, y` (42_symbol_arithmetic.md R184). -/
def execSub (sym sym2 : SymCode) (s : State) : Host.Outcome State Fault Refusal :=
  finish (symbolOp (usesOf (.sub sym sym2)) (symSub s.params.enc) sym sym2 s.params.enc s)

end Sys2Proof.Machine
end

