-- ==== Sys2Proof/Machine/System.lean ====
section
/-!
DEFINITION. The one system command, CLRERR (spec 60_exceptions.md R250).
-/

namespace Sys2Proof.Machine

open Sys2Proof

/-- `CLRERR`: the acknowledge; clears `STATUS.ERR`, `ERRINFO`, `ERRADDR` and changes nothing else (60_exceptions.md
R250). -/
def execClrerr (s : State) : Host.Outcome State Fault Refusal :=
  finish (framed (usesOf .clrerr) (Cmd.ret ()) (fun _ s' => .done () (clearError s')) s)

end Sys2Proof.Machine
end

