-- ==== Sys2Proof/Machine/WordCodec.lean ====
section
/-!
DEFINITION. The word codec and symbol access commands W2S, S2W, GET, PUT, TOSYM, FROMSYM (spec 40_word_codec.md).
-/

namespace Sys2Proof.Machine

open Sys2Proof

/-- `W2S`: the SIZE symbols of `WDATA[7:0]` into TBUF (40_word_codec.md R135). -/
def execW2s (s : State) : Host.Outcome State Fault Refusal :=
  finish (framed (usesOf .w2s) (Cmd.ret ()) (fun _ =>
    if legal s.params.enc s.wdata then writeCells s.tboff.toNat (dec s.params.enc s.wdata)
    else Cmd.raise .illegalWord wdInfo (s.wdata.setWidth 32)) s)

/-- `S2W`: SIZE cells of TBUF into `WDATA` (40_word_codec.md R136). -/
def execS2w (s : State) : Host.Outcome State Fault Refusal :=
  finish (framed (usesOf .s2w) (Cmd.ret ()) (fun _ =>
    Cmd.bind (readCells s.params.enc s.params.enc.size s.tboff.toNat) fun a s' =>
      .done () (withWdata s' (enc s.params.enc a))) s)

/-- `GET sp`: one symbol into `RESULT` (40_word_codec.md R137). -/
def execGet (spa : SpanSel) (s : State) : Host.Outcome State Fault Refusal :=
  finish (framed (usesOf (.get spa)) (Cmd.ret ()) (fun _ =>
    Cmd.bind (getSym s.params.enc (operand s spa) 0) fun v => setResult ((symCode v).setWidth 32)) s)

/-- `PUT sp, sym`: one symbol of a span (40_word_codec.md R138). -/
def execPut (spa : SpanSel) (sym : SymCode) (s : State) : Host.Outcome State Fault Refusal :=
  finish (immediate s.params.enc sym 0 (fun v =>
    framed (usesOf (.put spa sym)) (Cmd.ret ()) (fun _ => putSym s.params.enc (operand s spa) 0 v)) s)

/-- `TOSYM sp`: a span into TBUF (40_word_codec.md R139). -/
def execTosym (spa : SpanSel) (s : State) : Host.Outcome State Fault Refusal :=
  finish (framed (usesOf (.tosym spa)) (Cmd.ret ()) (fun n =>
    traverseRO s.params.enc (operand s spa) n fun k0 syms => writeCells (s.tboff.toNat + k0) syms) s)

/-- `FROMSYM sp`: TBUF into a span (40_word_codec.md R140). -/
def execFromsym (spa : SpanSel) (s : State) : Host.Outcome State Fault Refusal :=
  finish (framed (usesOf (.fromsym spa)) (Cmd.ret ()) (fun n =>
    traverseRW s.params.enc (operand s spa) n fun k0 syms =>
      readCells s.params.enc syms.length (s.tboff.toNat + k0)) s)

end Sys2Proof.Machine
end

