-- ==== Sys2Proof/Machine/Dispatch.lean ====
section
/-!
DEFINITION. One arm per instruction: steps 3 to 7 of the execution frame (spec 30_encoding.md R111). Steps 1 and 2, the
sticky latch and the decoder, stand where a command word arrives (HostPort.lean).
-/

namespace Sys2Proof.Machine

open Sys2Proof

def exec (i : Instr) (s : State) : Host.Outcome State Fault Refusal :=
  match i with
  | .w2s => Sys2Proof.Machine.execW2s s
  | .s2w => Sys2Proof.Machine.execS2w s
  | .get a => Sys2Proof.Machine.execGet a s
  | .put a v => Sys2Proof.Machine.execPut a v s
  | .tosym a => Sys2Proof.Machine.execTosym a s
  | .fromsym a => Sys2Proof.Machine.execFromsym a s
  | .copy a b => Sys2Proof.Machine.execCopy a b s
  | .fillz a => Sys2Proof.Machine.execFillz a s
  | .equ a b => Sys2Proof.Machine.execEqu a b s
  | .add v u => Sys2Proof.Machine.execAdd v u s
  | .sub v u => Sys2Proof.Machine.execSub v u s
  | .setxa => Sys2Proof.Machine.execSetxa s
  | .setxs => Sys2Proof.Machine.execSetxs s
  | .setya => Sys2Proof.Machine.execSetya s
  | .setys => Sys2Proof.Machine.execSetys s
  | .setxam => Sys2Proof.Machine.execSetxam s
  | .setxsm => Sys2Proof.Machine.execSetxsm s
  | .setyam => Sys2Proof.Machine.execSetyam s
  | .setysm => Sys2Proof.Machine.execSetysm s
  | .adds => Sys2Proof.Machine.execAdds s
  | .sqzow => Sys2Proof.Machine.execSqzow s
  | .sqeow => Sys2Proof.Machine.execSqeow s
  | .clrerr => Sys2Proof.Machine.execClrerr s
  | .absorbOw => Sys2Proof.Machine.execAbsorbOw s
  | .absorbX => Sys2Proof.Machine.execAbsorbX s
  | .squeezeOw => Sys2Proof.Machine.execSqueezeOw s
  | .squeezeX => Sys2Proof.Machine.execSqueezeX s
  | .squeezeeqOw => Sys2Proof.Machine.execSqueezeeqOw s
  | .squeezeeqX => Sys2Proof.Machine.execSqueezeeqX s
  | .encryptOw => Sys2Proof.Machine.execEncryptOw s
  | .encryptOwM => Sys2Proof.Machine.execEncryptOwM s
  | .encryptX => Sys2Proof.Machine.execEncryptX s
  | .encryptXM => Sys2Proof.Machine.execEncryptXM s
  | .decryptOw => Sys2Proof.Machine.execDecryptOw s
  | .decryptOwM => Sys2Proof.Machine.execDecryptOwM s
  | .decryptX => Sys2Proof.Machine.execDecryptX s
  | .decryptXM => Sys2Proof.Machine.execDecryptXM s

end Sys2Proof.Machine
end

