-- ==== Sys2Proof/Machine/HostPort.lean ====
section
/-!
DEFINITION. What the host can do to TWC: the write of a command word, the other register accesses, the accesses to `M`
and TBUF, and reset (spec 70_reset_and_hazards.md R296; 30_encoding.md R111 steps 1 and 2).
-/

namespace Sys2Proof.Machine

open Sys2Proof

/-- The number of register `CMD` (10_state.md R31). -/
def cmdReg : Nat := 5

/-- `OnCmdWrite(bits)` (30_encoding.md R111). Step 1: while an error is latched every word but 0x0000003F is dropped,
undecoded (60_exceptions.md R249; log 7). Step 2: a word that is no command raises `IllegalCmd` with the word in `ERRADDR`
(R241). Steps 3 to 7 are the instruction's own. -/
def onCmdWrite (bits : CmdWord) (s : State) : Host.Outcome State Fault Refusal :=
  if errField s.status ≠ 0 then
    if bits = 0x0000003F#32 then exec .clrerr s else .next s
  else
    match decode bits with
    | .ok i => exec i s
    | .error _ => .next (takeError { kind := .illegalCmd, info := 0, addr := bits } s)

/-- The reset event (70_reset_and_hazards.md R280): every register at its reset value; `M` and TBUF keep their content
(R281); what the host still has to do and has read is not the machine's (log 10). -/
def resetRegisters (s : State) : State := State.resetWith s.params s.mem s.tbuf s.inbox s.outbox

/-- One action of the host (70_reset_and_hazards.md R296). An access to words or cells that do not exist stops before
any effect, under the name of the first address past the end. DESIGN CHOICE (log 8): the spec gives such an access no
effect; and it says nothing of an access to zero words or cells whose start lies above MEM_WORDS or TBUF_CELLS, which
reaches none: the model stops there too, while one that starts at the end or below it is performed and does nothing. -/
def hostAct (a : HostAction) (s : State) : Host.Outcome State Fault Refusal :=
  match a with
  | .rd r => .next (withReply s (.reg (readReg s r)))
  | .wr r v => if r = cmdReg then onCmdWrite v s else .next (writeReg s r v)
  | .mr addr count =>
    if addr + count ≤ s.params.memWords then .next (withReply s (.words (Memory.readMany s.mem addr count)))
    else .fault (.noSuchWord (max addr s.params.memWords))
  | .mw addr ws =>
    if addr + ws.length ≤ s.params.memWords then .next (withMem s (Memory.writeMany s.mem addr ws))
    else .fault (.noSuchWord (max addr s.params.memWords))
  | .tr cell count =>
    if cell + count ≤ s.params.tbufCells then .next (withReply s (.cells (Memory.readMany s.tbuf cell count)))
    else .fault (.noSuchCell (max cell s.params.tbufCells))
  | .tw cell cs =>
    if cell + cs.length ≤ s.params.tbufCells then .next (withTbuf s (Memory.writeMany s.tbuf cell cs))
    else .fault (.noSuchCell (max cell s.params.tbufCells))
  | .reset => .next (resetRegisters s)

/-- The host's next action, if it has one; else TWC is idle, "it does nothing until the host writes `CMD`"
(70_reset_and_hazards.md R282). -/
def hostStep (s : State) : Host.Outcome State Fault Refusal :=
  match s.inbox with
  | [] => .next s
  | a :: rest => hostAct a (withInbox s rest)

/-- The host's next action is to write this command word to `CMD`. -/
def presentWord (s : State) (bits : CmdWord) : State := withInbox s (.wr cmdReg bits :: s.inbox)

/-- The pseudo-instruction `SPAN sp, b, l, o` (30_encoding.md R109). -/
def spanPseudo (sp : SpanSel) (b l o : RegVal) : List HostAction :=
  let first := match sp with
    | .s => 9
    | .x => 12
    | .y => 15
  [.wr first b, .wr (first + 1) l, .wr (first + 2) o]

/-- The pseudo-instruction `COUNT n` (30_encoding.md R109). -/
def countPseudo (n : RegVal) : List HostAction := [.wr 6 n]

end Sys2Proof.Machine
end

