-- ==== Sys2Proof/Machine/Step.lean ====
section
/-!
DEFINITION. One step of the machine: one action of the host. A command is one atomic step (spec 20_memory.md R89).
-/

namespace Sys2Proof.Machine

open Sys2Proof

/-- One step: the host's next action, performed to completion (70_reset_and_hazards.md R296, R297;
logs 9 and 11). -/
def step (s : State) : Host.Outcome State Fault Refusal := hostStep s

/-- `s` with the command word of a table row as the host's next action, so that the next step runs it (log 4). TWC
fetches nothing: "each arrives as a write to `CMD`" (10_state.md R43). -/
def State.withFetchWord (s : State) (nbits w : Nat) : State := presentWord s (tableWord nbits w)

end Sys2Proof.Machine
end

