-- ==== Sys2Proof/Safety.lean ====
section
/-!
DEFINITION. The words the statements use: what memory, cells and spans hold, the conditions under which a command runs,
what it leaves behind, and the invariant of the machine.
-/

namespace Sys2Proof.Machine

open Sys2Proof

/-! ### What storage holds -/

/-- The word of `M` at an address (spec 20_memory.md R79). -/
def memByte (s : State) (a : Nat) : MWord := Memory.read s.mem a

/-- The cell of TBUF at an index. -/
def cellCode (s : State) (c : Nat) : SymCode := Memory.read s.tbuf c

/-- The symbol at an absolute symbol address: word `j div SIZE`, index `j mod SIZE` (20_memory.md R73). -/
def symAt (s : State) (j : Nat) : Sym :=
  symAtIndex (dec s.params.enc (memByte s (j / s.params.enc.size))) (j % s.params.enc.size)

/-- `abs(sp)` of a span group (20_memory.md R73). -/
def absOf (s : State) (sp : SpanSel) : Nat := (operand s sp).abs s.params.enc

/-- `wa(sp, k)` of a span group (20_memory.md R73). -/
def wordOf (s : State) (sp : SpanSel) (k : Nat) : Nat := (operand s sp).wa s.params.enc k

/-- Symbol k of a span. -/
def spanSym (s : State) (sp : SpanSel) (k : Nat) : Sym := symAt s (absOf s sp + k)

/-- The count register as a number. -/
def countN (s : State) : Nat := s.n.toNat

/-! ### Conditions on a state -/

/-- No error is latched. -/
abbrev NoError (s : State) : Prop := errField s.status = 0

/-- The span holds at least n symbols inside its array, and the array lies inside `M` (20_memory.md R74). -/
abbrev SpanFits (s : State) (sp : SpanSel) (n : Nat) : Prop :=
  (spanRegs s sp).base.toNat + (spanRegs s sp).len.toNat ≤ s.params.memWords ∧
    (spanRegs s sp).off.toNat + n ≤ (spanRegs s sp).len.toNat * s.params.enc.size

/-- m cells from `TBOFF` lie inside TBUF (20_memory.md R74). -/
abbrev CellsFit (s : State) (m : Nat) : Prop := s.tboff.toNat + m ≤ s.params.tbufCells

/-- The first n symbols of two spans are disjoint (20_memory.md R77). -/
abbrev Apart (s : State) (a b : SpanSel) (n : Nat) : Prop :=
  absOf s a + n ≤ absOf s b ∨ absOf s b + n ≤ absOf s a

/-- Two spans name the same symbols (20_memory.md R77). -/
abbrev SameSymbols (s : State) (a b : SpanSel) : Prop := absOf s a = absOf s b

/-- The word at an address is the encoding of some symbol array (40_word_codec.md R130, R131). -/
abbrev LegalAt (s : State) (a : Nat) : Prop := legal s.params.enc (memByte s a) = true

/-- Every word that holds one of the first n symbols of a span is legal. -/
abbrev LegalSpan (s : State) (sp : SpanSel) (n : Nat) : Prop := ∀ k, k < n → LegalAt s (wordOf s sp k)

/-- The words that hold symbol k of two spans are both legal. -/
abbrev BothLegalAt (s : State) (a b : SpanSel) (k : Nat) : Prop :=
  LegalAt s (wordOf s a k) ∧ LegalAt s (wordOf s b k)

/-- All the symbols of the word that holds symbol k are among the first n of the span: it is a full word of
`Segments` (20_memory.md R83). -/
abbrev WordInside (s : State) (sp : SpanSel) (n k : Nat) : Prop :=
  (operand s sp).ix s.params.enc k ≤ k ∧ k - (operand s sp).ix s.params.enc k + s.params.enc.size ≤ n

/-- The lead and trail words of a span are legal. -/
abbrev LegalEdges (s : State) (sp : SpanSel) (n : Nat) : Prop :=
  ∀ k, k < n → WordInside s sp n k ∨ LegalAt s (wordOf s sp k)

/-- COPY and EQU take the fast path (41_bulk_span_ops.md R160). -/
abbrev SamePhase (s : State) (a b : SpanSel) : Prop :=
  (spanRegs s a).off.toNat % s.params.enc.size = (spanRegs s b).off.toNat % s.params.enc.size

/-- EQU finds symbol k equal: on the fast path the full words are compared as raw patterns, all other places symbol for
symbol (41_bulk_span_ops.md R165). -/
abbrev EqualAt (s : State) (a b : SpanSel) (n k : Nat) : Prop :=
  if SamePhase s a b ∧ WordInside s a n k then memByte s (wordOf s a k) = memByte s (wordOf s b k)
  else spanSym s a k = spanSym s b k

/-- Every word that COPY and EQU decode is legal: the edge words on the fast path, all words on the slow path. -/
abbrev LegalForPair (s : State) (a b : SpanSel) (n : Nat) : Prop :=
  (SamePhase s a b ∧ LegalEdges s a n ∧ LegalEdges s b n) ∨ (LegalSpan s a n ∧ LegalSpan s b n)

/-- The illegal symbol codes: 0b10 on either encoding, 0b11 on BIN8 (10_state.md R47). -/
abbrev IllegalCode (s : State) (c : SymCode) : Prop := c = 2 ∨ (c = 3 ∧ s.params.enc = .bin8)

/-- The code of cell `TBOFF + k` is a symbol of the encoding. -/
abbrev CellLegal (s : State) (k : Nat) : Prop := ¬IllegalCode s (cellCode s (s.tboff.toNat + k))

/-! ### What a command leaves behind -/

/-- The group a selector field names (30_encoding.md R102): 0 = S, 1 = X, 2 = Y. -/
def selNumber : SpanSel → Nat
  | .s => 0
  | .x => 1
  | .y => 2

/-- Every symbol of `M` outside the first n of the span is as before. -/
def OtherSymbolsKept (s t : State) (sp : SpanSel) (n : Nat) : Prop :=
  ∀ j, ¬(absOf s sp ≤ j ∧ j < absOf s sp + n) → symAt t j = symAt s j

/-- Every word of `M` that holds none of the first n symbols of the span is as before. -/
def OtherWordsKept (s t : State) (sp : SpanSel) (n : Nat) : Prop :=
  ∀ a, (∀ k, k < n → a ≠ wordOf s sp k) → memByte t a = memByte s a

/-- A command that goes through a span word by word stopped at the word of symbol j: every word of `M` is as before, but
the words written for the symbols of earlier words (60_exceptions.md R248). -/
def LaterWordsKept (s t : State) (written read : SpanSel) (n j : Nat) : Prop :=
  ∀ c, (∀ k, k < n → wordOf s read k < wordOf s read j → c ≠ wordOf s written k) → memByte t c = memByte s c

/-- The error registers hold this error, the other bits of `STATUS` as before (60_exceptions.md R247). -/
def ErrorLatched (s t : State) (code : BitVec 4) (info addr : RegVal) : Prop :=
  errField t.status = code ∧ t.status &&& 0xFFFFFF0F#32 = s.status &&& 0xFFFFFF0F#32 ∧ t.errInfo = info ∧
    t.errAddr = addr

/-- `ILLEGAL_WORD` is latched with the span and the address of the word that holds symbol k (60_exceptions.md R245). -/
abbrev IllegalWordLatched (s t : State) (sp : SpanSel) (k : Nat) : Prop :=
  ErrorLatched s t 5 (BitVec.ofNat 32 (selNumber sp)) (BitVec.ofNat 32 (wordOf s sp k))

/-- `ILLEGAL_WORD` is latched for the word that holds symbol k of the first span if that is illegal, else for that of the
second, which was read after it. -/
def FirstIllegalLatched (s t : State) (a b : SpanSel) (k : Nat) : Prop :=
  (¬LegalAt s (wordOf s a k) → IllegalWordLatched s t a k) ∧
    (LegalAt s (wordOf s a k) → IllegalWordLatched s t b k)

/-- Nothing but the error registers changed (60_exceptions.md R248). -/
def OnlyErrorRegs (s t : State) : Prop :=
  t = { s with status := t.status, errInfo := t.errInfo, errAddr := t.errAddr }

/-- Nothing but the error registers and `M` changed. -/
def OnlyErrorRegsAndMem (s t : State) : Prop :=
  t = { s with status := t.status, errInfo := t.errInfo, errAddr := t.errAddr, mem := t.mem }

/-! ### The feedback mixer's data flow (43_feedback_combinators.md R191 to R198) -/

/-- The data span, the output span, the output and the new state as functions of the data symbol and the state symbol. -/
structure MixShape where
  data : SpanSel
  out : SpanSel
  output : Enc → Sym → Sym → Sym
  newState : Enc → Sym → Sym → Sym

/-- y := x + s or x := y − s. -/
def mixShape (data out : SpanSel) (output newState : Enc → Sym → Sym → Sym) : Option MixShape :=
  some { data := data, out := out, output := output, newState := newState }

/-- The data symbol itself. -/
def dataSym (_ : Enc) (v _ : Sym) : Sym := v

/-- The shape of each combinator and of each encrypt and decrypt name (44_sponge_ops.md R216 to R223). -/
def mixOf : Instr → Option MixShape
  | .setxa => mixShape .x .y symAdd dataSym
  | .setxs => mixShape .y .x symSub symSub
  | .setya => mixShape .x .y symAdd symAdd
  | .setys => mixShape .y .x symSub dataSym
  | .setxam => mixShape .x .x symAdd dataSym
  | .setxsm => mixShape .x .x symSub symSub
  | .setyam => mixShape .x .x symAdd symAdd
  | .setysm => mixShape .x .x symSub dataSym
  | .encryptOw => mixShape .x .y symAdd dataSym
  | .decryptOw => mixShape .y .x symSub symSub
  | .encryptX => mixShape .x .y symAdd symAdd
  | .decryptX => mixShape .y .x symSub dataSym
  | .encryptOwM => mixShape .x .x symAdd dataSym
  | .decryptOwM => mixShape .x .x symSub symSub
  | .encryptXM => mixShape .x .x symAdd symAdd
  | .decryptXM => mixShape .x .x symSub dataSym
  | _ => none

/-- The spans of a combinator lie as 30_encoding.md R105 asks: inside their arrays, the state apart from both, data and
output identical or apart. -/
abbrev MixSpansFit (s : State) (data out : SpanSel) (n : Nat) : Prop :=
  SpanFits s .s n ∧ SpanFits s data n ∧ SpanFits s out n ∧ Apart s .s data n ∧ Apart s .s out n ∧
    (SameSymbols s data out ∨ Apart s data out n)

/-! ### Instructions of one shape -/

/-- COPY and the names that are a COPY (44_sponge_ops.md R210, R213), with source and destination. -/
abbrev IsCopy (i : Instr) (a b : SpanSel) : Prop :=
  i = .copy a b ∨ (i = .absorbOw ∧ a = .x ∧ b = .s) ∨ (i = .squeezeX ∧ a = .s ∧ b = .y)

/-- EQU and the name that is an EQU (44_sponge_ops.md R215). -/
abbrev IsEqu (i : Instr) (a b : SpanSel) : Prop := i = .equ a b ∨ (i = .squeezeeqX ∧ a = .s ∧ b = .x)

/-! ### What each command uses, as the table prints it (30_encoding.md R105) -/

/-- A row of the table of 30_encoding.md R105, column by column. It is written out here for the statements; `exec` runs
on a table of its own. -/
structure UseRow where
  counted : Bool
  spans : List SpanSel
  cells : CellUse
  mayBeIdentical : List (SpanSel × SpanSel)
  notChecked : List (SpanSel × SpanSel)

/-- The row of each command; an assembler name has the row of the command it expands to (R109). -/
def useRow : Instr → UseRow
  | .w2s => ⟨false, [], .oneWord, [], []⟩
  | .s2w => ⟨false, [], .oneWord, [], []⟩
  | .get a => ⟨false, [a], .none, [], []⟩
  | .put a _ => ⟨false, [a], .none, [], []⟩
  | .tosym a => ⟨true, [a], .counted, [], []⟩
  | .fromsym a => ⟨true, [a], .counted, [], []⟩
  | .copy a b => ⟨true, [a, b], .none, [(a, b)], []⟩
  | .fillz a => ⟨true, [a], .none, [], []⟩
  | .equ a b => ⟨true, [a, b], .none, [], [(a, b)]⟩
  | .add _ _ => ⟨false, [], .none, [], []⟩
  | .sub _ _ => ⟨false, [], .none, [], []⟩
  | .setxa => ⟨true, [.s, .x, .y], .none, [(.x, .y)], []⟩
  | .setxs => ⟨true, [.s, .x, .y], .none, [(.x, .y)], []⟩
  | .setya => ⟨true, [.s, .x, .y], .none, [(.x, .y)], []⟩
  | .setys => ⟨true, [.s, .x, .y], .none, [(.x, .y)], []⟩
  | .setxam => ⟨true, [.s, .x], .none, [], []⟩
  | .setxsm => ⟨true, [.s, .x], .none, [], []⟩
  | .setyam => ⟨true, [.s, .x], .none, [], []⟩
  | .setysm => ⟨true, [.s, .x], .none, [], []⟩
  | .adds => ⟨true, [.s, .x], .none, [], []⟩
  | .sqzow => ⟨true, [.s, .y], .none, [], []⟩
  | .sqeow => ⟨true, [.s, .x], .none, [], []⟩
  | .clrerr => ⟨false, [], .none, [], []⟩
  | .absorbOw => ⟨true, [.x, .s], .none, [(.x, .s)], []⟩
  | .absorbX => ⟨true, [.s, .x], .none, [], []⟩
  | .squeezeOw => ⟨true, [.s, .y], .none, [], []⟩
  | .squeezeX => ⟨true, [.s, .y], .none, [(.s, .y)], []⟩
  | .squeezeeqOw => ⟨true, [.s, .x], .none, [], []⟩
  | .squeezeeqX => ⟨true, [.s, .x], .none, [], [(.s, .x)]⟩
  | .encryptOw => ⟨true, [.s, .x, .y], .none, [(.x, .y)], []⟩
  | .encryptOwM => ⟨true, [.s, .x], .none, [], []⟩
  | .encryptX => ⟨true, [.s, .x, .y], .none, [(.x, .y)], []⟩
  | .encryptXM => ⟨true, [.s, .x], .none, [], []⟩
  | .decryptOw => ⟨true, [.s, .x, .y], .none, [(.x, .y)], []⟩
  | .decryptOwM => ⟨true, [.s, .x], .none, [], []⟩
  | .decryptX => ⟨true, [.s, .x, .y], .none, [(.x, .y)], []⟩
  | .decryptXM => ⟨true, [.s, .x], .none, [], []⟩

/-- "the count from `N`", else the fixed count 1. -/
def UseRow.count (r : UseRow) (s : State) : Nat := if r.counted then countN s else 1

/-- The number of TBUF cells used: none, SIZE, or N. -/
def UseRow.cellCount (r : UseRow) (s : State) : Nat :=
  match r.cells with
  | .none => 0
  | .oneWord => s.params.enc.size
  | .counted => countN s

/-- A pair of groups stands in a column, in either order. -/
abbrev PairListed (l : List (SpanSel × SpanSel)) (a b : SpanSel) : Prop := (a, b) ∈ l ∨ (b, a) ∈ l

/-- A pair of used groups lies as the overlap rule asks (20_memory.md R77, 30_encoding.md R105): disjoint, or identical
where the row allows it, or not checked at all. -/
abbrev PairAllowed (i : Instr) (s : State) (a b : SpanSel) : Prop :=
  Apart s a b (countN s) ∨ (PairListed (useRow i).mayBeIdentical a b ∧ SameSymbols s a b) ∨
    PairListed (useRow i).notChecked a b

/-! ### The invariant -/

/-- The always-zero fields of `STATUS` are zero and `ERR` is one of the six codes (10_state.md R37). -/
abbrev StatusOk (s : State) : Prop :=
  s.status &&& 0xFFFFFF0F#32 = 0 ∧ (errField s.status).toNat ≤ 5

/-- `ERRINFO` and `ERRADDR` hold what the latched error gives them (60_exceptions.md R241 to R245), and zero when there
is none (10_state.md R38, R39); `ILLEGAL_WORD` is never raised on BIN8 (60_exceptions.md R245). -/
abbrev ErrorRegsOk (s : State) : Prop :=
  (errField s.status = 0 ∧ s.errInfo = 0 ∧ s.errAddr = 0) ∨
  (errField s.status = 1 ∧ s.errInfo = 0) ∨
  (errField s.status = 2 ∧ s.errInfo = 0x10 ∧ s.errAddr.toNat ≤ 1) ∨
  (errField s.status = 2 ∧ s.errInfo = 3 ∧ s.errAddr.toNat < s.params.tbufCells) ∨
  (errField s.status = 3 ∧ s.errInfo.toNat ≤ 3 ∧ s.errAddr = 0) ∨
  (errField s.status = 4 ∧ (s.errInfo = 4 ∨ s.errInfo = 8 ∨ s.errInfo = 9) ∧ s.errAddr = 0) ∨
  (errField s.status = 5 ∧ s.params.enc = .ter5 ∧ s.errInfo.toNat ≤ 2 ∧ s.errAddr.toNat < s.params.memWords) ∨
  (errField s.status = 5 ∧ s.params.enc = .ter5 ∧ s.errInfo = 0x20 ∧ s.errAddr.toNat ≤ 0xFF)

/-- `RESULT` holds a symbol code of the encoding (10_state.md R40, R47); 0 and 1 are codes of both. -/
abbrev ResultOk (s : State) : Prop :=
  s.result.toNat < 4 ∧ uncode s.params.enc (s.result.setWidth 2) ≠ none

/-- `M` and TBUF are in canonical form and hold nothing outside their address ranges (10_state.md R45, R46). -/
abbrev StorageOk (s : State) : Prop :=
  Memory.wf s.mem = true ∧ Memory.below s.params.memWords s.mem = true ∧ Memory.wf s.tbuf = true ∧
    Memory.below s.params.tbufCells s.tbuf = true

/-- The invariant of the machine. -/
abbrev Inv (s : State) : Prop :=
  s.params.wf ∧ StorageOk s ∧ StatusOk s ∧ ErrorRegsOk s ∧ ResultOk s

/-! ### The command word, as the opcode map prints it (30_encoding.md R104) -/

/-- A row of the opcode map: match, mask, and which selectors it uses. -/
structure MapRow where
  mtch : CmdWord
  mask : CmdWord
  spa : Bool
  spb : Bool

/-- The row of each command in the table of 30_encoding.md R104; an assembler name has none of its own. -/
def mapRow : Instr → Option MapRow
  | .w2s => some ⟨0x00000001, 0xFFFFFFFF, false, false⟩
  | .s2w => some ⟨0x00000002, 0xFFFFFFFF, false, false⟩
  | .get _ => some ⟨0x00000003, 0xFFFFFF3F, true, false⟩
  | .put _ _ => some ⟨0x00000004, 0xFFFFF33F, true, false⟩
  | .tosym _ => some ⟨0x00000005, 0xFFFFFF3F, true, false⟩
  | .fromsym _ => some ⟨0x00000006, 0xFFFFFF3F, true, false⟩
  | .copy _ _ => some ⟨0x00000008, 0xFFFFFC3F, true, true⟩
  | .fillz _ => some ⟨0x00000009, 0xFFFFFF3F, true, false⟩
  | .equ _ _ => some ⟨0x0000000A, 0xFFFFFC3F, true, true⟩
  | .add _ _ => some ⟨0x00000010, 0xFFFFC3FF, false, false⟩
  | .sub _ _ => some ⟨0x00000011, 0xFFFFC3FF, false, false⟩
  | .setxa => some ⟨0x00000020, 0xFFFFFFFF, false, false⟩
  | .setxs => some ⟨0x00000021, 0xFFFFFFFF, false, false⟩
  | .setya => some ⟨0x00000022, 0xFFFFFFFF, false, false⟩
  | .setys => some ⟨0x00000023, 0xFFFFFFFF, false, false⟩
  | .setxam => some ⟨0x00000024, 0xFFFFFFFF, false, false⟩
  | .setxsm => some ⟨0x00000025, 0xFFFFFFFF, false, false⟩
  | .setyam => some ⟨0x00000026, 0xFFFFFFFF, false, false⟩
  | .setysm => some ⟨0x00000027, 0xFFFFFFFF, false, false⟩
  | .adds => some ⟨0x00000028, 0xFFFFFFFF, false, false⟩
  | .sqzow => some ⟨0x00000029, 0xFFFFFFFF, false, false⟩
  | .sqeow => some ⟨0x0000002A, 0xFFFFFFFF, false, false⟩
  | .clrerr => some ⟨0x0000003F, 0xFFFFFFFF, false, false⟩
  | _ => none

/-- The operand fields of a word hold the operands of the command (30_encoding.md R101, R102, R104): `spa` [7:6], `spb`
[9:8], `sym` [11:10], `sym2` [13:12]. -/
def operandFields : Instr → CmdWord → Prop
  | .get a, w => w.toNat / 64 % 4 = selNumber a
  | .put a v, w => w.toNat / 64 % 4 = selNumber a ∧ w.toNat / 1024 % 4 = v.toNat
  | .tosym a, w => w.toNat / 64 % 4 = selNumber a
  | .fromsym a, w => w.toNat / 64 % 4 = selNumber a
  | .copy a b, w => w.toNat / 64 % 4 = selNumber a ∧ w.toNat / 256 % 4 = selNumber b
  | .fillz a, w => w.toNat / 64 % 4 = selNumber a
  | .equ a b, w => w.toNat / 64 % 4 = selNumber a ∧ w.toNat / 256 % 4 = selNumber b
  | .add v u, w => w.toNat / 1024 % 4 = v.toNat ∧ w.toNat / 4096 % 4 = u.toNat
  | .sub v u, w => w.toNat / 1024 % 4 = v.toNat ∧ w.toNat / 4096 % 4 = u.toNat
  | _, _ => True

/-- A word selects a row: "`bits AND mask = match` and no used selector field holds 3". -/
def MapRow.selects (r : MapRow) (w : CmdWord) : Prop :=
  w &&& r.mask = r.mtch ∧ (r.spa = true → w.toNat / 64 % 4 ≠ 3) ∧ (r.spb = true → w.toNat / 256 % 4 ≠ 3)

/-! ### Which immediates are legal, and which register a command writes -/

/-- The symbol immediates a command uses are symbols of the encoding (30_encoding.md R103). -/
def ImmediatesLegal (s : State) : Instr → Prop
  | .put _ v => ¬IllegalCode s v
  | .add v u => ¬IllegalCode s v ∧ ¬IllegalCode s u
  | .sub v u => ¬IllegalCode s v ∧ ¬IllegalCode s u
  | _ => True

/-- The commands that write `RESULT` (10_state.md R40) and the names that expand to them. -/
def writesResult : Instr → Bool
  | .get _ => true
  | .equ _ _ => true
  | .sqeow => true
  | .add _ _ => true
  | .sub _ _ => true
  | .squeezeeqOw => true
  | .squeezeeqX => true
  | _ => false

/-- The commands that write TBUF (10_state.md R49). -/
def writesCells : Instr → Bool
  | .w2s => true
  | .tosym _ => true
  | _ => false

/-- The span groups whose words a command writes (10_state.md R49). -/
def writtenSpans : Instr → List SpanSel
  | .put a _ => [a]
  | .fromsym a => [a]
  | .copy _ b => [b]
  | .fillz a => [a]
  | .setxa => [.y, .s]
  | .setxs => [.x, .s]
  | .setya => [.y, .s]
  | .setys => [.x, .s]
  | .setxam => [.x, .s]
  | .setxsm => [.x, .s]
  | .setyam => [.x, .s]
  | .setysm => [.x, .s]
  | .adds => [.s]
  | .sqzow => [.y, .s]
  | .sqeow => [.s]
  | .absorbOw => [.s]
  | .absorbX => [.s]
  | .squeezeOw => [.y, .s]
  | .squeezeX => [.y]
  | .squeezeeqOw => [.s]
  | .encryptOw => [.y, .s]
  | .encryptOwM => [.x, .s]
  | .encryptX => [.y, .s]
  | .encryptXM => [.x, .s]
  | .decryptOw => [.x, .s]
  | .decryptOwM => [.x, .s]
  | .decryptX => [.x, .s]
  | .decryptXM => [.x, .s]
  | _ => []

/-- The words of the array of a span group, `BASE .. BASE + LEN − 1` (20_memory.md R87). -/
abbrev InArray (s : State) (sp : SpanSel) (a : Nat) : Prop :=
  (spanRegs s sp).base.toNat ≤ a ∧ a < (spanRegs s sp).base.toNat + (spanRegs s sp).len.toNat

end Sys2Proof.Machine
end

