-- ==== Sys2Proof/Certificates/Slice0/Obligations.lean ====
section
/-!
DEFINITION. The statements about TWC for the provers. Each docstring names the rules of spec/ it formalises.
-/

open Sys2Proof Sys2Proof.Machine

/-! ### Decoding and encoding (30_encoding.md) -/

/-- R101, R104, R106, R109: the decoder reads an instruction's own word back, with every operand; an assembler name's
word is the word of its expansion. -/
def Obligations.DecodeUndoesEncode : Prop :=
  ∀ i : Instr, decode (encode i) = .ok i.expand ∧ (i.wf = true → decode (encode i) = .ok i)

/-- R101, R106: no bit of a command word is dropped: a word that decodes is the encoding of what it decodes to, and that
is one of the 23 commands. -/
def Obligations.EncodeUndoesDecode : Prop :=
  ∀ (w : CmdWord) (i : Instr), decode w = .ok i → i.wf = true ∧ encode i = w

/-- R104: a word is a command iff masked it is the command's match word and no used selector field holds 3; R102 and R103
give its operands. -/
def Obligations.DecodeAgreesWithOpcodeMap : Prop :=
  ∀ (w : CmdWord) (i : Instr),
    decode w = .ok i ↔ ∃ r, mapRow i = some r ∧ r.selects w ∧ operandFields i w

/-- V8.1 of 95_test_vectors.md: a few words and what they decode as. -/
def Obligations.SampleWordsDecode : Prop :=
  decode 0x00000001#32 = .ok .w2s ∧ decode 0x00000043#32 = .ok (.get .x) ∧
    decode 0x00000084#32 = .ok (.put .y 0) ∧ decode 0x00000C04#32 = .ok (.put .s 3) ∧
    decode 0x00000086#32 = .ok (.fromsym .y) ∧ decode 0x00000048#32 = .ok (.copy .x .s) ∧
    decode 0x0000010A#32 = .ok (.equ .s .x) ∧ decode 0x00003410#32 = .ok (.add 1 3) ∧
    decode 0x00001C11#32 = .ok (.sub 3 1) ∧ decode 0x00000027#32 = .ok .setysm ∧
    decode 0x0000002A#32 = .ok .sqeow ∧ decode 0x0000003F#32 = .ok .clrerr

/-! ### A step (30_encoding.md R111; 70_reset_and_hazards.md R282, R296) -/

/-- R111 steps 1 and 2: with no error latched, the write of a word that decodes to an instruction is that instruction's
execution; `withFetchWord` presents such a word. R282: with no action of the host TWC is idle. -/
def Obligations.StepRunsDecodedInstruction : Prop :=
  (∀ (s : State) (rest : List HostAction) (w : CmdWord) (i : Instr),
    s.inbox = .wr 5 w :: rest → NoError s → decode w = .ok i → step s = exec i (withInbox s rest)) ∧
  (∀ (s : State) (nbits w : Nat) (i : Instr),
    NoError s → decodeTableWord nbits w = some i → step (s.withFetchWord nbits w) = exec i s) ∧
  (∀ s : State, s.inbox = [] → step s = .next s)

/-- R106, R241: with no error latched, a word that no row of the opcode map selects raises `IllegalCmd`: code 1, `ERRINFO`
0, `ERRADDR` the word, and nothing else changes. -/
def Obligations.NonCommandWordRaisesIllegalCmd : Prop :=
  ∀ (s : State) (rest : List HostAction) (w : CmdWord),
    s.inbox = .wr 5 w :: rest → NoError s → (∀ i r, mapRow i = some r → ¬r.selects w) →
    ∃ t, step s = .next t ∧ ErrorLatched s t 1 0 w ∧ OnlyErrorRegs (withInbox s rest) t

/-- R249: while an error is latched every write to `CMD` but 0x0000003F is dropped: it changes no state and raises nothing;
register writes and host accesses to `M` and TBUF do what they do with any other content of the error registers. -/
def Obligations.LatchedErrorDropsCommands : Prop :=
  (∀ (s : State) (rest : List HostAction) (w : CmdWord),
    s.inbox = .wr 5 w :: rest → ¬NoError s → w ≠ 0x0000003F#32 → step s = .next (withInbox s rest)) ∧
  (∀ (s t : State) (a : HostAction) (rest : List HostAction) (st ei ea : RegVal),
    s.inbox = a :: rest →
    ((∃ r v, a = .wr r v ∧ r ≠ 5) ∨ (∃ addr count, a = .mr addr count) ∨ (∃ addr ws, a = .mw addr ws) ∨
      (∃ c count, a = .tr c count) ∨ (∃ c cs, a = .tw c cs)) →
    step s = .next t →
    step { s with status := st, errInfo := ei, errAddr := ea } =
      .next { t with status := st, errInfo := ei, errAddr := ea })

/-- R250: CLRERR, the word 0x0000003F and no other, clears `STATUS.ERR`, `ERRINFO` and `ERRADDR` and nothing else, always
completes, and is the command that runs while an error is latched; with these registers clear it changes nothing. -/
def Obligations.ClrerrClearsErrorRegs : Prop :=
  (∀ w : CmdWord, decode w = .ok .clrerr ↔ w = 0x0000003F#32) ∧
  (∀ s : State, NoError s → s.errInfo = 0 → s.errAddr = 0 → exec .clrerr s = .next s) ∧
  (∀ s : State, ∃ t, exec .clrerr s = .next t ∧ ErrorLatched s t 0 0 0 ∧ OnlyErrorRegs s t) ∧
  (∀ (s : State) (rest : List HostAction),
    s.inbox = .wr 5 0x0000003F#32 :: rest → step s = exec .clrerr (withInbox s rest))

/-- R31, R35, R42, R296: a host write to a register other than `CMD` stores into registers 6 to 17 (`WDATA` bits [7:0]
only) and is ignored elsewhere; no other register, no word and no cell changes. -/
def Obligations.HostRegisterWrite : Prop :=
  ∀ (s : State) (rest : List HostAction) (r : Nat) (v : RegVal),
    s.inbox = .wr r v :: rest → r ≠ 5 →
    ∃ t, step s = .next t ∧ t.inbox = rest ∧ t.outbox = s.outbox ∧ t.params = s.params ∧ t.mem = s.mem ∧
      t.tbuf = s.tbuf ∧
      ∀ q, readReg t q =
        if q = r ∧ 6 ≤ r ∧ r ≤ 17 then (if r = 8 then v &&& 0xFF#32 else v) else readReg s q

/-- R31, R36, R41, R42, R296: a host read returns the register's value: `CFG` hard-wired, `CMD` 0, numbers 18 and up 0, the
others what they hold; it has no side effect. -/
def Obligations.HostRegisterRead : Prop :=
  ∀ (s : State) (rest : List HostAction) (r : Nat),
    s.inbox = .rd r :: rest →
    ∃ v, step s = .next { s with inbox := rest, outbox := s.outbox ++ [.reg v] } ∧
      (r = 0 → v = match s.params.enc with
        | .bin8 => 0x00008080#32
        | .ter5 => 0x00008051#32) ∧
      (r = 1 → v = s.status) ∧ (r = 2 → v = s.errInfo) ∧ (r = 3 → v = s.errAddr) ∧ (r = 4 → v = s.result) ∧
      (r = 5 → v = 0) ∧ (r = 6 → v = s.n) ∧ (r = 7 → v = s.tboff) ∧ (r = 8 → v.toNat = s.wdata.toNat) ∧
      (r = 9 → v = s.spanS.base) ∧ (r = 10 → v = s.spanS.len) ∧ (r = 11 → v = s.spanS.off) ∧
      (r = 12 → v = s.spanX.base) ∧ (r = 13 → v = s.spanX.len) ∧ (r = 14 → v = s.spanX.off) ∧
      (r = 15 → v = s.spanY.base) ∧ (r = 16 → v = s.spanY.len) ∧ (r = 17 → v = s.spanY.off) ∧
      (18 ≤ r → v = 0)

/-- R79, R296: a host write of words or cells inside the address range changes exactly these. -/
def Obligations.HostStorageWrite : Prop :=
  (∀ (s : State) (rest : List HostAction) (addr : Nat) (ws : List MWord),
    s.inbox = .mw addr ws :: rest → addr + ws.length ≤ s.params.memWords →
    ∃ t, step s = .next t ∧ t = { s with inbox := rest, mem := t.mem } ∧
      ∀ a, memByte t a = if addr ≤ a ∧ a < addr + ws.length then ws.getD (a - addr) 0 else memByte s a) ∧
  (∀ (s : State) (rest : List HostAction) (c : Nat) (cs : List SymCode),
    s.inbox = .tw c cs :: rest → c + cs.length ≤ s.params.tbufCells →
    ∃ t, step s = .next t ∧ t = { s with inbox := rest, tbuf := t.tbuf } ∧
      ∀ a, cellCode t a = if c ≤ a ∧ a < c + cs.length then cs.getD (a - c) 0 else cellCode s a)

/-- R79, R296: a host read of words or cells inside the address range returns what they hold and changes nothing. -/
def Obligations.HostStorageRead : Prop :=
  (∀ (s : State) (rest : List HostAction) (addr count : Nat),
    s.inbox = .mr addr count :: rest → addr + count ≤ s.params.memWords →
    step s = .next
      { s with
        inbox := rest
        outbox := s.outbox ++ [.words ((List.range count).map fun j => memByte s (addr + j))] }) ∧
  (∀ (s : State) (rest : List HostAction) (c count : Nat),
    s.inbox = .tr c count :: rest → c + count ≤ s.params.tbufCells →
    step s = .next
      { s with
        inbox := rest
        outbox := s.outbox ++ [.cells ((List.range count).map fun j => cellCode s (c + j))] })

/-- The model's choice (log 8): a step faults exactly when the host's access reaches past the end of `M` or TBUF, or is of
zero words or cells and starts above that end; and it never refuses. -/
def Obligations.OnlyHostAccessPastTheEndFaults : Prop :=
  ∀ s : State, (∀ r, step s ≠ .refused r) ∧
    ((∃ f, step s = .fault f) ↔
      ((∃ addr count rest, s.inbox = .mr addr count :: rest ∧ s.params.memWords < addr + count) ∨
       (∃ addr ws rest, s.inbox = .mw addr ws :: rest ∧ s.params.memWords < addr + ws.length) ∨
       (∃ c count rest, s.inbox = .tr c count :: rest ∧ s.params.tbufCells < c + count) ∨
       (∃ c cs rest, s.inbox = .tw c cs :: rest ∧ s.params.tbufCells < c + cs.length)))

/-- R280, R281: reset gives every register its reset value and leaves `M` and TBUF as they were. -/
def Obligations.ResetClearsRegistersOnly : Prop :=
  ∀ (s : State) (rest : List HostAction), s.inbox = .reset :: rest →
    ∃ t, step s = .next t ∧ t.mem = s.mem ∧ t.tbuf = s.tbuf ∧ t.params = s.params ∧ t.inbox = rest ∧
      t.outbox = s.outbox ∧ readReg t 0 = readReg s 0 ∧ ∀ r, 1 ≤ r → readReg t r = 0

/-! ### The invariant, and that every command completes -/

/-- The invariant holds after reset, for every build within its ranges, every content of `M` and TBUF (R281: "A model
takes the initial `M` and TBUF as inputs") and every list of the host's; `State.reset` is one of these. -/
def Obligations.ResetMeetsInvariant : Prop :=
  Inv State.reset ∧
    ∀ (p : Params) (mem : Memory 8) (tbuf : Memory 2) (inbox : List HostAction) (outbox : List HostReply), p.wf →
      Memory.wf mem = true → Memory.below p.memWords mem = true → Memory.wf tbuf = true →
      Memory.below p.tbufCells tbuf = true → Inv (State.resetWith p mem tbuf inbox outbox)

/-- R37, R38, R39, R40, R45, R46, R245: every step keeps the invariant, from every state that has it: storage stays
canonical and inside its range, the always-zero fields of `STATUS` stay zero, the error registers hold what the latched
error gives them, `RESULT` holds a symbol code of the encoding. -/
def Obligations.StepKeepsInvariant : Prop :=
  ∀ s t : State, Inv s → step s = .next t → Inv t

/-- R75, R87, R256: no command reaches a word or cell that does not exist: every instruction answers a next state, from
every state, with any operands. -/
def Obligations.EveryInstructionAnswersNext : Prop :=
  ∀ (i : Instr) (s : State), ∃ t, exec i s = .next t

/-! ### What commands leave alone (10_state.md R49; 60_exceptions.md R247, R248) -/

/-- R49: "No command writes `N`, `TBOFF` or a span register"; nor does one change the parameters or the host's lists. -/
def Obligations.CommandsKeepOperandRegisters : Prop :=
  ∀ (i : Instr) (s t : State), exec i s = .next t →
    t.n = s.n ∧ t.tboff = s.tboff ∧ t.spanS = s.spanS ∧ t.spanX = s.spanX ∧ t.spanY = s.spanY ∧
      t.params = s.params ∧ t.inbox = s.inbox ∧ t.outbox = s.outbox

/-- R31, R40, R49: only GET, EQU, SQEOW, ADD, SUB write `RESULT`; only S2W writes `WDATA`; only W2S and TOSYM write TBUF. -/
def Obligations.OnlyNamedCommandsWriteResultWdataTbuf : Prop :=
  ∀ (i : Instr) (s t : State), exec i s = .next t →
    (writesResult i = false → t.result = s.result) ∧ (i ≠ .s2w → t.wdata = s.wdata) ∧
      (writesCells i = false → t.tbuf = s.tbuf)

/-- R87, R49: a command changes no word of `M` outside the arrays of the spans it writes. -/
def Obligations.CommandsConfinedToWrittenSpans : Prop :=
  ∀ (i : Instr) (s t : State), exec i s = .next t →
    ∀ a, (∀ sp ∈ writtenSpans i, ¬InArray s sp a) → memByte t a = memByte s a

/-- R49, R84, R87: what a command does is decided by its registers, its cells and the words inside the arrays of the
spans it uses: memory outside them cannot be seen. -/
def Obligations.CommandsSeeOnlyTheirSpans : Prop :=
  ∀ (i : Instr) (s s' t : State),
    s' = { s with mem := s'.mem } →
    (∀ sp ∈ (useRow i).spans, ∀ a, InArray s sp a → memByte s' a = memByte s a) →
    exec i s = .next t →
    ∃ t', exec i s' = .next t' ∧ t' = { t with mem := t'.mem } ∧
      ∀ sp ∈ (useRow i).spans, ∀ a, InArray s sp a → memByte t' a = memByte t a

/-- R247: a command that ends in an error leaves `RESULT` and `WDATA` as they were. -/
def Obligations.ErrorKeepsResultAndWdata : Prop :=
  ∀ (i : Instr) (s t : State), NoError s → exec i s = .next t → ¬NoError t →
    t.result = s.result ∧ t.wdata = s.wdata

/-- R240, R248: a precise error (`BOUNDS`, `OVERLAP`, `ILLEGAL_SYMBOL` from an immediate) changes nothing but the error
registers. -/
def Obligations.PreciseErrorsChangeNothingElse : Prop :=
  ∀ (i : Instr) (s t : State), NoError s → exec i s = .next t →
    (errField t.status = 3 ∨ errField t.status = 4 ∨ (errField t.status = 2 ∧ t.errInfo = 0x10)) →
    OnlyErrorRegs s t

/-- R111: a command that completes without an error leaves `STATUS`, `ERRINFO` and `ERRADDR` unchanged. -/
def Obligations.SuccessLeavesErrorRegs : Prop :=
  ∀ (i : Instr) (s t : State), i ≠ .clrerr → NoError s → exec i s = .next t → NoError t →
    t.status = s.status ∧ t.errInfo = s.errInfo ∧ t.errAddr = s.errAddr

/-! ### The frame (30_encoding.md R111; 20_memory.md R76; 60_exceptions.md R242 to R246) -/

/-- R76: a counted command with `N` = 0 raises nothing and changes nothing, whatever its spans hold, but that EQU and SQEOW
write `RESULT` = 1; a word that is no command raises `IllegalCmd` even so. -/
def Obligations.ZeroLengthIsNoOp : Prop :=
  (∀ (i : Instr) (s : State), (useRow i).counted = true → s.n = 0 →
    exec i s = .next (if writesResult i = true then { s with result := 1 } else s)) ∧
  (∀ (s : State) (rest : List HostAction) (w : CmdWord), s.inbox = .wr 5 w :: rest → NoError s → s.n = 0 →
    (∀ i, decode w ≠ .ok i) → ∃ t, step s = .next t ∧ ErrorLatched s t 1 0 w)

/-- R242 (a), R246: an illegal symbol immediate of PUT, ADD or SUB raises `IllegalSymbol`, `sym` before `sym2`, before any
other check. -/
def Obligations.IllegalImmediateRaises : Prop :=
  (∀ (s : State) (a : SpanSel) (v : SymCode), IllegalCode s v →
    ∃ t, exec (.put a v) s = .next t ∧ ErrorLatched s t 2 0x10 0 ∧ OnlyErrorRegs s t) ∧
  (∀ (s : State) (v u : SymCode) (i : Instr), (i = .add v u ∨ i = .sub v u) →
    (IllegalCode s v → ∃ t, exec i s = .next t ∧ ErrorLatched s t 2 0x10 0 ∧ OnlyErrorRegs s t) ∧
    (¬IllegalCode s v → IllegalCode s u →
      ∃ t, exec i s = .next t ∧ ErrorLatched s t 2 0x10 1 ∧ OnlyErrorRegs s t))

/-- R243, R246: with the immediates legal and no zero length, the first span in the order S, X, Y that does not fit, else
TBUF, raises `Bounds`; only the error registers change. -/
def Obligations.BoundsErrorInOrder : Prop :=
  ∀ (i : Instr) (s : State), ImmediatesLegal s i → ((useRow i).counted = true → s.n ≠ 0) →
    (∀ sp ∈ (useRow i).spans, ¬SpanFits s sp ((useRow i).count s) →
      (∀ sp' ∈ (useRow i).spans, selNumber sp' < selNumber sp → SpanFits s sp' ((useRow i).count s)) →
      ∃ t, exec i s = .next t ∧ ErrorLatched s t 3 (BitVec.ofNat 32 (selNumber sp)) 0 ∧ OnlyErrorRegs s t) ∧
    ((useRow i).cells ≠ .none → ¬CellsFit s ((useRow i).cellCount s) →
      (∀ sp ∈ (useRow i).spans, SpanFits s sp ((useRow i).count s)) →
      ∃ t, exec i s = .next t ∧ ErrorLatched s t 3 3 0 ∧ OnlyErrorRegs s t)

/-- R244, R246: with the bounds good, the first pair in the order (S,X), (S,Y), (X,Y) that the overlap rule refuses raises
`Overlap` with that pair in `ERRINFO`; only the error registers change. -/
def Obligations.OverlapErrorInOrder : Prop :=
  ∀ (i : Instr) (s : State), (useRow i).counted = true → s.n ≠ 0 →
    (∀ sp ∈ (useRow i).spans, SpanFits s sp (countN s)) →
    ((useRow i).cells ≠ .none → CellsFit s ((useRow i).cellCount s)) →
    (.s ∈ (useRow i).spans → .x ∈ (useRow i).spans → ¬PairAllowed i s .s .x →
      ∃ t, exec i s = .next t ∧ ErrorLatched s t 4 0x4 0 ∧ OnlyErrorRegs s t) ∧
    (.s ∈ (useRow i).spans → .y ∈ (useRow i).spans → ¬PairAllowed i s .s .y →
      (.x ∈ (useRow i).spans → PairAllowed i s .s .x) →
      ∃ t, exec i s = .next t ∧ ErrorLatched s t 4 0x8 0 ∧ OnlyErrorRegs s t) ∧
    (.x ∈ (useRow i).spans → .y ∈ (useRow i).spans → ¬PairAllowed i s .x .y →
      (.s ∈ (useRow i).spans → PairAllowed i s .s .x ∧ PairAllowed i s .s .y) →
      ∃ t, exec i s = .next t ∧ ErrorLatched s t 4 0x9 0 ∧ OnlyErrorRegs s t)

/-! ### The codec and the algebra (10_state.md R47; 40_word_codec.md R130 to R133; 42_symbol_arithmetic.md R180 to R182) -/

/-- R132: decoding and encoding undo each other on legal words and on symbol arrays of length SIZE; replacing one symbol of
a legal word changes no other. -/
def Obligations.CodecRoundTrip : Prop :=
  ∀ e : Enc,
    (∀ w : MWord, legal e w = true →
      enc e (dec e w) = w ∧ (dec e w).length = e.size ∧ ∀ v ∈ dec e w, inAlphabet e v = true) ∧
    (∀ a : List Sym, a.length = e.size → (∀ v ∈ a, inAlphabet e v = true) →
      legal e (enc e a) = true ∧ dec e (enc e a) = a) ∧
    (∀ (w : MWord) (i j : Nat) (v : Sym), legal e w = true → i < e.size → inAlphabet e v = true →
      symAtIndex (dec e (enc e ((dec e w).set i v))) j = if j = i then v else symAtIndex (dec e w) j)

/-- R130, R131: symbol i of a BIN8 word is its bit i; a legal TER5 word, as a two's complement number, is the sum of its
trits with weights 3^i, and the legal words are those from −121 to 121. -/
def Obligations.WordsHoldTheirPlaceValues : Prop :=
  (∀ (w : MWord) (i : Nat), i < 8 → symAtIndex (dec .bin8 w) i = (if w.getLsbD i then .pos else .zero)) ∧
  (∀ w : MWord, (legal .ter5 w = true ↔ -121 ≤ w.toInt ∧ w.toInt ≤ 121) ∧
    (legal .ter5 w = true → w.toInt =
      (symAtIndex (dec .ter5 w) 0).toInt + 3 * (symAtIndex (dec .ter5 w) 1).toInt +
        9 * (symAtIndex (dec .ter5 w) 2).toInt + 27 * (symAtIndex (dec .ter5 w) 3).toInt +
        81 * (symAtIndex (dec .ter5 w) 4).toInt))

/-- R182: over the symbols of an alphabet sub undoes add and add undoes sub, add is commutative and associative, the zero
symbol is neutral, x − x is zero; on BIN8 sub is add and adding twice is the identity; on TER5 adding three times is, and
adding twice is not unless the symbol is zero. R180, R181: the results are congruent to the sum and the difference modulo
2 and modulo 3 and are symbols again. -/
def Obligations.SymbolAlgebraLaws : Prop :=
  ∀ (e : Enc) (x y z : Sym), inAlphabet e x = true → inAlphabet e y = true → inAlphabet e z = true →
    let m : Int := match e with
      | .bin8 => 2
      | .ter5 => 3
    inAlphabet e (symAdd e x y) = true ∧ inAlphabet e (symSub e x y) = true ∧
      ((symAdd e x y).toInt - (x.toInt + y.toInt)) % m = 0 ∧
      ((symSub e x y).toInt - (x.toInt - y.toInt)) % m = 0 ∧
      symSub e (symAdd e x y) y = x ∧ symAdd e (symSub e x y) y = x ∧ symAdd e x y = symAdd e y x ∧
      symAdd e (symAdd e x y) z = symAdd e x (symAdd e y z) ∧ symAdd e x .zero = x ∧ symSub e x .zero = x ∧
      symSub e x x = .zero ∧
      (e = .bin8 → symSub e x y = symAdd e x y ∧ symAdd e (symAdd e x y) y = x) ∧
      (e = .ter5 → (symAdd e x y).toInt = (x.toInt + y.toInt + 1) % 3 - 1 ∧
        (symSub e x y).toInt = (x.toInt - y.toInt + 1) % 3 - 1 ∧
        symAdd e (symAdd e (symAdd e x y) y) y = x ∧ (symAdd e (symAdd e x y) y = x ↔ y = .zero))

/-- R47: the symbol codes of both encodings, the illegal ones, and that the TER5 codes are the two's complement of the
trit. -/
def Obligations.SymbolCodesAreTheTable : Prop :=
  ∀ e : Enc, uncode e 0 = some .zero ∧ uncode e 1 = some .pos ∧ uncode e 2 = none ∧
    uncode .bin8 3 = none ∧ uncode .ter5 3 = some .neg ∧
    (∀ v, inAlphabet e v = true → uncode e (symCode v) = some v) ∧
    (e = .ter5 → ∀ v : Sym, (symCode v).toInt = v.toInt)

/-! ### Word codec and symbol access (40_word_codec.md) -/

/-- R135: W2S writes the codes of the symbols of `WDATA` to SIZE cells from `TBOFF` and changes nothing else; on an illegal
pattern it raises `IllegalWord` with `WD` set and the pattern, before any cell is written. -/
def Obligations.W2sWritesCells : Prop :=
  ∀ s : State, CellsFit s s.params.enc.size →
    (legal s.params.enc s.wdata = true →
      ∃ t, exec .w2s s = .next t ∧ t = withTbuf s t.tbuf ∧
        (∀ k, k < s.params.enc.size →
          cellCode t (s.tboff.toNat + k) = symCode (symAtIndex (dec s.params.enc s.wdata) k)) ∧
        ∀ c, ¬(s.tboff.toNat ≤ c ∧ c < s.tboff.toNat + s.params.enc.size) → cellCode t c = cellCode s c) ∧
    (legal s.params.enc s.wdata = false →
      ∃ t, exec .w2s s = .next t ∧ ErrorLatched s t 5 0x20 (BitVec.ofNat 32 s.wdata.toNat) ∧ OnlyErrorRegs s t)

/-- R136: S2W gives `WDATA` the word whose symbols are those of the SIZE cells from `TBOFF` and changes nothing else; the
lowest-numbered cell with an illegal code raises `IllegalSymbol` with its index, `WDATA` then unchanged. -/
def Obligations.S2wReadsCells : Prop :=
  ∀ s : State, CellsFit s s.params.enc.size →
    ((∀ k, k < s.params.enc.size → CellLegal s k) →
      ∃ t, exec .s2w s = .next t ∧ t = withWdata s t.wdata ∧ legal s.params.enc t.wdata = true ∧
        ∀ k, k < s.params.enc.size →
          uncode s.params.enc (cellCode s (s.tboff.toNat + k)) =
            some (symAtIndex (dec s.params.enc t.wdata) k)) ∧
    (∀ j, j < s.params.enc.size → ¬CellLegal s j → (∀ k, k < j → CellLegal s k) →
      ∃ t, exec .s2w s = .next t ∧ ErrorLatched s t 2 3 (BitVec.ofNat 32 (s.tboff.toNat + j)) ∧
        OnlyErrorRegs s t)

/-- R137: GET writes the code of symbol 0 of the span to `RESULT` and changes nothing else. -/
def Obligations.GetReadsOneSymbol : Prop :=
  ∀ (s : State) (a : SpanSel), SpanFits s a 1 → LegalAt s (wordOf s a 0) →
    exec (.get a) s = .next { s with result := BitVec.ofNat 32 (symCode (spanSym s a 0)).toNat }

/-- R138: PUT replaces symbol 0 of the span, keeps the other symbols of its word and every other word, and changes nothing
else. -/
def Obligations.PutWritesOneSymbol : Prop :=
  ∀ (s : State) (a : SpanSel) (v : SymCode) (x : Sym), uncode s.params.enc v = some x → SpanFits s a 1 →
    LegalAt s (wordOf s a 0) →
    ∃ t, exec (.put a v) s = .next t ∧ spanSym t a 0 = x ∧ OtherSymbolsKept s t a 1 ∧ OtherWordsKept s t a 1 ∧
      t = withMem s t.mem

/-- R137, R138, R245: GET and PUT on an illegal word raise `IllegalWord` with the span's code and the word's address and
change nothing else. -/
def Obligations.GetPutIllegalWord : Prop :=
  ∀ (s : State) (a : SpanSel) (i : Instr),
    (i = .get a ∨ ∃ v, i = .put a v ∧ ¬IllegalCode s v) → SpanFits s a 1 → ¬LegalAt s (wordOf s a 0) →
    ∃ t, exec i s = .next t ∧
      IllegalWordLatched s t a 0 ∧ OnlyErrorRegs s t

/-- R139: after TOSYM cell `TBOFF + k` holds the code of symbol k of the span, for 0 ≤ k < N; nothing else changes. -/
def Obligations.TosymMaterializesSpan : Prop :=
  ∀ (s : State) (a : SpanSel), s.n ≠ 0 → SpanFits s a (countN s) → CellsFit s (countN s) →
    LegalSpan s a (countN s) →
    ∃ t, exec (.tosym a) s = .next t ∧ t = withTbuf s t.tbuf ∧
      (∀ k, k < countN s → cellCode t (s.tboff.toNat + k) = symCode (spanSym s a k)) ∧
      ∀ c, ¬(s.tboff.toNat ≤ c ∧ c < s.tboff.toNat + countN s) → cellCode t c = cellCode s c

/-- R139, R248: TOSYM stops at the first illegal word: the cells for all earlier words are written, those for that word and
later words are not. -/
def Obligations.TosymStopsAtIllegalWord : Prop :=
  ∀ (s : State) (a : SpanSel) (j : Nat), s.n ≠ 0 → SpanFits s a (countN s) → CellsFit s (countN s) →
    j < countN s → ¬LegalAt s (wordOf s a j) →
    (∀ k, k < countN s → wordOf s a k < wordOf s a j → LegalAt s (wordOf s a k)) →
    ∃ t, exec (.tosym a) s = .next t ∧
      IllegalWordLatched s t a j ∧ t.mem = s.mem ∧
      (∀ k, k < countN s → wordOf s a k < wordOf s a j →
        cellCode t (s.tboff.toNat + k) = symCode (spanSym s a k)) ∧
      ∀ c, (∀ k, k < countN s → wordOf s a k < wordOf s a j → c ≠ s.tboff.toNat + k) →
        cellCode t c = cellCode s c

/-- R140: after FROMSYM symbol k of the span is the symbol of cell `TBOFF + k`, for 0 ≤ k < N; symbols outside the range
keep their values; nothing else changes. -/
def Obligations.FromsymWritesSpan : Prop :=
  ∀ (s : State) (a : SpanSel), s.n ≠ 0 → SpanFits s a (countN s) → CellsFit s (countN s) →
    LegalSpan s a (countN s) → (∀ k, k < countN s → CellLegal s k) →
    ∃ t, exec (.fromsym a) s = .next t ∧ t = withMem s t.mem ∧
      (∀ k, k < countN s →
        uncode s.params.enc (cellCode s (s.tboff.toNat + k)) = some (spanSym t a k)) ∧
      OtherSymbolsKept s t a (countN s) ∧ OtherWordsKept s t a (countN s)

/-- R140, R242 (b), R248: FROMSYM stops at the first illegal cell or illegal word: the words before the current one are
written, the current word and later ones are not. -/
def Obligations.FromsymStopsPartWay : Prop :=
  ∀ (s : State) (a : SpanSel) (j : Nat), s.n ≠ 0 → SpanFits s a (countN s) → CellsFit s (countN s) →
    j < countN s →
    (∀ k, k < countN s → wordOf s a k < wordOf s a j → LegalAt s (wordOf s a k) ∧ CellLegal s k) →
    ((LegalAt s (wordOf s a j) ∧ ¬CellLegal s j ∧ ∀ k, k < j → CellLegal s k) ∨ ¬LegalAt s (wordOf s a j)) →
    ∃ t, exec (.fromsym a) s = .next t ∧ OnlyErrorRegsAndMem s t ∧
      (LegalAt s (wordOf s a j) → ErrorLatched s t 2 3 (BitVec.ofNat 32 (s.tboff.toNat + j))) ∧
      (¬LegalAt s (wordOf s a j) →
        IllegalWordLatched s t a j) ∧
      (∀ k, k < countN s → wordOf s a k < wordOf s a j →
        uncode s.params.enc (cellCode s (s.tboff.toNat + k)) = some (spanSym t a k)) ∧
      OtherSymbolsKept s t a (countN s) ∧
      LaterWordsKept s t a a (countN s) j

/-! ### Bulk span operations (41_bulk_span_ops.md) -/

/-- R161, R162, R210, R213: after COPY symbol k of the destination is what symbol k of the source was, for 0 ≤ k < N; on
the fast path full words are copied as raw patterns, legal or not; every other symbol and word is unchanged. -/
def Obligations.CopyMovesSymbols : Prop :=
  ∀ (s : State) (i : Instr) (a b : SpanSel), IsCopy i a b → s.n ≠ 0 → SpanFits s a (countN s) →
    SpanFits s b (countN s) → (a = b ∨ SameSymbols s a b ∨ Apart s a b (countN s)) →
    LegalForPair s a b (countN s) →
    ∃ t, exec i s = .next t ∧ t = withMem s t.mem ∧
      (∀ k, k < countN s → spanSym t b k = spanSym s a k) ∧
      (SamePhase s a b → ∀ k, k < countN s → WordInside s a (countN s) k →
        memByte t (wordOf s b k) = memByte s (wordOf s a k)) ∧
      OtherSymbolsKept s t b (countN s) ∧ OtherWordsKept s t b (countN s)

/-- R162: COPY of a span onto the same symbols leaves `M` unchanged ("copy(n, d, x, d, x) leaves x unchanged"). -/
def Obligations.CopyOntoItselfChangesNothing : Prop :=
  ∀ (s : State) (i : Instr) (a b : SpanSel), IsCopy i a b → Memory.wf s.mem = true → s.n ≠ 0 →
    SpanFits s a (countN s) → SpanFits s b (countN s) → SameSymbols s a b → LegalEdges s a (countN s) →
    exec i s = .next s

/-- R161, R162, R210, R213, R245, R248: COPY stops at an illegal word that it decodes, the source word before the
destination word. On the slow path that is the first position with an illegal word, and the symbols before it are copied;
on the fast path it is the lead or trail word, and the words before it are written, full words as raw patterns. All else
in `M` is as before. -/
def Obligations.CopyStopsAtIllegalWord : Prop :=
  ∀ (s : State) (i : Instr) (a b : SpanSel) (j : Nat), IsCopy i a b → s.n ≠ 0 → SpanFits s a (countN s) →
    SpanFits s b (countN s) → j < countN s → ¬BothLegalAt s a b j →
    (¬SamePhase s a b → Apart s a b (countN s) → (∀ k, k < j → BothLegalAt s a b k) →
      ∃ t, exec i s = .next t ∧ OnlyErrorRegsAndMem s t ∧ FirstIllegalLatched s t a b j ∧
        (∀ k, k < j → spanSym t b k = spanSym s a k) ∧ OtherSymbolsKept s t b j ∧ OtherWordsKept s t b j) ∧
    (SamePhase s a b → (a = b ∨ SameSymbols s a b ∨ Apart s a b (countN s)) → ¬WordInside s a (countN s) j →
      (∀ k, k < countN s → wordOf s a k < wordOf s a j → WordInside s a (countN s) k ∨ BothLegalAt s a b k) →
      ∃ t, exec i s = .next t ∧ OnlyErrorRegsAndMem s t ∧ FirstIllegalLatched s t a b j ∧
        (∀ k, k < countN s → wordOf s a k < wordOf s a j → spanSym t b k = spanSym s a k ∧
          (WordInside s a (countN s) k → memByte t (wordOf s b k) = memByte s (wordOf s a k))) ∧
        OtherSymbolsKept s t b (countN s) ∧ LaterWordsKept s t b a (countN s) j)

/-- R163, R164: after FILLZ symbols 0 to N − 1 of the span are zero and its full words, legal or not, are the zero word;
every other symbol and word is unchanged. R164, R245, R248: an illegal lead or trail word stops it with that word's address;
"if from the trail, the lead and the full words are already zeroed", and all else in `M` is as before. -/
def Obligations.FillzZeroesSpan : Prop :=
  ∀ (s : State) (a : SpanSel), s.n ≠ 0 → SpanFits s a (countN s) →
    (LegalEdges s a (countN s) →
      ∃ t, exec (.fillz a) s = .next t ∧ t = withMem s t.mem ∧
        (∀ k, k < countN s → spanSym t a k = .zero) ∧
        (∀ k, k < countN s → WordInside s a (countN s) k → memByte t (wordOf s a k) = 0x00#8) ∧
        OtherSymbolsKept s t a (countN s) ∧ OtherWordsKept s t a (countN s)) ∧
    (∀ j, j < countN s → ¬WordInside s a (countN s) j → ¬LegalAt s (wordOf s a j) →
      (∀ k, k < countN s → wordOf s a k < wordOf s a j → WordInside s a (countN s) k ∨ LegalAt s (wordOf s a k)) →
      ∃ t, exec (.fillz a) s = .next t ∧ OnlyErrorRegsAndMem s t ∧ IllegalWordLatched s t a j ∧
        (∀ k, k < countN s → wordOf s a k < wordOf s a j → spanSym t a k = .zero ∧
          (WordInside s a (countN s) k → memByte t (wordOf s a k) = 0x00#8)) ∧
        OtherSymbolsKept s t a (countN s) ∧ LaterWordsKept s t a a (countN s) j)

/-- R165, R166, R215: EQU writes 1 to `RESULT` if the spans are equal symbol for symbol, else 0; on the fast path full words
are compared as raw patterns; nothing else changes. R165, R166, R245: an illegal word that it decodes ends it with span and
word latched, span a read before span b, and `RESULT` and all else as before: on the slow path at the first position with an
illegal word, equal or not before it; on the fast path at the lead or trail word, if all before it is equal. -/
def Obligations.EquComparesSpans : Prop :=
  ∀ (s : State) (i : Instr) (a b : SpanSel), IsEqu i a b → s.n ≠ 0 → SpanFits s a (countN s) →
    SpanFits s b (countN s) →
    (LegalForPair s a b (countN s) →
      ∃ r : Bool, exec i s = .next { s with result := if r then 1 else 0 } ∧
        (r = true ↔ ∀ k, k < countN s → EqualAt s a b (countN s) k)) ∧
    (∀ j, j < countN s → ¬BothLegalAt s a b j →
      ((¬SamePhase s a b ∧ ∀ k, k < j → BothLegalAt s a b k) ∨
        (SamePhase s a b ∧ ¬WordInside s a (countN s) j ∧
          ∀ k, k < countN s → wordOf s a k < wordOf s a j →
            (WordInside s a (countN s) k ∨ BothLegalAt s a b k) ∧ EqualAt s a b (countN s) k)) →
      ∃ t, exec i s = .next t ∧ OnlyErrorRegs s t ∧ FirstIllegalLatched s t a b j)

/-- R165: on the fast path EQU stops at the first mismatch: a mismatch gives `RESULT` = 0 whatever stands in later words,
illegal patterns included. -/
def Obligations.EquStopsAtFirstMismatch : Prop :=
  ∀ (s : State) (i : Instr) (a b : SpanSel) (j : Nat), IsEqu i a b → s.n ≠ 0 → SpanFits s a (countN s) →
    SpanFits s b (countN s) → SamePhase s a b → j < countN s →
    (∀ k, k < countN s → wordOf s a k ≤ wordOf s a j → WordInside s a (countN s) k ∨ BothLegalAt s a b k) →
    ¬EqualAt s a b (countN s) j → exec i s = .next { s with result := 0 }

/-- R167 (a): the fast path of COPY and of EQU gives the memory and the answer of the symbol-by-symbol path. -/
def Obligations.FastPathEqualsSlowPath : Prop :=
  ∀ (s : State) (a b : SpanSel) (n : Nat), SpanFits s a n → SpanFits s b n → SamePhase s a b →
    LegalSpan s a n → LegalSpan s b n → 1 ≤ n →
    ((SameSymbols s a b ∨ Apart s a b n) →
      ∃ t u, copyFast s.params.enc n (operand s a) (operand s b) s = .done () t ∧
        copySlow s.params.enc n (operand s a) (operand s b) s = .done () u ∧ ∀ c, memByte t c = memByte u c) ∧
    ∃ r, equFast s.params.enc n (operand s a) (operand s b) s = .done r s ∧
      equSlow s.params.enc (operand s a) (operand s b) n 0 true s = .done r s

/-- R142: COPY of n symbols gives the memory of TOSYM of the source followed by FROMSYM of the destination; and TOSYM
followed by FROMSYM of the same span leaves `M` unchanged. -/
def Obligations.CopyIsTosymThenFromsym : Prop :=
  (∀ (s t u v : State) (a b : SpanSel), s.n ≠ 0 → SpanFits s a (countN s) → SpanFits s b (countN s) →
    CellsFit s (countN s) → Apart s a b (countN s) → LegalSpan s a (countN s) → LegalSpan s b (countN s) →
    exec (.tosym a) s = .next t → exec (.fromsym b) t = .next u → exec (.copy a b) s = .next v →
    ∀ c, memByte u c = memByte v c) ∧
  (∀ (s t u : State) (a : SpanSel), s.n ≠ 0 → SpanFits s a (countN s) → CellsFit s (countN s) →
    LegalSpan s a (countN s) → exec (.tosym a) s = .next t → exec (.fromsym a) t = .next u →
    ∀ c, memByte u c = memByte s c)

/-! ### Symbol arithmetic commands (42_symbol_arithmetic.md) -/

/-- R183, R184: ADD and SUB write the code of the sum and of the difference of their immediates to `RESULT` and change
nothing else. -/
def Obligations.AddSubWriteResult : Prop :=
  ∀ (s : State) (v u : SymCode) (x y : Sym), uncode s.params.enc v = some x → uncode s.params.enc u = some y →
    exec (.add v u) s = .next { s with result := BitVec.ofNat 32 (symCode (symAdd s.params.enc x y)).toNat } ∧
    exec (.sub v u) s = .next { s with result := BitVec.ofNat 32 (symCode (symSub s.params.enc x y)).toNat }

/-! ### The feedback mixer (43_feedback_combinators.md) -/

/-- R190 to R199, R216 to R223: each combinator, and each encrypt and decrypt name, gives output symbol k and state symbol
k the values its data flow says, of the data and state symbols before the command, for 0 ≤ k < N, also when data and
output span are identical; every other symbol and word is unchanged. -/
def Obligations.CombinatorsMixSpans : Prop :=
  ∀ (s : State) (i : Instr) (m : MixShape), mixOf i = some m → s.n ≠ 0 →
    MixSpansFit s m.data m.out (countN s) → LegalSpan s .s (countN s) → LegalSpan s m.data (countN s) →
    LegalSpan s m.out (countN s) →
    ∃ t, exec i s = .next t ∧ t = withMem s t.mem ∧
      (∀ k, k < countN s →
        spanSym t m.out k = m.output s.params.enc (spanSym s m.data k) (spanSym s .s k) ∧
        spanSym t .s k = m.newState s.params.enc (spanSym s m.data k) (spanSym s .s k)) ∧
      (∀ j, ¬(absOf s m.out ≤ j ∧ j < absOf s m.out + countN s) →
        ¬(absOf s .s ≤ j ∧ j < absOf s .s + countN s) → symAt t j = symAt s j) ∧
      ∀ a, (∀ k, k < countN s → a ≠ wordOf s m.out k ∧ a ≠ wordOf s .s k) → memByte t a = memByte s a

/-- R191 to R198, R245, R248: a combinator stops at the first position where the data word, else the state word, else the
output word is illegal, with that span and word in the error registers; all earlier positions are done, and every other
symbol and every word that holds none of the written symbols is as before. -/
def Obligations.CombinatorsStopAtIllegalWord : Prop :=
  ∀ (s : State) (i : Instr) (m : MixShape) (j : Nat), mixOf i = some m → s.n ≠ 0 →
    MixSpansFit s m.data m.out (countN s) → j < countN s →
    (∀ k, k < j → LegalAt s (wordOf s m.data k) ∧ LegalAt s (wordOf s .s k) ∧ LegalAt s (wordOf s m.out k)) →
    ¬(LegalAt s (wordOf s m.data j) ∧ LegalAt s (wordOf s .s j) ∧ LegalAt s (wordOf s m.out j)) →
    ∃ t, exec i s = .next t ∧ OnlyErrorRegsAndMem s t ∧
      (¬LegalAt s (wordOf s m.data j) → IllegalWordLatched s t m.data j) ∧
      (LegalAt s (wordOf s m.data j) → FirstIllegalLatched s t .s m.out j) ∧
      (∀ k, k < j →
        spanSym t m.out k = m.output s.params.enc (spanSym s m.data k) (spanSym s .s k) ∧
        spanSym t .s k = m.newState s.params.enc (spanSym s m.data k) (spanSym s .s k)) ∧
      (∀ q, ¬(absOf s m.out ≤ q ∧ q < absOf s m.out + j) → ¬(absOf s .s ≤ q ∧ q < absOf s .s + j) →
        symAt t q = symAt s q) ∧
      ∀ c, (∀ k, k < j → c ≠ wordOf s m.out k ∧ c ≠ wordOf s .s k) → memByte t c = memByte s c

/-- R199: a two-buffer command whose X and Y spans are identical leaves `M` exactly as the in-place command of the same
shape does. -/
def Obligations.AliasedTwoBufferEqualsInPlace : Prop :=
  ∀ (s t u : State) (i k : Instr),
    (i, k) ∈ [(Instr.setxa, Instr.setxam), (.setxs, .setxsm), (.setya, .setyam), (.setys, .setysm)] →
    s.n ≠ 0 → MixSpansFit s .x .y (countN s) → SameSymbols s .x .y →
    exec i s = .next t → exec k s = .next u → t.mem = u.mem

/-- R200, R226 (a): from equal sponge states, the decrypting combinator applied to what the encrypting one produced gives
back its input, and both leave the same new state. `s` is the sender before, `t` after; `s'` is the receiver before, `u`
after; the receiver's input span holds the sender's output. -/
def Obligations.DecryptUndoesEncrypt : Prop :=
  ∀ (s t s' u : State) (i k : Instr) (m m' : MixShape),
    (i, k) ∈ [(Instr.setxa, Instr.setxs), (.setya, .setys), (.setxam, .setxsm), (.setyam, .setysm),
      (.encryptOw, .decryptOw), (.encryptX, .decryptX), (.encryptOwM, .decryptOwM), (.encryptXM, .decryptXM)] →
    mixOf i = some m → mixOf k = some m' → s'.params = s.params → s'.n = s.n → s.n ≠ 0 →
    MixSpansFit s m.data m.out (countN s) → LegalSpan s .s (countN s) → LegalSpan s m.data (countN s) →
    LegalSpan s m.out (countN s) →
    MixSpansFit s' m'.data m'.out (countN s) → LegalSpan s' .s (countN s) → LegalSpan s' m'.data (countN s) →
    LegalSpan s' m'.out (countN s) →
    (∀ j, j < countN s → spanSym s' .s j = spanSym s .s j) →
    exec i s = .next t → (∀ j, j < countN s → spanSym s' m'.data j = spanSym t m.out j) →
    exec k s' = .next u →
    ∀ j, j < countN s → spanSym u m'.out j = spanSym s m.data j ∧ spanSym u .s j = spanSym t .s j

/-! ### Sponge commands (44_sponge_ops.md) -/

/-- R211: after ADDS, by either name, state symbol k is the sum of what it was and of data symbol k, for 0 ≤ k < N; every
other symbol and word is unchanged. R211, R245, R248: it stops at the first position where the state word, else the data
word, is illegal, with that span and word latched; all earlier positions are done, all else in `M` is as before. -/
def Obligations.AddsAbsorbsIntoState : Prop :=
  ∀ (s : State) (i : Instr), (i = .adds ∨ i = .absorbX) → s.n ≠ 0 → SpanFits s .s (countN s) →
    SpanFits s .x (countN s) → Apart s .s .x (countN s) →
    (LegalSpan s .s (countN s) → LegalSpan s .x (countN s) →
      ∃ t, exec i s = .next t ∧ t = withMem s t.mem ∧
        (∀ k, k < countN s → spanSym t .s k = symAdd s.params.enc (spanSym s .s k) (spanSym s .x k)) ∧
        OtherSymbolsKept s t .s (countN s) ∧ OtherWordsKept s t .s (countN s)) ∧
    (∀ j, j < countN s → ¬BothLegalAt s .s .x j → (∀ k, k < j → BothLegalAt s .s .x k) →
      ∃ t, exec i s = .next t ∧ OnlyErrorRegsAndMem s t ∧ FirstIllegalLatched s t .s .x j ∧
        (∀ k, k < j → spanSym t .s k = symAdd s.params.enc (spanSym s .s k) (spanSym s .x k)) ∧
        OtherSymbolsKept s t .s j ∧ OtherWordsKept s t .s j)

/-- R211, R226 (d): on BIN8 two ADDS with the same data restore `M`; on TER5 it takes three. -/
def Obligations.RepeatedAddsRestoresMemory : Prop :=
  ∀ s t u v : State, s.n ≠ 0 → SpanFits s .s (countN s) → SpanFits s .x (countN s) →
    Apart s .s .x (countN s) → LegalSpan s .s (countN s) → LegalSpan s .x (countN s) →
    exec .adds s = .next t → exec .adds t = .next u → exec .adds u = .next v →
    (s.params.enc = .bin8 → ∀ a, memByte u a = memByte s a) ∧
    (s.params.enc = .ter5 → ∀ a, memByte v a = memByte s a)

/-- R212: after SQZOW, by either name, symbol k of Y is what state symbol k was and state symbol k is zero, for 0 ≤ k < N;
every other symbol and word is unchanged. -/
def Obligations.SqzowEmitsAndZeroesState : Prop :=
  ∀ (s : State) (i : Instr), (i = .sqzow ∨ i = .squeezeOw) → s.n ≠ 0 → SpanFits s .s (countN s) →
    SpanFits s .y (countN s) → Apart s .s .y (countN s) → LegalForPair s .s .y (countN s) →
    ∃ t, exec i s = .next t ∧ t = withMem s t.mem ∧
      (∀ k, k < countN s → spanSym t .y k = spanSym s .s k ∧ spanSym t .s k = .zero) ∧
      (∀ j, ¬(absOf s .y ≤ j ∧ j < absOf s .y + countN s) → ¬(absOf s .s ≤ j ∧ j < absOf s .s + countN s) →
        symAt t j = symAt s j) ∧
      ∀ a, (∀ k, k < countN s → a ≠ wordOf s .y k ∧ a ≠ wordOf s .s k) → memByte t a = memByte s a

/-- R212: SQZOW, by either name, is exactly `COPY S, Y` followed by `FILLZ S`, as one command (S and Y sharing no symbol);
its zero phase cannot raise. -/
def Obligations.SqzowIsCopyThenFillz : Prop :=
  ∀ (s t : State) (i : Instr), (i = .sqzow ∨ i = .squeezeOw) → NoError s → s.n ≠ 0 → Apart s .s .y (countN s) →
    exec (.copy .s .y) s = .next t →
    (¬NoError t → exec i s = .next t) ∧
    (NoError t → exec i s = exec (.fillz .s) t ∧ ∀ u, exec (.fillz .s) t = .next u → NoError u)

/-- R214: after SQEOW, by either name, `RESULT` is 1 if for every 0 ≤ k < N the state symbol was the expected one, else 0
(full words compared as EQU compares them), and in both cases the state symbols are zero; every other symbol and word is
unchanged. -/
def Obligations.SqeowComparesAndZeroesState : Prop :=
  ∀ (s : State) (i : Instr), (i = .sqeow ∨ i = .squeezeeqOw) → s.n ≠ 0 → SpanFits s .s (countN s) →
    SpanFits s .x (countN s) → Apart s .s .x (countN s) → LegalForPair s .s .x (countN s) →
    ∃ (t : State) (r : Bool), exec i s = .next t ∧
      t = { s with mem := t.mem, result := if r then 1 else 0 } ∧
      (r = true ↔ ∀ k, k < countN s → EqualAt s .s .x (countN s) k) ∧
      (∀ k, k < countN s → spanSym t .s k = .zero) ∧
      OtherSymbolsKept s t .s (countN s) ∧ OtherWordsKept s t .s (countN s)

/-- R214: SQEOW, by either name, compares as EQU does and zeroes as FILLZ does: an error of the comparison ends it with the
state not zeroed; else the state is zeroed whatever the comparison said, and `RESULT` is written only if that raised no
error. -/
def Obligations.SqeowIsEquThenFillz : Prop :=
  ∀ (s t : State) (i : Instr), (i = .sqeow ∨ i = .squeezeeqOw) → NoError s → s.n ≠ 0 →
    Apart s .s .x (countN s) → exec (.equ .s .x) s = .next t →
    (¬NoError t → exec i s = .next t) ∧
    (NoError t → ∀ u, exec (.fillz .s) t = .next u →
      exec i s = .next (if NoError u then u else { u with result := s.result }))
end

