-- ==== Sys2Proof/Laws/Codec.lean ====
section
/-!
SUPPORT. The small lemmas of the codec and of the symbol algebra.
-/

namespace Sys2Proof.Machine

open Sys2Proof

/-! ### Symbol codes and the alphabet -/

@[simp] theorem uncode_symCode {e : Enc} {v : Sym} (h : inAlphabet e v = true) : uncode e (symCode v) = some v := by
  cases e <;> cases v <;> first | rfl | exact absurd h (by decide)

theorem inAlphabet_of_uncode {e : Enc} {c : SymCode} {v : Sym} (h : uncode e c = some v) :
    inAlphabet e v = true := by
  revert v c
  cases e <;> decide

theorem inAlphabet_zero (e : Enc) : inAlphabet e .zero = true := by cases e <;> rfl

theorem symCode_lt (v : Sym) : (symCode v).toNat < 4 := (symCode v).isLt

@[simp] theorem inAlphabet_symAdd (e : Enc) (x y : Sym) : inAlphabet e (symAdd e x y) = true := by
  cases e <;> cases x <;> cases y <;> rfl

@[simp] theorem inAlphabet_symSub (e : Enc) (x y : Sym) : inAlphabet e (symSub e x y) = true := by
  cases e <;> cases x <;> cases y <;> rfl

/-- sub undoes add on the symbols of an alphabet. -/
theorem symSub_symAdd {e : Enc} {x y : Sym} (hx : inAlphabet e x = true) (hy : inAlphabet e y = true) :
    symSub e (symAdd e x y) y = x := by
  revert hx hy
  cases e <;> cases x <;> cases y <;> decide

/-! ### Sizes -/

@[simp] theorem size_bin8 : Enc.bin8.size = 8 := rfl
@[simp] theorem size_ter5 : Enc.ter5.size = 5 := rfl

theorem size_pos (e : Enc) : 0 < e.size := by cases e <;> decide

/-! ### Decoding -/

theorem trits_length (n : Nat) (v : Int) : (trits n v).length = n := by
  induction n generalizing v with
  | zero => rfl
  | succ k ih => simp [trits, ih]

@[simp] theorem dec_length (e : Enc) (w : MWord) : (dec e w).length = e.size := by
  cases e
  · simp [dec]
  · simp [dec, trits_length]

theorem inAlphabet_dec {e : Enc} {w : MWord} : ∀ v ∈ dec e w, inAlphabet e v = true := by
  cases e
  · intro v hv
    obtain ⟨i, -, rfl⟩ := List.mem_map.mp hv
    unfold bitSym
    split <;> rfl
  · intro v _
    cases v <;> rfl

@[simp] theorem legal_bin8 (w : MWord) : legal .bin8 w = true := rfl

/-- On legal words `Enc` undoes `Dec`: all 256 patterns of each encoding. -/
theorem enc_dec_all : ∀ e : Enc, ∀ w : MWord, legal e w = true → enc e (dec e w) = w := by
  intro e
  cases e
  · intro w _
    revert w
    decide
  · decide

theorem enc_dec {e : Enc} {w : MWord} (h : legal e w = true) : enc e (dec e w) = w := enc_dec_all e w h

@[simp] theorem legal_zeroWord (e : Enc) : legal e zeroWord = true := by cases e <;> rfl

theorem dec_zeroWord (e : Enc) : dec e zeroWord = List.replicate e.size .zero := by cases e <;> decide

/-! ### Encoding -/

/-- The lowest balanced trit of a number that has one, and the rest. -/
theorem tritOf_toInt_add (v : Sym) (x : Int) : tritOf ((v.toInt + 3 * x) % 3) = v := by
  rw [show (v.toInt + 3 * x) % 3 = v.toInt % 3 by omega]
  cases v <;> rfl

theorem trits_weigh (a : List Sym) : trits a.length (weigh 3 a) = a := by
  induction a with
  | nil => rfl
  | cons v rest ih =>
    simp only [List.length_cons, weigh, trits, tritOf_toInt_add]
    rw [show (v.toInt + 3 * weigh 3 rest - v.toInt) / 3 = weigh 3 rest by omega, ih]

theorem weigh3_bound (a : List Sym) : -(3 ^ a.length - 1) ≤ 2 * weigh 3 a ∧ 2 * weigh 3 a ≤ 3 ^ a.length - 1 := by
  induction a with
  | nil => simp [weigh]
  | cons v rest ih =>
    simp only [List.length_cons, weigh, pow_succ]
    obtain ⟨h1, h2⟩ := ih
    cases v <;> simp only [Sym.toInt] <;> constructor <;> omega

theorem weigh3_range {a : List Sym} (h : a.length = 5) : -121 ≤ weigh 3 a ∧ weigh 3 a ≤ 121 := by
  have := weigh3_bound a
  rw [h] at this
  omega

theorem toInt_enc_ter5 {a : List Sym} (h : a.length = 5) : (enc .ter5 a).toInt = weigh 3 a := by
  obtain ⟨h1, h2⟩ := weigh3_range h
  show (BitVec.ofInt 8 (weigh 3 a)).toInt = _
  rw [BitVec.toInt_ofInt, Int.bmod_def]
  simp only [Nat.reducePow, Nat.cast_ofNat]
  split <;> omega

/-- A list of eight symbols of BIN8, as its bits. -/
theorem dec_enc_bin8 {a : List Sym} (hl : a.length = 8) (ha : ∀ v ∈ a, inAlphabet .bin8 v = true) :
    dec .bin8 (enc .bin8 a) = a := by
  have key : ∀ b0 b1 b2 b3 b4 b5 b6 b7 : Bool,
      dec .bin8 (enc .bin8 [bitSym b0, bitSym b1, bitSym b2, bitSym b3, bitSym b4, bitSym b5, bitSym b6, bitSym b7]) =
        [bitSym b0, bitSym b1, bitSym b2, bitSym b3, bitSym b4, bitSym b5, bitSym b6, bitSym b7] := by decide
  have bit : ∀ v, inAlphabet .bin8 v = true → ∃ b, v = bitSym b := by
    intro v hv
    cases v
    · exact ⟨false, rfl⟩
    · exact ⟨true, rfl⟩
    · exact absurd hv (by decide)
  match a, hl with
  | [v0, v1, v2, v3, v4, v5, v6, v7], _ =>
    obtain ⟨b0, rfl⟩ := bit v0 (ha _ (by simp))
    obtain ⟨b1, rfl⟩ := bit v1 (ha _ (by simp))
    obtain ⟨b2, rfl⟩ := bit v2 (ha _ (by simp))
    obtain ⟨b3, rfl⟩ := bit v3 (ha _ (by simp))
    obtain ⟨b4, rfl⟩ := bit v4 (ha _ (by simp))
    obtain ⟨b5, rfl⟩ := bit v5 (ha _ (by simp))
    obtain ⟨b6, rfl⟩ := bit v6 (ha _ (by simp))
    obtain ⟨b7, rfl⟩ := bit v7 (ha _ (by simp))
    exact key b0 b1 b2 b3 b4 b5 b6 b7

theorem dec_enc {e : Enc} {a : List Sym} (hl : a.length = e.size) (ha : ∀ v ∈ a, inAlphabet e v = true) :
    dec e (enc e a) = a := by
  cases e
  · exact dec_enc_bin8 hl ha
  · show trits 5 (enc .ter5 a).toInt = a
    rw [toInt_enc_ter5 hl, show 5 = a.length from hl.symm, trits_weigh]

theorem legal_enc {e : Enc} {a : List Sym} (hl : a.length = e.size) : legal e (enc e a) = true := by
  cases e
  · rfl
  · have := weigh3_range hl
    simpa [legal, toInt_enc_ter5 hl] using this

end Sys2Proof.Machine
end

