-- ==== Sys2Proof/Laws/Memory.lean ====
section
/-!
SUPPORT. Sparse storage: what a read gives after a write, that every operation keeps the canonical form, and that equal
contents are equal data.
-/

namespace Sys2Proof.Machine

variable {w : Nat}

/-- Every listed address lies above `a`. -/
def Memory.above (a : Nat) (m : Memory w) : Prop := ∀ c ∈ m, a < c.1

theorem Memory.wf_cons_iff (a : Nat) (v : BitVec w) (rest : Memory w) :
    Memory.wf ((a, v) :: rest) = true ↔ Memory.above a rest ∧ v ≠ powerUp w ∧ Memory.wf rest = true := by
  simp [Memory.wf, Memory.above, and_assoc]

theorem Memory.read_of_above {a : Nat} : ∀ {m : Memory w}, Memory.above a m → Memory.read m a = powerUp w
  | [], _ => rfl
  | (b, v) :: rest, h => by
    have hb : a < b := h (b, v) (by simp)
    have hr : Memory.above a rest := fun c hc => h c (by simp [hc])
    simp [Memory.read, Nat.ne_of_lt hb, Memory.read_of_above hr]

theorem Memory.above_mono {a b : Nat} {m : Memory w} (h : Memory.above b m) (hab : a ≤ b) : Memory.above a m :=
  fun c hc => Nat.lt_of_le_of_lt hab (h c hc)

/-! ### Reading after writing -/

theorem Memory.read_erase (m : Memory w) (a c : Nat) :
    Memory.read (Memory.erase m a) c = if c = a then powerUp w else Memory.read m c := by
  induction m with
  | nil => simp [Memory.erase, Memory.read]
  | cons hd rest ih =>
    obtain ⟨b, u⟩ := hd
    simp only [Memory.erase]
    split
    · rename_i hab
      rw [ih]
      by_cases hc : c = a
      · simp [hc]
      · simp [hc, Memory.read, show c ≠ b by omega]
    · rename_i hab
      simp only [Memory.read, ih]
      by_cases hc : c = b
      · simp [hc, show b ≠ a by omega]
      · simp [hc]

theorem Memory.mem_erase_imp {m : Memory w} {a : Nat} {c : Nat × BitVec w} (h : c ∈ Memory.erase m a) :
    c ∈ m ∧ c.1 ≠ a := by
  induction m with
  | nil => simp [Memory.erase] at h
  | cons hd rest ih =>
    obtain ⟨b, u⟩ := hd
    simp only [Memory.erase] at h
    split at h
    · exact ⟨List.mem_cons_of_mem _ (ih h).1, (ih h).2⟩
    · rename_i hab
      rcases List.mem_cons.mp h with rfl | h
      · exact ⟨by simp, fun e => hab e.symm⟩
      · exact ⟨List.mem_cons_of_mem _ (ih h).1, (ih h).2⟩

theorem Memory.read_insert (m : Memory w) (a c : Nat) (v : BitVec w) (h : ∀ d ∈ m, d.1 ≠ a) :
    Memory.read (Memory.insert m a v) c = if c = a then v else Memory.read m c := by
  induction m with
  | nil => simp [Memory.insert, Memory.read]
  | cons hd rest ih =>
    obtain ⟨b, u⟩ := hd
    have hb : b ≠ a := h (b, u) (by simp)
    simp only [Memory.insert]
    split
    · simp [Memory.read]
    · simp only [Memory.read, ih fun d hd => h d (by simp [hd])]
      by_cases hc : c = b
      · simp [hc, hb]
      · simp [hc]

/-- A read gives what was last written there, and writing one address leaves every other alone. -/
theorem Memory.read_write (m : Memory w) (a c : Nat) (v : BitVec w) :
    Memory.read (Memory.write m a v) c = if c = a then v else Memory.read m c := by
  unfold Memory.write
  split
  · rename_i hv
    rw [Memory.read_erase, hv]
  · rw [Memory.read_insert _ _ _ _ fun d hd => (Memory.mem_erase_imp hd).2, Memory.read_erase]
    split <;> rfl

@[simp] theorem Memory.read_write_same (m : Memory w) (a : Nat) (v : BitVec w) :
    Memory.read (Memory.write m a v) a = v := by rw [Memory.read_write, if_pos rfl]

theorem Memory.read_write_ne (m : Memory w) {a c : Nat} (h : c ≠ a) (v : BitVec w) :
    Memory.read (Memory.write m a v) c = Memory.read m c := by rw [Memory.read_write, if_neg h]

/-! ### The canonical form -/

theorem Memory.wf_nil : Memory.wf ([] : Memory w) = true := rfl

theorem Memory.above_erase {b : Nat} {m : Memory w} (hm : Memory.above b m) (a : Nat) :
    Memory.above b (Memory.erase m a) := fun c hc => hm c (Memory.mem_erase_imp hc).1

theorem Memory.wf_erase {m : Memory w} (hm : Memory.wf m = true) (a : Nat) : Memory.wf (Memory.erase m a) = true := by
  induction m with
  | nil => exact hm
  | cons hd rest ih =>
    obtain ⟨b, u⟩ := hd
    obtain ⟨hab, hu, hr⟩ := (Memory.wf_cons_iff b u rest).mp hm
    simp only [Memory.erase]
    split
    · exact ih hr
    · exact (Memory.wf_cons_iff b u _).mpr ⟨Memory.above_erase hab a, hu, ih hr⟩

theorem Memory.mem_insert_imp {m : Memory w} {a : Nat} {v : BitVec w} {c : Nat × BitVec w}
    (h : c ∈ Memory.insert m a v) : c = (a, v) ∨ c ∈ m := by
  induction m with
  | nil => simpa [Memory.insert] using h
  | cons hd rest ih =>
    obtain ⟨b, u⟩ := hd
    simp only [Memory.insert] at h
    split at h
    · simpa using h
    · rcases List.mem_cons.mp h with rfl | h
      · exact .inr (by simp)
      · exact (ih h).imp_right (List.mem_cons_of_mem _)

theorem Memory.wf_insert {m : Memory w} (hm : Memory.wf m = true) {a : Nat} (ha : ∀ d ∈ m, d.1 ≠ a) {v : BitVec w}
    (hv : v ≠ powerUp w) : Memory.wf (Memory.insert m a v) = true := by
  induction m with
  | nil => exact (Memory.wf_cons_iff a v []).mpr ⟨fun _ h => absurd h (by simp), hv, hm⟩
  | cons hd rest ih =>
    obtain ⟨b, u⟩ := hd
    obtain ⟨hab, hu, hr⟩ := (Memory.wf_cons_iff b u rest).mp hm
    have hb : b ≠ a := ha (b, u) (by simp)
    simp only [Memory.insert]
    split
    · rename_i hlt
      refine (Memory.wf_cons_iff a v _).mpr ⟨fun c hc => ?_, hv, hm⟩
      rcases List.mem_cons.mp hc with rfl | hc
      · exact hlt
      · exact Nat.lt_trans hlt (hab c hc)
    · refine (Memory.wf_cons_iff b u _).mpr ⟨fun c hc => ?_, hu, ih hr fun d hd => ha d (by simp [hd])⟩
      rcases Memory.mem_insert_imp hc with rfl | hc
      · show b < a
        omega
      · exact hab c hc

theorem Memory.wf_write {m : Memory w} (hm : Memory.wf m = true) (a : Nat) (v : BitVec w) :
    Memory.wf (Memory.write m a v) = true := by
  unfold Memory.write
  split
  · exact Memory.wf_erase hm a
  · rename_i hv
    exact Memory.wf_insert (Memory.wf_erase hm a) (fun d hd => (Memory.mem_erase_imp hd).2) hv

theorem Memory.wf_writeMany {m : Memory w} (hm : Memory.wf m = true) (a : Nat) (vs : List (BitVec w)) :
    Memory.wf (Memory.writeMany m a vs) = true := by
  induction vs generalizing m a with
  | nil => exact hm
  | cons v rest ih => exact ih (Memory.wf_write hm a v) (a + 1)

/-! ### Nothing listed outside a range -/

theorem Memory.below_iff {bound : Nat} {m : Memory w} :
    Memory.below bound m = true ↔ ∀ c ∈ m, c.1 < bound := by simp [Memory.below]

theorem Memory.below_write {bound a : Nat} {m : Memory w} (hm : Memory.below bound m = true) (ha : a < bound)
    (v : BitVec w) : Memory.below bound (Memory.write m a v) = true := by
  rw [Memory.below_iff] at hm ⊢
  intro c hc
  unfold Memory.write at hc
  split at hc
  · exact hm c (Memory.mem_erase_imp hc).1
  · rcases Memory.mem_insert_imp hc with rfl | h
    · exact ha
    · exact hm c (Memory.mem_erase_imp h).1

theorem Memory.below_writeMany {bound a : Nat} {m : Memory w} (hm : Memory.below bound m = true)
    (vs : List (BitVec w)) (ha : a + vs.length ≤ bound) : Memory.below bound (Memory.writeMany m a vs) = true := by
  induction vs generalizing m a with
  | nil => exact hm
  | cons v rest ih =>
    rw [List.length_cons] at ha
    exact ih (Memory.below_write hm (by omega) v) (by omega)

/-! ### Equal contents are equal data -/

theorem Memory.eq_of_read_eq : ∀ {m m' : Memory w}, Memory.wf m = true → Memory.wf m' = true →
    (∀ a, Memory.read m a = Memory.read m' a) → m = m'
  | [], [], _, _, _ => rfl
  | [], (b, v) :: rest, _, h', h => by
    have := h b
    simp [Memory.read, ((Memory.wf_cons_iff b v rest).mp h').2.1.symm] at this
  | (b, v) :: rest, [], h', _, h => by
    have := h b
    simp [Memory.read, ((Memory.wf_cons_iff b v rest).mp h').2.1] at this
  | (a, v) :: m, (b, u) :: m', hm, hm', h => by
    obtain ⟨ha, hv, hr⟩ := (Memory.wf_cons_iff a v m).mp hm
    obtain ⟨hb, hu, hr'⟩ := (Memory.wf_cons_iff b u m').mp hm'
    have hab : a = b := by
      rcases Nat.lt_trichotomy a b with hlt | heq | hlt
      · have := h a
        rw [Memory.read_of_above (m := (b, u) :: m') (a := a)] at this
        · simp [Memory.read, hv] at this
        · intro c hc
          rcases List.mem_cons.mp hc with rfl | hc
          · exact hlt
          · exact Nat.lt_trans hlt (hb c hc)
      · exact heq
      · have := h b
        rw [Memory.read_of_above (m := (a, v) :: m) (a := b)] at this
        · simp [Memory.read, hu.symm] at this
        · intro c hc
          rcases List.mem_cons.mp hc with rfl | hc
          · exact hlt
          · exact Nat.lt_trans hlt (ha c hc)
    subst hab
    have hvu : v = u := by simpa [Memory.read] using h a
    subst hvu
    refine congrArg _ (Memory.eq_of_read_eq hr hr' fun c => ?_)
    by_cases hc : c = a
    · subst hc
      rw [Memory.read_of_above ha, Memory.read_of_above hb]
    · simpa [Memory.read, hc] using h c

/-- Writing what is there changes nothing. -/
theorem Memory.write_read_self {m : Memory w} (hm : Memory.wf m = true) (a : Nat) :
    Memory.write m a (Memory.read m a) = m :=
  Memory.eq_of_read_eq (Memory.wf_write hm a _) hm fun c => by
    rw [Memory.read_write]
    split
    · rename_i h; rw [h]
    · rfl

/-! ### Runs of addresses -/

theorem Memory.readMany_eq (m : Memory w) (a count : Nat) :
    Memory.readMany m a count = (List.range count).map fun j => Memory.read m (a + j) := by
  induction count generalizing a with
  | zero => rfl
  | succ k ih =>
    rw [Memory.readMany, ih, List.range_succ_eq_map]
    simp [Nat.add_assoc, Nat.add_comm 1]

theorem Memory.read_writeMany (m : Memory w) (a c : Nat) (vs : List (BitVec w)) :
    Memory.read (Memory.writeMany m a vs) c =
      if a ≤ c ∧ c < a + vs.length then vs.getD (c - a) (powerUp w) else Memory.read m c := by
  induction vs generalizing m a with
  | nil => simp [Memory.writeMany, show ¬(a ≤ c ∧ c < a) by omega]
  | cons v rest ih =>
    rw [Memory.writeMany, ih, Memory.read_write, List.length_cons]
    by_cases h1 : a + 1 ≤ c ∧ c < a + 1 + rest.length
    · rw [if_pos h1, if_pos (by omega), show c - a = (c - (a + 1)) + 1 by omega, List.getD_cons_succ]
    · rw [if_neg h1]
      by_cases h2 : c = a
      · subst h2
        simp
      · rw [if_neg h2, if_neg (by omega)]

end Sys2Proof.Machine
end

