-- ==== Sys2Proof/Laws/State.lean ====
section
/-!
SUPPORT. What each named update of the state does to each field: one lemma per field and update, true by `rfl`.
-/

namespace Sys2Proof.Machine

open Sys2Proof

variable (s : State)

/-! ### `withMem` -/

@[simp] theorem withMem_params (m : Memory 8) : (withMem s m).params = s.params := rfl
@[simp] theorem withMem_status (m : Memory 8) : (withMem s m).status = s.status := rfl
@[simp] theorem withMem_errInfo (m : Memory 8) : (withMem s m).errInfo = s.errInfo := rfl
@[simp] theorem withMem_errAddr (m : Memory 8) : (withMem s m).errAddr = s.errAddr := rfl
@[simp] theorem withMem_result (m : Memory 8) : (withMem s m).result = s.result := rfl
@[simp] theorem withMem_n (m : Memory 8) : (withMem s m).n = s.n := rfl
@[simp] theorem withMem_tboff (m : Memory 8) : (withMem s m).tboff = s.tboff := rfl
@[simp] theorem withMem_wdata (m : Memory 8) : (withMem s m).wdata = s.wdata := rfl
@[simp] theorem withMem_spanS (m : Memory 8) : (withMem s m).spanS = s.spanS := rfl
@[simp] theorem withMem_spanX (m : Memory 8) : (withMem s m).spanX = s.spanX := rfl
@[simp] theorem withMem_spanY (m : Memory 8) : (withMem s m).spanY = s.spanY := rfl
@[simp] theorem withMem_mem (m : Memory 8) : (withMem s m).mem = m := rfl
@[simp] theorem withMem_tbuf (m : Memory 8) : (withMem s m).tbuf = s.tbuf := rfl
@[simp] theorem withMem_inbox (m : Memory 8) : (withMem s m).inbox = s.inbox := rfl
@[simp] theorem withMem_outbox (m : Memory 8) : (withMem s m).outbox = s.outbox := rfl
@[simp] theorem withMem_operand (m : Memory 8) (sp : SpanSel) : operand (withMem s m) sp = operand s sp := by
  cases sp <;> rfl

/-! ### `withTbuf` -/

@[simp] theorem withTbuf_params (c : Memory 2) : (withTbuf s c).params = s.params := rfl
@[simp] theorem withTbuf_status (c : Memory 2) : (withTbuf s c).status = s.status := rfl
@[simp] theorem withTbuf_errInfo (c : Memory 2) : (withTbuf s c).errInfo = s.errInfo := rfl
@[simp] theorem withTbuf_errAddr (c : Memory 2) : (withTbuf s c).errAddr = s.errAddr := rfl
@[simp] theorem withTbuf_result (c : Memory 2) : (withTbuf s c).result = s.result := rfl
@[simp] theorem withTbuf_n (c : Memory 2) : (withTbuf s c).n = s.n := rfl
@[simp] theorem withTbuf_tboff (c : Memory 2) : (withTbuf s c).tboff = s.tboff := rfl
@[simp] theorem withTbuf_wdata (c : Memory 2) : (withTbuf s c).wdata = s.wdata := rfl
@[simp] theorem withTbuf_spanS (c : Memory 2) : (withTbuf s c).spanS = s.spanS := rfl
@[simp] theorem withTbuf_spanX (c : Memory 2) : (withTbuf s c).spanX = s.spanX := rfl
@[simp] theorem withTbuf_spanY (c : Memory 2) : (withTbuf s c).spanY = s.spanY := rfl
@[simp] theorem withTbuf_mem (c : Memory 2) : (withTbuf s c).mem = s.mem := rfl
@[simp] theorem withTbuf_tbuf (c : Memory 2) : (withTbuf s c).tbuf = c := rfl
@[simp] theorem withTbuf_inbox (c : Memory 2) : (withTbuf s c).inbox = s.inbox := rfl
@[simp] theorem withTbuf_outbox (c : Memory 2) : (withTbuf s c).outbox = s.outbox := rfl
@[simp] theorem withTbuf_operand (c : Memory 2) (sp : SpanSel) : operand (withTbuf s c) sp = operand s sp := by
  cases sp <;> rfl

/-! ### `withResult` -/

@[simp] theorem withResult_params (v : RegVal) : (withResult s v).params = s.params := rfl
@[simp] theorem withResult_status (v : RegVal) : (withResult s v).status = s.status := rfl
@[simp] theorem withResult_errInfo (v : RegVal) : (withResult s v).errInfo = s.errInfo := rfl
@[simp] theorem withResult_errAddr (v : RegVal) : (withResult s v).errAddr = s.errAddr := rfl
@[simp] theorem withResult_result (v : RegVal) : (withResult s v).result = v := rfl
@[simp] theorem withResult_n (v : RegVal) : (withResult s v).n = s.n := rfl
@[simp] theorem withResult_tboff (v : RegVal) : (withResult s v).tboff = s.tboff := rfl
@[simp] theorem withResult_wdata (v : RegVal) : (withResult s v).wdata = s.wdata := rfl
@[simp] theorem withResult_spanS (v : RegVal) : (withResult s v).spanS = s.spanS := rfl
@[simp] theorem withResult_spanX (v : RegVal) : (withResult s v).spanX = s.spanX := rfl
@[simp] theorem withResult_spanY (v : RegVal) : (withResult s v).spanY = s.spanY := rfl
@[simp] theorem withResult_mem (v : RegVal) : (withResult s v).mem = s.mem := rfl
@[simp] theorem withResult_tbuf (v : RegVal) : (withResult s v).tbuf = s.tbuf := rfl
@[simp] theorem withResult_inbox (v : RegVal) : (withResult s v).inbox = s.inbox := rfl
@[simp] theorem withResult_outbox (v : RegVal) : (withResult s v).outbox = s.outbox := rfl
@[simp] theorem withResult_operand (v : RegVal) (sp : SpanSel) : operand (withResult s v) sp = operand s sp := by
  cases sp <;> rfl

/-! ### `withWdata` -/

@[simp] theorem withWdata_params (w : MWord) : (withWdata s w).params = s.params := rfl
@[simp] theorem withWdata_status (w : MWord) : (withWdata s w).status = s.status := rfl
@[simp] theorem withWdata_errInfo (w : MWord) : (withWdata s w).errInfo = s.errInfo := rfl
@[simp] theorem withWdata_errAddr (w : MWord) : (withWdata s w).errAddr = s.errAddr := rfl
@[simp] theorem withWdata_result (w : MWord) : (withWdata s w).result = s.result := rfl
@[simp] theorem withWdata_n (w : MWord) : (withWdata s w).n = s.n := rfl
@[simp] theorem withWdata_tboff (w : MWord) : (withWdata s w).tboff = s.tboff := rfl
@[simp] theorem withWdata_wdata (w : MWord) : (withWdata s w).wdata = w := rfl
@[simp] theorem withWdata_spanS (w : MWord) : (withWdata s w).spanS = s.spanS := rfl
@[simp] theorem withWdata_spanX (w : MWord) : (withWdata s w).spanX = s.spanX := rfl
@[simp] theorem withWdata_spanY (w : MWord) : (withWdata s w).spanY = s.spanY := rfl
@[simp] theorem withWdata_mem (w : MWord) : (withWdata s w).mem = s.mem := rfl
@[simp] theorem withWdata_tbuf (w : MWord) : (withWdata s w).tbuf = s.tbuf := rfl
@[simp] theorem withWdata_inbox (w : MWord) : (withWdata s w).inbox = s.inbox := rfl
@[simp] theorem withWdata_outbox (w : MWord) : (withWdata s w).outbox = s.outbox := rfl
@[simp] theorem withWdata_operand (w : MWord) (sp : SpanSel) : operand (withWdata s w) sp = operand s sp := by
  cases sp <;> rfl

/-! ### `withInbox` -/

@[simp] theorem withInbox_params (q : List HostAction) : (withInbox s q).params = s.params := rfl
@[simp] theorem withInbox_status (q : List HostAction) : (withInbox s q).status = s.status := rfl
@[simp] theorem withInbox_errInfo (q : List HostAction) : (withInbox s q).errInfo = s.errInfo := rfl
@[simp] theorem withInbox_errAddr (q : List HostAction) : (withInbox s q).errAddr = s.errAddr := rfl
@[simp] theorem withInbox_result (q : List HostAction) : (withInbox s q).result = s.result := rfl
@[simp] theorem withInbox_n (q : List HostAction) : (withInbox s q).n = s.n := rfl
@[simp] theorem withInbox_tboff (q : List HostAction) : (withInbox s q).tboff = s.tboff := rfl
@[simp] theorem withInbox_wdata (q : List HostAction) : (withInbox s q).wdata = s.wdata := rfl
@[simp] theorem withInbox_spanS (q : List HostAction) : (withInbox s q).spanS = s.spanS := rfl
@[simp] theorem withInbox_spanX (q : List HostAction) : (withInbox s q).spanX = s.spanX := rfl
@[simp] theorem withInbox_spanY (q : List HostAction) : (withInbox s q).spanY = s.spanY := rfl
@[simp] theorem withInbox_mem (q : List HostAction) : (withInbox s q).mem = s.mem := rfl
@[simp] theorem withInbox_tbuf (q : List HostAction) : (withInbox s q).tbuf = s.tbuf := rfl
@[simp] theorem withInbox_inbox (q : List HostAction) : (withInbox s q).inbox = q := rfl
@[simp] theorem withInbox_outbox (q : List HostAction) : (withInbox s q).outbox = s.outbox := rfl
@[simp] theorem withInbox_operand (q : List HostAction) (sp : SpanSel) : operand (withInbox s q) sp = operand s sp := by
  cases sp <;> rfl

/-! ### `withReply` -/

@[simp] theorem withReply_params (r : HostReply) : (withReply s r).params = s.params := rfl
@[simp] theorem withReply_status (r : HostReply) : (withReply s r).status = s.status := rfl
@[simp] theorem withReply_errInfo (r : HostReply) : (withReply s r).errInfo = s.errInfo := rfl
@[simp] theorem withReply_errAddr (r : HostReply) : (withReply s r).errAddr = s.errAddr := rfl
@[simp] theorem withReply_result (r : HostReply) : (withReply s r).result = s.result := rfl
@[simp] theorem withReply_n (r : HostReply) : (withReply s r).n = s.n := rfl
@[simp] theorem withReply_tboff (r : HostReply) : (withReply s r).tboff = s.tboff := rfl
@[simp] theorem withReply_wdata (r : HostReply) : (withReply s r).wdata = s.wdata := rfl
@[simp] theorem withReply_spanS (r : HostReply) : (withReply s r).spanS = s.spanS := rfl
@[simp] theorem withReply_spanX (r : HostReply) : (withReply s r).spanX = s.spanX := rfl
@[simp] theorem withReply_spanY (r : HostReply) : (withReply s r).spanY = s.spanY := rfl
@[simp] theorem withReply_mem (r : HostReply) : (withReply s r).mem = s.mem := rfl
@[simp] theorem withReply_tbuf (r : HostReply) : (withReply s r).tbuf = s.tbuf := rfl
@[simp] theorem withReply_inbox (r : HostReply) : (withReply s r).inbox = s.inbox := rfl
@[simp] theorem withReply_outbox (r : HostReply) : (withReply s r).outbox = s.outbox ++ [r] := rfl
@[simp] theorem withReply_operand (r : HostReply) (sp : SpanSel) : operand (withReply s r) sp = operand s sp := by
  cases sp <;> rfl

/-! ### `takeError` -/

@[simp] theorem takeError_params (e : Err) : (takeError e s).params = s.params := rfl
@[simp] theorem takeError_status (e : Err) : (takeError e s).status = withErrField s.status (errCode e.kind) := rfl
@[simp] theorem takeError_errInfo (e : Err) : (takeError e s).errInfo = e.info := rfl
@[simp] theorem takeError_errAddr (e : Err) : (takeError e s).errAddr = e.addr := rfl
@[simp] theorem takeError_result (e : Err) : (takeError e s).result = s.result := rfl
@[simp] theorem takeError_n (e : Err) : (takeError e s).n = s.n := rfl
@[simp] theorem takeError_tboff (e : Err) : (takeError e s).tboff = s.tboff := rfl
@[simp] theorem takeError_wdata (e : Err) : (takeError e s).wdata = s.wdata := rfl
@[simp] theorem takeError_spanS (e : Err) : (takeError e s).spanS = s.spanS := rfl
@[simp] theorem takeError_spanX (e : Err) : (takeError e s).spanX = s.spanX := rfl
@[simp] theorem takeError_spanY (e : Err) : (takeError e s).spanY = s.spanY := rfl
@[simp] theorem takeError_mem (e : Err) : (takeError e s).mem = s.mem := rfl
@[simp] theorem takeError_tbuf (e : Err) : (takeError e s).tbuf = s.tbuf := rfl
@[simp] theorem takeError_inbox (e : Err) : (takeError e s).inbox = s.inbox := rfl
@[simp] theorem takeError_outbox (e : Err) : (takeError e s).outbox = s.outbox := rfl
@[simp] theorem takeError_operand (e : Err) (sp : SpanSel) : operand (takeError e s) sp = operand s sp := by
  cases sp <;> rfl

/-! ### `clearError` -/

@[simp] theorem clearError_params : (clearError s).params = s.params := rfl
@[simp] theorem clearError_status : (clearError s).status = withErrField s.status 0 := rfl
@[simp] theorem clearError_errInfo : (clearError s).errInfo = 0 := rfl
@[simp] theorem clearError_errAddr : (clearError s).errAddr = 0 := rfl
@[simp] theorem clearError_result : (clearError s).result = s.result := rfl
@[simp] theorem clearError_n : (clearError s).n = s.n := rfl
@[simp] theorem clearError_tboff : (clearError s).tboff = s.tboff := rfl
@[simp] theorem clearError_wdata : (clearError s).wdata = s.wdata := rfl
@[simp] theorem clearError_spanS : (clearError s).spanS = s.spanS := rfl
@[simp] theorem clearError_spanX : (clearError s).spanX = s.spanX := rfl
@[simp] theorem clearError_spanY : (clearError s).spanY = s.spanY := rfl
@[simp] theorem clearError_mem : (clearError s).mem = s.mem := rfl
@[simp] theorem clearError_tbuf : (clearError s).tbuf = s.tbuf := rfl
@[simp] theorem clearError_inbox : (clearError s).inbox = s.inbox := rfl
@[simp] theorem clearError_outbox : (clearError s).outbox = s.outbox := rfl
@[simp] theorem clearError_operand (sp : SpanSel) : operand (clearError s) sp = operand s sp := by
  cases sp <;> rfl

/-! ### `resetRegisters` -/

@[simp] theorem resetRegisters_params : (resetRegisters s).params = s.params := rfl
@[simp] theorem resetRegisters_status : (resetRegisters s).status = 0 := rfl
@[simp] theorem resetRegisters_errInfo : (resetRegisters s).errInfo = 0 := rfl
@[simp] theorem resetRegisters_errAddr : (resetRegisters s).errAddr = 0 := rfl
@[simp] theorem resetRegisters_result : (resetRegisters s).result = 0 := rfl
@[simp] theorem resetRegisters_n : (resetRegisters s).n = 0 := rfl
@[simp] theorem resetRegisters_tboff : (resetRegisters s).tboff = 0 := rfl
@[simp] theorem resetRegisters_wdata : (resetRegisters s).wdata = 0 := rfl
@[simp] theorem resetRegisters_spanS : (resetRegisters s).spanS = { base := 0, len := 0, off := 0 } := rfl
@[simp] theorem resetRegisters_spanX : (resetRegisters s).spanX = { base := 0, len := 0, off := 0 } := rfl
@[simp] theorem resetRegisters_spanY : (resetRegisters s).spanY = { base := 0, len := 0, off := 0 } := rfl
@[simp] theorem resetRegisters_mem : (resetRegisters s).mem = s.mem := rfl
@[simp] theorem resetRegisters_tbuf : (resetRegisters s).tbuf = s.tbuf := rfl
@[simp] theorem resetRegisters_inbox : (resetRegisters s).inbox = s.inbox := rfl
@[simp] theorem resetRegisters_outbox : (resetRegisters s).outbox = s.outbox := rfl

/-! ### Updates of the same field, and updates that change nothing -/

@[simp] theorem withMem_withMem (m m' : Memory 8) : withMem (withMem s m) m' = withMem s m' := rfl
@[simp] theorem withTbuf_withTbuf (c c' : Memory 2) : withTbuf (withTbuf s c) c' = withTbuf s c' := rfl
@[simp] theorem withMem_self : withMem s s.mem = s := rfl
@[simp] theorem withTbuf_self : withTbuf s s.tbuf = s := rfl
@[simp] theorem withInbox_self : withInbox s s.inbox = s := rfl

/-! ### The fields of `STATUS` -/

@[simp] theorem errField_withErrField (v : RegVal) (c : BitVec 4) : errField (withErrField v c) = c := by
  unfold errField withErrField
  ext i hi
  interval_cases i <;> simp [BitVec.getElem_extractLsb']

@[simp] theorem withErrField_rest (v : RegVal) (c : BitVec 4) :
    withErrField v c &&& 0xFFFFFF0F#32 = v &&& 0xFFFFFF0F#32 := by
  unfold withErrField
  ext i hi
  interval_cases i <;> simp

end Sys2Proof.Machine
end

