-- ==== Sys2Proof/Laws/Run.lean ====
section
/-!
SUPPORT. How pseudocode runs: one lemma per primitive that says what it answers, and the loops.
-/

namespace Sys2Proof.Machine

open Sys2Proof

variable {α β : Type}

/-! ### Sequencing -/

@[simp] theorem Cmd.ret_apply (a : α) (s : State) : Cmd.ret a s = .done a s := rfl

@[simp] theorem Cmd.raise_apply (kind : ErrKind) (info addr : RegVal) (s : State) :
    (Cmd.raise kind info addr : Cmd α) s = .raised { kind := kind, info := info, addr := addr } s := rfl

theorem Cmd.bind_done {m : Cmd α} {k : α → Cmd β} {s t : State} {a : α} (h : m s = .done a t) :
    Cmd.bind m k s = k a t := by simp [Cmd.bind, h]

theorem Cmd.bind_raised {m : Cmd α} {k : α → Cmd β} {s t : State} {e : Err} (h : m s = .raised e t) :
    Cmd.bind m k s = .raised e t := by simp [Cmd.bind, h]

theorem Cmd.bind_absent {m : Cmd α} {k : α → Cmd β} {s : State} {f : Fault} (h : m s = .absent f) :
    Cmd.bind m k s = .absent f := by simp [Cmd.bind, h]

/-- What a sequence can do: its first piece ends it, or the second runs on what the first left. -/
theorem Cmd.bind_cases (m : Cmd α) (k : α → Cmd β) (s : State) :
    (∃ a t, m s = .done a t ∧ Cmd.bind m k s = k a t) ∨
    (∃ e t, m s = .raised e t ∧ Cmd.bind m k s = .raised e t) ∨
    (∃ f, m s = .absent f ∧ Cmd.bind m k s = .absent f) := by
  cases h : m s with
  | done a t => exact .inl ⟨a, t, rfl, Cmd.bind_done h⟩
  | raised e t => exact .inr (.inl ⟨e, t, rfl, Cmd.bind_raised h⟩)
  | absent f => exact .inr (.inr ⟨f, rfl, Cmd.bind_absent h⟩)

/-! ### Single accesses -/

theorem memRead_done {addr : Nat} {s : State} (h : addr < s.params.memWords) :
    memRead addr s = .done (Memory.read s.mem addr) s := if_pos h

theorem memWrite_done {addr : Nat} {w : MWord} {s : State} (h : addr < s.params.memWords) :
    memWrite addr w s = .done () (withMem s (Memory.write s.mem addr w)) := if_pos h

theorem tbufRead_done {c : Nat} {s : State} (h : c < s.params.tbufCells) :
    tbufRead c s = .done (Memory.read s.tbuf c) s := if_pos h

theorem tbufWrite_done {c : Nat} {v : SymCode} {s : State} (h : c < s.params.tbufCells) :
    tbufWrite c v s = .done () (withTbuf s (Memory.write s.tbuf c v)) := if_pos h

theorem decodeAt_legal {e : Enc} {o : Operand} {addr : Nat} {s : State} (h : addr < s.params.memWords)
    (hl : legal e (Memory.read s.mem addr) = true) :
    decodeAt e o addr s = .done (dec e (Memory.read s.mem addr)) s := by
  rw [decodeAt, Cmd.bind_done (memRead_done h), if_pos hl]
  rfl

theorem decodeAt_illegal {e : Enc} {o : Operand} {addr : Nat} {s : State} (h : addr < s.params.memWords)
    (hl : ¬legal e (Memory.read s.mem addr) = true) :
    decodeAt e o addr s =
      .raised { kind := .illegalWord, info := spanCode o.sel, addr := BitVec.ofNat 32 addr } s := by
  rw [decodeAt, Cmd.bind_done (memRead_done h), if_neg hl]
  rfl

/-! ### Loops over a memory: the rest of the state stays what it was -/

/-- A loop whose every pass takes memory from `P k` to `P (k + 1)` takes it from the first to the last. -/
theorem Cmd.forUp_done {body : Nat → Cmd Unit} {s : State} (P : Nat → Memory 8 → Prop) :
    ∀ (count k0 : Nat) (m : Memory 8),
      (∀ k m, k0 ≤ k → k < k0 + count → P k m →
        ∃ m', body k (withMem s m) = .done () (withMem s m') ∧ P (k + 1) m') →
      P k0 m →
      ∃ m', Cmd.forUp body count k0 (withMem s m) = .done () (withMem s m') ∧ P (k0 + count) m'
  | 0, k0, m, _, h0 => ⟨m, rfl, h0⟩
  | count + 1, k0, m, step, h0 => by
    obtain ⟨m1, h1, hP1⟩ := step k0 m (Nat.le_refl _) (by omega) h0
    obtain ⟨m2, h2, hP2⟩ := Cmd.forUp_done P count (k0 + 1) m1
      (fun k m hk hk' => step k m (by omega) (by omega)) hP1
    refine ⟨m2, ?_, by rwa [show k0 + (count + 1) = k0 + 1 + count by omega]⟩
    rw [Cmd.forUp, Cmd.bind_done h1, h2]

/-- A loop one of whose passes raises an error ends there, with what the passes before it did. -/
theorem Cmd.forUp_raised {body : Nat → Cmd Unit} {s : State} {err : Err} (P : Nat → Memory 8 → Prop) (j : Nat)
    (Q : Memory 8 → Prop) :
    ∀ (count k0 : Nat) (m : Memory 8), k0 ≤ j → j < k0 + count →
      (∀ k m, k0 ≤ k → k < j → P k m →
        ∃ m', body k (withMem s m) = .done () (withMem s m') ∧ P (k + 1) m') →
      (∀ m, P j m → ∃ m', body j (withMem s m) = .raised err (withMem s m') ∧ Q m') →
      P k0 m →
      ∃ m', Cmd.forUp body count k0 (withMem s m) = .raised err (withMem s m') ∧ Q m'
  | 0, k0, m, hj, hj', _, _, _ => absurd hj' (by omega)
  | count + 1, k0, m, hj, hj', step, last, h0 => by
    by_cases h : k0 = j
    · subst h
      obtain ⟨m', h1, hQ⟩ := last m h0
      exact ⟨m', by rw [Cmd.forUp, Cmd.bind_raised h1], hQ⟩
    · obtain ⟨m1, h1, hP1⟩ := step k0 m (Nat.le_refl _) (by omega) h0
      obtain ⟨m2, h2, hQ⟩ := Cmd.forUp_raised P j Q count (k0 + 1) m1 (by omega) (by omega)
        (fun k m hk hk' => step k m (by omega) hk') last hP1
      exact ⟨m2, by rw [Cmd.forUp, Cmd.bind_done h1, h2], hQ⟩

/-! ### The end of a command -/

@[simp] theorem finish_done (a : Unit) (s : State) : finish (.done a s) = .next s := rfl
@[simp] theorem finish_raised (e : Err) (s : State) : finish (.raised e s) = .next (takeError e s) := rfl
@[simp] theorem finish_absent (f : Fault) : finish (.absent f) = .fault f := rfl

theorem finish_next_iff (r : Res Unit) (t : State) :
    finish r = .next t ↔ r = .done () t ∨ ∃ e s, r = .raised e s ∧ t = takeError e s := by
  cases r with
  | done a s => simp
  | raised e s =>
    simp only [finish_raised, Host.Outcome.next.injEq, reduceCtorEq, false_or, Res.raised.injEq]
    constructor
    · rintro rfl
      exact ⟨e, s, ⟨rfl, rfl⟩, rfl⟩
    · rintro ⟨_, _, ⟨rfl, rfl⟩, rfl⟩
      rfl
  | absent f => simp

/-! ### Immediates and the frame -/

theorem immediate_some {e : Enc} {c : SymCode} {v : Sym} (h : uncode e c = some v) (which : RegVal)
    (k : Sym → Cmd Unit) : immediate e c which k = k v := by simp [immediate, h]

theorem immediate_none {e : Enc} {c : SymCode} (h : uncode e c = none) (which : RegVal) (k : Sym → Cmd Unit) :
    immediate e c which k = Cmd.raise .illegalSymbol immInfo which := by simp [immediate, h]

/-- What the frame can do (30_encoding.md R111 steps 4 to 7). -/
theorem framed_cases (u : Uses) (z : Cmd Unit) (body : Nat → Cmd Unit) (s : State) :
    (u.counted = true ∧ s.n = 0 ∧ framed u z body s = z s) ∨
    (¬(u.counted = true ∧ s.n = 0) ∧ ∃ e, boundsError u s = some e ∧ framed u z body s = .raised e s) ∨
    (¬(u.counted = true ∧ s.n = 0) ∧ boundsError u s = none ∧
      ∃ e, overlapError u s = some e ∧ framed u z body s = .raised e s) ∨
    (¬(u.counted = true ∧ s.n = 0) ∧ boundsError u s = none ∧ overlapError u s = none ∧
      framed u z body s = body (u.count s) s) := by
  unfold framed
  by_cases h : u.counted = true ∧ s.n = 0
  · exact .inl ⟨h.1, h.2, if_pos h⟩
  · rw [if_neg h]
    cases hb : boundsError u s with
    | some e => exact .inr (.inl ⟨h, e, rfl, rfl⟩)
    | none =>
      cases ho : overlapError u s with
      | some e => exact .inr (.inr (.inl ⟨h, rfl, e, rfl, rfl⟩))
      | none => exact .inr (.inr (.inr ⟨h, rfl, rfl, rfl⟩))

theorem framed_body {u : Uses} {s : State} (z : Cmd Unit) (body : Nat → Cmd Unit)
    (hn : u.counted = true → s.n ≠ 0) (hb : boundsError u s = none) (ho : overlapError u s = none) :
    framed u z body s = body (u.count s) s := by
  unfold framed
  rw [if_neg (fun h => hn h.1 h.2), hb, ho]

theorem framed_zero {u : Uses} {s : State} (z : Cmd Unit) (body : Nat → Cmd Unit) (hc : u.counted = true)
    (hn : s.n = 0) : framed u z body s = z s := if_pos ⟨hc, hn⟩

end Sys2Proof.Machine
end

