-- ==== Sys2Proof/Laws/Symbols.lean ====
section
/-!
SUPPORT. Memory as a sequence of symbols: what `GetSym` and `PutSym` do, symbol by symbol.
-/

namespace Sys2Proof.Machine

open Sys2Proof

/-- The symbol at an absolute symbol address of a memory. -/
def symIn (e : Enc) (m : Memory 8) (j : Nat) : Sym := symAtIndex (dec e (Memory.read m (j / e.size))) (j % e.size)

/-- The memory with the symbol at an absolute symbol address replaced. -/
def putIn (e : Enc) (m : Memory 8) (p : Nat) (v : Sym) : Memory 8 :=
  Memory.write m (p / e.size) (enc e ((dec e (Memory.read m (p / e.size))).set (p % e.size) v))

/-- The word at an address of a memory is legal. -/
abbrev legalIn (e : Enc) (m : Memory 8) (a : Nat) : Prop := legal e (Memory.read m a) = true

theorem symAt_eq (s : State) (j : Nat) : symAt s j = symIn s.params.enc s.mem j := rfl

/-! ### Addresses (20_memory.md R73) -/

theorem Operand.wa_eq (e : Enc) (o : Operand) (k : Nat) : o.wa e k = (o.abs e + k) / e.size := by
  unfold Operand.wa Operand.abs
  rw [Nat.add_assoc, Nat.add_comm (o.base * e.size), Nat.add_mul_div_right _ _ (size_pos e), Nat.add_comm]

theorem Operand.ix_eq (e : Enc) (o : Operand) (k : Nat) : o.ix e k = (o.abs e + k) % e.size := by
  unfold Operand.ix Operand.abs
  rw [Nat.add_assoc, Nat.mul_comm, Nat.mul_add_mod]

/-- With a valid span every symbol lies in the array, and so in `M` (20_memory.md R74). -/
theorem Operand.wa_lt {e : Enc} {o : Operand} {n k bound : Nat} (hb : o.base + o.len ≤ bound)
    (hn : o.off + n ≤ o.len * e.size) (hk : k < n) : o.wa e k < bound := by
  unfold Operand.wa
  have : (o.off + k) / e.size < o.len := by
    rw [Nat.div_lt_iff_lt_mul (size_pos e)]
    omega
  omega

theorem Operand.wa_ge (e : Enc) (o : Operand) (k : Nat) : o.base ≤ o.wa e k := Nat.le_add_right _ _

/-! ### One symbol replaced -/

theorem symAtIndex_set (a : List Sym) {i : Nat} (j : Nat) (v : Sym) (hi : i < a.length) :
    symAtIndex (a.set i v) j = if j = i then v else symAtIndex a j := by
  unfold symAtIndex
  by_cases h : j = i
  · subst h; simp [List.getD_eq_getElem?_getD, hi]
  · simp [h, List.getD_eq_getElem?_getD, List.getElem?_set_ne (Ne.symm h)]

theorem read_putIn_ne (e : Enc) (m : Memory 8) {p a : Nat} (v : Sym) (h : a ≠ p / e.size) :
    Memory.read (putIn e m p v) a = Memory.read m a := Memory.read_write_ne m h _

theorem inAlphabet_set {e : Enc} {a : List Sym} {v : Sym} (ha : ∀ x ∈ a, inAlphabet e x = true)
    (hv : inAlphabet e v = true) (i : Nat) : ∀ x ∈ a.set i v, inAlphabet e x = true := by
  intro x hx
  rcases List.mem_or_eq_of_mem_set hx with h | rfl
  · exact ha x h
  · exact hv

theorem symIn_putIn {e : Enc} (m : Memory 8) (p j : Nat) {v : Sym} (hv : inAlphabet e v = true) :
    symIn e (putIn e m p v) j = if j = p then v else symIn e m j := by
  unfold symIn
  by_cases hw : j / e.size = p / e.size
  · rw [hw, putIn, Memory.read_write_same, dec_enc (by simp) (inAlphabet_set inAlphabet_dec hv _),
      symAtIndex_set _ _ _ (by simpa using Nat.mod_lt p (size_pos e))]
    have : j % e.size = p % e.size ↔ j = p := by
      constructor
      · intro h
        rw [← Nat.div_add_mod j e.size, ← Nat.div_add_mod p e.size, hw, h]
      · rintro rfl; rfl
    simp only [this]
  · rw [read_putIn_ne e m v hw, if_neg]
    rintro rfl
    exact hw rfl

theorem legalIn_putIn {e : Enc} (m : Memory 8) (p a : Nat) (v : Sym) (h : legalIn e m (p / e.size)) :
    legalIn e (putIn e m p v) a ↔ legalIn e m a := by
  by_cases ha : a = p / e.size
  · subst ha
    rw [legalIn, putIn, Memory.read_write_same]
    exact iff_of_true (legal_enc (by simp)) h
  · rw [legalIn, read_putIn_ne e m v ha]

theorem inAlphabet_symIn (e : Enc) (m : Memory 8) (j : Nat) : inAlphabet e (symIn e m j) = true := by
  unfold symIn symAtIndex
  rw [List.getD_eq_getElem?_getD]
  cases h : (dec e (Memory.read m (j / e.size)))[j % e.size]? with
  | none => exact inAlphabet_zero e
  | some v => exact inAlphabet_dec v (List.mem_of_getElem? h)

/-- Two memories whose legal words hold the same symbols hold the same words there. -/
theorem read_eq_of_symIn_eq {e : Enc} {m m' : Memory 8} {a : Nat} (h : legalIn e m a) (h' : legalIn e m' a)
    (hs : ∀ i, i < e.size → symIn e m (a * e.size + i) = symIn e m' (a * e.size + i)) :
    Memory.read m a = Memory.read m' a := by
  rw [← enc_dec h, ← enc_dec h']
  congr 1
  refine List.ext_getElem (by simp) fun i hi _ => ?_
  have hi' : i < e.size := by simpa using hi
  have := hs i hi'
  unfold symIn symAtIndex at this
  rw [Nat.mul_comm, Nat.mul_add_div (size_pos e), Nat.div_eq_of_lt hi', Nat.add_zero, Nat.mul_add_mod,
    Nat.mod_eq_of_lt hi'] at this
  simpa [List.getD_eq_getElem?_getD, hi'] using this

/-! ### `GetSym` and `PutSym` (20_memory.md R81, R82) -/

theorem getSym_legal {e : Enc} {o : Operand} {k : Nat} {s : State} (h : o.wa e k < s.params.memWords)
    (hl : legalIn e s.mem (o.wa e k)) : getSym e o k s = .done (symIn e s.mem (o.abs e + k)) s := by
  rw [getSym, Cmd.bind_done (decodeAt_legal h hl), Cmd.ret_apply, symIn, ← o.wa_eq, ← o.ix_eq]

theorem getSym_illegal {e : Enc} {o : Operand} {k : Nat} {s : State} (h : o.wa e k < s.params.memWords)
    (hl : ¬legalIn e s.mem (o.wa e k)) :
    getSym e o k s =
      .raised { kind := .illegalWord, info := spanCode o.sel, addr := BitVec.ofNat 32 (o.wa e k) } s := by
  rw [getSym, Cmd.bind_raised (decodeAt_illegal h hl)]

theorem putSym_legal {e : Enc} {o : Operand} {k : Nat} {s : State} (v : Sym) (h : o.wa e k < s.params.memWords)
    (hl : legalIn e s.mem (o.wa e k)) :
    putSym e o k v s = .done () (withMem s (putIn e s.mem (o.abs e + k) v)) := by
  rw [putSym, Cmd.bind_done (decodeAt_legal h hl), memWrite_done h, putIn, ← o.wa_eq, ← o.ix_eq]

theorem putSym_illegal {e : Enc} {o : Operand} {k : Nat} {s : State} (v : Sym) (h : o.wa e k < s.params.memWords)
    (hl : ¬legalIn e s.mem (o.wa e k)) :
    putSym e o k v s =
      .raised { kind := .illegalWord, info := spanCode o.sel, addr := BitVec.ofNat 32 (o.wa e k) } s := by
  rw [putSym, Cmd.bind_raised (decodeAt_illegal h hl)]

end Sys2Proof.Machine
end

