-- ==== Sys2Proof/Laws/Spans.lean ====
section
/-!
SUPPORT. The checks of the frame, and the words a span touches: what each says in terms of the symbols of the span.
-/

namespace Sys2Proof.Machine

open Sys2Proof

/-! ### The checks (30_encoding.md R111 steps 5 and 6) -/

theorem mem_allSpans (sp : SpanSel) : sp ∈ [SpanSel.s, .x, .y] := by cases sp <;> decide

theorem Operand.valid_iff (p : Params) (o : Operand) (n : Nat) :
    o.valid p n = true ↔ o.base + o.len ≤ p.memWords ∧ o.off + n ≤ o.len * p.enc.size := by simp [Operand.valid]

/-- The bounds checks pass when every span used is valid and the cells used lie inside TBUF. -/
theorem boundsError_none_iff (u : Uses) (s : State) :
    boundsError u s = none ↔
      (∀ sp ∈ u.spans, (operand s sp).valid s.params (u.count s) = true) ∧
        (u.cells ≠ .none → s.tboff.toNat + u.cellCount s ≤ s.params.tbufCells) := by
  unfold boundsError
  split
  · rename_i sp h
    have := List.find?_some h
    simp only [Bool.and_eq_true, decide_eq_true_eq, Bool.not_eq_true'] at this
    simp only [reduceCtorEq, false_iff]
    intro hall
    rw [hall.1 sp this.1] at this
    exact absurd this.2 (by decide)
  · rename_i h
    rw [List.find?_eq_none] at h
    have hv : ∀ sp ∈ u.spans, (operand s sp).valid s.params (u.count s) = true := by
      intro sp hsp
      have := h sp (mem_allSpans sp)
      simpa [hsp] using this
    split
    · rename_i hc
      simp only [reduceCtorEq, false_iff]
      intro hall
      have := hall.2 hc.1
      omega
    · rename_i hc
      simp only [true_iff]
      exact ⟨hv, fun hu => by by_contra hlt; exact hc ⟨hu, by omega⟩⟩

/-- What a failed bounds check carries (60_exceptions.md R243). -/
theorem boundsError_some {u : Uses} {s : State} {e : Err} (h : boundsError u s = some e) :
    (∃ sp, e = { kind := .bounds, info := spanCode sp, addr := 0 }) ∨
      e = { kind := .bounds, info := tbufCode, addr := 0 } := by
  unfold boundsError at h
  split at h
  · rename_i sp _
    exact .inl ⟨sp, (Option.some.inj h).symm⟩
  · split at h
    · exact .inr (Option.some.inj h).symm
    · exact absurd h (by simp)

theorem find_span {q : SpanSel → Bool} {sp : SpanSel} (h : q sp = true)
    (hp : ∀ sp', (spanCode sp').toNat < (spanCode sp).toNat → q sp' = false) :
    [SpanSel.s, .x, .y].find? q = some sp := by
  cases sp
  · simp [h]
  · simp [h, hp .s (by decide)]
  · simp [h, hp .s (by decide), hp .x (by decide)]

/-- The span group with the lower number is checked first (60_exceptions.md R243). -/
theorem boundsError_span {u : Uses} {s : State} {sp : SpanSel} (hu : sp ∈ u.spans)
    (hv : (operand s sp).valid s.params (u.count s) = false)
    (hp : ∀ sp' ∈ u.spans, (spanCode sp').toNat < (spanCode sp).toNat →
      (operand s sp').valid s.params (u.count s) = true) :
    boundsError u s = some { kind := .bounds, info := spanCode sp, addr := 0 } := by
  have key := find_span (q := fun sp => decide (sp ∈ u.spans) && !(operand s sp).valid s.params (u.count s))
    (sp := sp) (by simp [hu, hv]) fun sp' hlt => by
      by_cases hm : sp' ∈ u.spans
      · simp [hp sp' hm hlt]
      · simp [hm]
  unfold boundsError
  rw [key]

/-- TBUF is checked after the spans. -/
theorem boundsError_tbuf {u : Uses} {s : State} (hc : u.cells ≠ .none)
    (hlt : s.params.tbufCells < s.tboff.toNat + u.cellCount s)
    (hv : ∀ sp ∈ u.spans, (operand s sp).valid s.params (u.count s) = true) :
    boundsError u s = some { kind := .bounds, info := tbufCode, addr := 0 } := by
  have key : [SpanSel.s, .x, .y].find? (fun sp =>
      decide (sp ∈ u.spans) && !(operand s sp).valid s.params (u.count s)) = none := by
    rw [List.find?_eq_none]
    intro sp _
    by_cases hm : sp ∈ u.spans
    · simp [hv sp hm]
    · simp [hm]
  unfold boundsError
  rw [key]
  exact if_pos ⟨hc, hlt⟩

/-- A pair of groups that a command uses is refused by the overlap rule. -/
def clashes (u : Uses) (s : State) (a b : SpanSel) : Bool :=
  decide (a ∈ u.spans) && decide (b ∈ u.spans) && pairClash u s a b

/-- What the overlap check answers, pair by pair (60_exceptions.md R244). -/
theorem overlapError_eq (u : Uses) (s : State) :
    overlapError u s =
      if clashes u s .s .x then some { kind := .overlap, info := 4, addr := 0 }
      else if clashes u s .s .y then some { kind := .overlap, info := 8, addr := 0 }
      else if clashes u s .x .y then some { kind := .overlap, info := 9, addr := 0 }
      else none := by
  unfold overlapError
  by_cases h1 : clashes u s .s .x = true
  · rw [if_pos h1, List.find?_cons_of_pos (by exact h1)]
    rfl
  · rw [if_neg h1, List.find?_cons_of_neg (by exact h1)]
    by_cases h2 : clashes u s .s .y = true
    · rw [if_pos h2, List.find?_cons_of_pos (by exact h2)]
      rfl
    · rw [if_neg h2, List.find?_cons_of_neg (by exact h2)]
      by_cases h3 : clashes u s .x .y = true
      · rw [if_pos h3, List.find?_cons_of_pos (by exact h3)]
        rfl
      · rw [if_neg h3, List.find?_cons_of_neg (by exact h3)]
        rfl

theorem clashes_eq_false {u : Uses} {s : State} {a b : SpanSel} :
    clashes u s a b = false ↔ (a ∈ u.spans → b ∈ u.spans → pairClash u s a b = false) := by
  unfold clashes
  by_cases ha : a ∈ u.spans <;> by_cases hb : b ∈ u.spans <;> simp [ha, hb]

theorem overlapError_none_iff (u : Uses) (s : State) :
    overlapError u s = none ↔
      clashes u s .s .x = false ∧ clashes u s .s .y = false ∧ clashes u s .x .y = false := by
  rw [overlapError_eq]
  cases clashes u s .s .x <;> cases clashes u s .s .y <;> cases clashes u s .x .y <;> simp

theorem overlapError_some {u : Uses} {s : State} {e : Err} (h : overlapError u s = some e) :
    e.kind = .overlap ∧ (e.info = 4 ∨ e.info = 8 ∨ e.info = 9) ∧ e.addr = 0 := by
  rw [overlapError_eq] at h
  split at h
  · cases h; simp
  · split at h
    · cases h; simp
    · split at h
      · cases h; simp
      · exact absurd h (by simp)

theorem disjointSpans_iff (e : Enc) (a b : Operand) (n : Nat) :
    disjointSpans e a b n = true ↔ a.abs e + n ≤ b.abs e ∨ b.abs e + n ≤ a.abs e := by simp [disjointSpans]

theorem identicalSpans_iff (e : Enc) (a b : Operand) : identicalSpans e a b = true ↔ a.abs e = b.abs e := by
  simp [identicalSpans]

theorem disjointSpans_comm (e : Enc) (a b : Operand) (n : Nat) : disjointSpans e a b n = disjointSpans e b a n := by
  simp [disjointSpans, or_comm]

theorem identicalSpans_comm (e : Enc) (a b : Operand) : identicalSpans e a b = identicalSpans e b a := by
  simp [identicalSpans, eq_comm]

/-- What the overlap rule asks of a pair (20_memory.md R77). -/
theorem pairClash_eq_false {u : Uses} {s : State} {a b : SpanSel} :
    pairClash u s a b = false ↔
      match u.pair a b with
      | .notChecked => True
      | .mayBeIdentical => absOf s a = absOf s b ∨
          (absOf s a + u.count s ≤ absOf s b ∨ absOf s b + u.count s ≤ absOf s a)
      | .mustBeDisjoint => absOf s a + u.count s ≤ absOf s b ∨ absOf s b + u.count s ≤ absOf s a := by
  unfold pairClash
  cases u.pair a b
  · simp only [Bool.not_eq_false']
    exact disjointSpans_iff _ _ _ _
  · simp only [Bool.and_eq_false_iff, Bool.not_eq_false']
    rw [disjointSpans_iff, identicalSpans_iff]
    rfl
  · simp

/-! ### The words a span touches (20_memory.md R83) -/

/-- A list of touches that covers the symbols `k` to `n − 1` of a span in ascending order: each starts where the one
before ended, at its own word and index, and all but the last end at the end of their word. -/
def Covers (e : Enc) (o : Operand) (n : Nat) : Nat → List Touch → Prop
  | k, [] => k = n
  | k, t :: rest =>
    t.k0 = k ∧ t.addr = o.wa e k ∧ t.lo = o.ix e k ∧ t.lo < t.hi ∧ t.hi ≤ e.size ∧
      (t.hi = e.size ∨ k + (t.hi - t.lo) = n) ∧ k + (t.hi - t.lo) ≤ n ∧ Covers e o n (k + (t.hi - t.lo)) rest

/-- Position `k + SIZE` lies in the next word at the same index. -/
theorem Operand.wa_add_size (e : Enc) (o : Operand) (k j : Nat) : o.wa e (k + j * e.size) = o.wa e k + j := by
  unfold Operand.wa
  rw [← Nat.add_assoc, Nat.add_mul_div_right _ _ (size_pos e), Nat.add_assoc]

theorem Operand.ix_add_size (e : Enc) (o : Operand) (k j : Nat) : o.ix e (k + j * e.size) = o.ix e k := by
  unfold Operand.ix
  rw [← Nat.add_assoc, Nat.add_mul_mod_self_right]

/-- The symbols up to the end of a word lie in that word. -/
theorem Operand.wa_add {e : Enc} {o : Operand} {k i : Nat} (h : o.ix e k + i < e.size) :
    o.wa e (k + i) = o.wa e k ∧ o.ix e (k + i) = o.ix e k + i := by
  unfold Operand.wa Operand.ix at *
  constructor
  · rw [← Nat.add_assoc, Nat.add_div (size_pos e), if_neg, Nat.div_eq_of_lt (by omega : i < e.size)]
    · rfl
    · rw [Nat.mod_eq_of_lt (by omega : i < e.size)]
      omega
  · rw [← Nat.add_assoc, Nat.add_mod, Nat.mod_eq_of_lt (by omega : i < e.size), Nat.mod_eq_of_lt h]

/-- The first symbol after the end of a word is symbol 0 of the next word. -/
theorem Operand.wa_next {e : Enc} {o : Operand} {k : Nat} (hi : Nat) (hh : hi = e.size - o.ix e k) :
    o.wa e (k + hi) = o.wa e k + 1 ∧ o.ix e (k + hi) = 0 := by
  have hlt : o.ix e k < e.size := Nat.mod_lt _ (size_pos e)
  have h : o.off + (k + hi) = e.size * ((o.off + k) / e.size + 1) := by
    have := Nat.div_add_mod (o.off + k) e.size
    unfold Operand.ix at hh hlt
    rw [Nat.mul_add]
    omega
  unfold Operand.wa Operand.ix
  rw [h, Nat.mul_div_cancel_left _ (size_pos e), Nat.mul_mod_right]
  exact ⟨by rw [Nat.add_assoc], rfl⟩

theorem covers_full {e : Enc} {o : Operand} {n k : Nat} {tail : List Touch} (hix : o.ix e k = 0) :
    ∀ (count : Nat), k + count * e.size ≤ n → Covers e o n (k + count * e.size) tail →
      Covers e o n k
        (((List.range count).map fun j =>
          { addr := o.wa e k + j, lo := 0, hi := e.size, k0 := k + j * e.size : Touch }) ++ tail) := by
  intro count
  induction count generalizing k with
  | zero => intro _ h; simpa using h
  | succ c ih =>
    intro hn h
    have hs : k + (c + 1) * e.size = k + e.size + c * e.size := by rw [Nat.succ_mul]; omega
    have h1 : o.wa e (k + e.size) = o.wa e k + 1 := by simpa using o.wa_add_size e k 1
    have h2 : o.ix e (k + e.size) = 0 := by have := o.ix_add_size e k 1; rw [Nat.one_mul] at this; omega
    rw [List.range_succ_eq_map, List.map_cons, List.map_map, List.cons_append]
    refine ⟨by simp, rfl, hix.symm, size_pos e, Nat.le_refl _, .inl rfl, ?_, ?_⟩
    · show k + (e.size - 0) ≤ n
      omega
    · show Covers e o n (k + (e.size - 0)) _
      rw [Nat.sub_zero]
      have := ih h2 (by omega) (by rw [← hs]; exact h)
      rw [h1] at this
      refine cast ?_ this
      congr 2
      refine List.map_congr_left fun j _ => ?_
      simp only [Function.comp, Nat.succ_eq_add_one, Nat.add_mul, Nat.one_mul]
      congr 1 <;> omega

theorem covers_cons {e : Enc} {o : Operand} {n k a lo hi : Nat} {rest : List Touch} (ha : a = o.wa e k)
    (hlo : lo = o.ix e k) (h1 : lo < hi) (h2 : hi ≤ e.size) (h3 : hi = e.size ∨ k + (hi - lo) = n)
    (h4 : k + (hi - lo) ≤ n) (h5 : Covers e o n (k + (hi - lo)) rest) :
    Covers e o n k ({ addr := a, lo := lo, hi := hi, k0 := k } :: rest) := ⟨rfl, ha, hlo, h1, h2, h3, h4, h5⟩

theorem covers_cons_elim {e : Enc} {o : Operand} {n k : Nat} {t : Touch} {rest : List Touch}
    (h : Covers e o n k (t :: rest)) :
    ∃ hi, t = { addr := o.wa e k, lo := o.ix e k, hi := hi, k0 := k } ∧ o.ix e k < hi ∧ hi ≤ e.size ∧
      (hi = e.size ∨ k + (hi - o.ix e k) = n) ∧ k + (hi - o.ix e k) ≤ n ∧ Covers e o n (k + (hi - o.ix e k)) rest := by
  obtain ⟨addr, lo, hi, k0⟩ := t
  obtain ⟨h0, ha, hl, h⟩ := h
  dsimp only at h0 ha hl h
  subst h0 ha hl
  exact ⟨hi, rfl, h⟩

/-- `Touched(sp, n)`, written out. -/
theorem touched_eq (e : Enc) (o : Operand) (n : Nat) :
    touched e o n =
      (if leadLength e o n > 0 then
        [{ addr := o.wa e 0, lo := o.ix e 0, hi := o.ix e 0 + leadLength e o n, k0 := 0 }] else []) ++
      ((List.range ((n - leadLength e o n) / e.size)).map fun j =>
        { addr := o.wa e (leadLength e o n) + j, lo := 0, hi := e.size, k0 := leadLength e o n + j * e.size }) ++
      (if (n - leadLength e o n) % e.size > 0 then
        [{ addr := o.wa e (leadLength e o n) + (n - leadLength e o n) / e.size, lo := 0,
           hi := (n - leadLength e o n) % e.size,
           k0 := leadLength e o n + (n - leadLength e o n) / e.size * e.size }] else []) := rfl

/-- The lead segment runs to the end of its word, or to the end of the span. -/
theorem leadLength_cases (e : Enc) (o : Operand) (n : Nat) :
    (o.ix e 0 = 0 ∧ leadLength e o n = 0) ∨
      (o.ix e 0 ≠ 0 ∧ leadLength e o n = min n (e.size - o.ix e 0)) := by
  show (o.off % e.size = 0 ∧ _) ∨ (o.off % e.size ≠ 0 ∧ _ = min n (e.size - o.off % e.size))
  unfold leadLength
  split
  · right; exact ⟨by assumption, rfl⟩
  · left; exact ⟨by omega, rfl⟩

/-- After the lead segment the span is at the start of a word, or at its end. -/
theorem ix_leadLength (e : Enc) (o : Operand) (n : Nat) :
    leadLength e o n = n ∨ o.ix e (leadLength e o n) = 0 := by
  rcases leadLength_cases e o n with ⟨h0, h⟩ | ⟨-, h⟩
  · exact .inr (by rw [h, h0])
  · by_cases hn : leadLength e o n = n
    · exact .inl hn
    · have := (o.wa_next (e := e) (k := 0) (leadLength e o n) (by omega)).2
      rw [Nat.zero_add] at this
      exact .inr this

/-- `Touched(sp, n)` covers exactly the symbols 0 to n − 1. -/
theorem covers_touched (e : Enc) (o : Operand) (n : Nat) : Covers e o n 0 (touched e o n) := by
  have hpos := size_pos e
  have hmod : o.ix e 0 < e.size := Nat.mod_lt _ hpos
  have hcase := ix_leadLength e o n
  have hlc := leadLength_cases e o n
  rw [touched_eq]
  generalize leadLength e o n = L at *
  have rest : Covers e o n L
      (((List.range ((n - L) / e.size)).map fun j =>
        { addr := o.wa e L + j, lo := 0, hi := e.size, k0 := L + j * e.size : Touch }) ++
      (if (n - L) % e.size > 0 then
        [{ addr := o.wa e L + (n - L) / e.size, lo := 0, hi := (n - L) % e.size,
           k0 := L + (n - L) / e.size * e.size }] else [])) := by
    have hdm := Nat.div_add_mod (n - L) e.size
    have hml := Nat.mod_lt (n - L) hpos
    rw [Nat.mul_comm] at hdm
    rcases hcase with hl | hix
    · simp [hl, Covers]
    · refine covers_full hix _ (by omega) ?_
      split
      · rename_i htr
        exact covers_cons (o.wa_add_size e _ _).symm (by rw [o.ix_add_size, hix]) htr (by omega) (.inr (by omega))
          (by omega) (show _ = n by omega)
      · show _ = n
        omega
  rw [List.append_assoc]
  split
  · refine covers_cons rfl rfl (by omega) (by omega) (by omega) (by omega) ?_
    rw [show 0 + (o.ix e 0 + L - o.ix e 0) = L by omega]
    exact rest
  · obtain rfl : L = 0 := by omega
    exact rest

end Sys2Proof.Machine
end

