-- ==== Sys2Proof/Laws/Effects.lean ====
section
/-!
SUPPORT. What a piece of pseudocode can do at most, piece by piece: it ends, it stays inside the words it is given, it
keeps the registers, its errors are well formed, and it sees only the words it is given.
-/

namespace Sys2Proof.Machine

open Sys2Proof

variable {α β : Type}

/-! ### Errors that a command can raise (60_exceptions.md R242 to R245) -/

/-- An error with the fields its rule gives it. -/
def Err.wellFormed (p : Params) (e : Err) : Prop :=
  (e.kind = .illegalSymbol ∧ e.info = immInfo ∧ e.addr.toNat ≤ 1) ∨
  (e.kind = .illegalSymbol ∧ e.info = tbufCode ∧ e.addr.toNat < p.tbufCells) ∨
  (e.kind = .bounds ∧ e.info.toNat ≤ 3 ∧ e.addr = 0) ∨
  (e.kind = .overlap ∧ (e.info = 4 ∨ e.info = 8 ∨ e.info = 9) ∧ e.addr = 0) ∨
  (e.kind = .illegalWord ∧ p.enc = .ter5 ∧ e.info.toNat ≤ 2 ∧ e.addr.toNat < p.memWords) ∨
  (e.kind = .illegalWord ∧ p.enc = .ter5 ∧ e.info = wdInfo ∧ e.addr.toNat ≤ 0xFF)

theorem spanCode_le (sp : SpanSel) : (spanCode sp).toNat ≤ 2 := by cases sp <;> decide

/-- Every word is legal on BIN8, so an illegal one is of TER5. -/
theorem enc_of_illegal {e : Enc} {w : MWord} (h : ¬legal e w = true) : e = .ter5 := by
  cases e
  · exact absurd rfl h
  · rfl

theorem boundsError_wellFormed {u : Uses} {s : State} {e : Err} (p : Params) (h : boundsError u s = some e) :
    e.wellFormed p := by
  refine .inr (.inr (.inl ?_))
  rcases boundsError_some h with ⟨sp, rfl⟩ | rfl
  · exact ⟨rfl, by have := spanCode_le sp; show (spanCode sp).toNat ≤ 3; omega, rfl⟩
  · exact ⟨rfl, by decide, rfl⟩

theorem overlapError_wellFormed {u : Uses} {s : State} {e : Err} (p : Params) (h : overlapError u s = some e) :
    e.wellFormed p := .inr (.inr (.inr (.inl (overlapError_some h))))

/-! ### What changes at most -/

/-- Storage in canonical form and inside its range. -/
def storageOk (s : State) : Prop :=
  Memory.wf s.mem = true ∧ Memory.below s.params.memWords s.mem = true ∧ Memory.wf s.tbuf = true ∧
    Memory.below s.params.tbufCells s.tbuf = true

/-- From `s` to `t` only words of `W` changed, and TBUF only if `cells`; the canonical form is kept. -/
structure Keeps (W : Nat → Prop) (cells : Bool) (s t : State) : Prop where
  rest : t = { s with mem := t.mem, tbuf := t.tbuf }
  mem : ∀ a, ¬W a → Memory.read t.mem a = Memory.read s.mem a
  tbuf : cells = false → t.tbuf = s.tbuf
  storage : storageOk s → storageOk t

theorem Keeps.refl (W : Nat → Prop) (cells : Bool) (s : State) : Keeps W cells s s :=
  ⟨rfl, fun _ _ => rfl, fun _ => rfl, id⟩

theorem Keeps.trans {W : Nat → Prop} {cells : Bool} {s t u : State} (h : Keeps W cells s t) (k : Keeps W cells t u) :
    Keeps W cells s u :=
  ⟨by rw [k.rest, h.rest], fun a ha => (k.mem a ha).trans (h.mem a ha), fun hc => (k.tbuf hc).trans (h.tbuf hc),
    fun hs => k.storage (h.storage hs)⟩

theorem Keeps.params {W : Nat → Prop} {cells : Bool} {s t : State} (h : Keeps W cells s t) : t.params = s.params := by
  rw [h.rest]

/-- A piece that answers a value or an error, never an access to what does not exist, and changes at most the words of
`W` and, if `cells`, TBUF. -/
def Cmd.Within (p : Params) (W : Nat → Prop) (cells : Bool) (m : Cmd α) : Prop :=
  ∀ s, s.params = p →
    (∃ a t, m s = .done a t ∧ Keeps W cells s t) ∨
    (∃ e t, m s = .raised e t ∧ Keeps W cells s t ∧ e.wellFormed p)

theorem Cmd.within_ret (p : Params) (W : Nat → Prop) (cells : Bool) (a : α) : Cmd.Within p W cells (Cmd.ret a) :=
  fun s _ => .inl ⟨a, s, rfl, .refl W cells s⟩

theorem Cmd.within_raise {p : Params} (W : Nat → Prop) (cells : Bool) {kind : ErrKind} {info addr : RegVal}
    (h : Err.wellFormed p { kind := kind, info := info, addr := addr }) :
    Cmd.Within p W cells (Cmd.raise kind info addr : Cmd α) :=
  fun s _ => .inr ⟨_, s, rfl, .refl W cells s, h⟩

theorem Cmd.within_bind {p : Params} {W : Nat → Prop} {cells : Bool} {m : Cmd α} {k : α → Cmd β}
    (hm : Cmd.Within p W cells m) (hk : ∀ a, Cmd.Within p W cells (k a)) :
    Cmd.Within p W cells (Cmd.bind m k) := by
  intro s hs
  rcases hm s hs with ⟨a, t, h, h1⟩ | ⟨e, t, h, h1, he⟩
  · rw [Cmd.bind_done h]
    rcases hk a t (h1.params.trans hs) with ⟨b, u, h', h2⟩ | ⟨e, u, h', h2, he⟩
    · exact .inl ⟨b, u, h', h1.trans h2⟩
    · exact .inr ⟨e, u, h', h1.trans h2, he⟩
  · exact .inr ⟨e, t, Cmd.bind_raised h, h1, he⟩

theorem Cmd.within_ite {p : Params} {W : Nat → Prop} {cells : Bool} {c : Prop} [Decidable c] {m k : Cmd α}
    (hm : c → Cmd.Within p W cells m) (hk : ¬c → Cmd.Within p W cells k) :
    Cmd.Within p W cells (if c then m else k) := by
  split
  · exact hm (by assumption)
  · exact hk (by assumption)

theorem Cmd.within_forUp {p : Params} {W : Nat → Prop} {cells : Bool} {body : Nat → Cmd Unit} :
    ∀ (count k0 : Nat), (∀ k, k0 ≤ k → k < k0 + count → Cmd.Within p W cells (body k)) →
      Cmd.Within p W cells (Cmd.forUp body count k0)
  | 0, _, _ => Cmd.within_ret p W cells ()
  | count + 1, k0, h =>
    Cmd.within_bind (h k0 (Nat.le_refl _) (by omega)) fun _ =>
      Cmd.within_forUp count (k0 + 1) fun k hk hk' => h k (by omega) (by omega)

theorem Cmd.within_forEach {p : Params} {W : Nat → Prop} {cells : Bool} {body : α → Cmd Unit} :
    ∀ (ts : List α), (∀ t ∈ ts, Cmd.Within p W cells (body t)) → Cmd.Within p W cells (Cmd.forEach body ts)
  | [], _ => Cmd.within_ret p W cells ()
  | t :: rest, h =>
    Cmd.within_bind (h t (by simp)) fun _ => Cmd.within_forEach rest fun t ht => h t (by simp [ht])

/-! ### The accesses -/

theorem within_memRead {p : Params} (W : Nat → Prop) (cells : Bool) {addr : Nat} (h : addr < p.memWords) :
    Cmd.Within p W cells (memRead addr) := by
  rintro s rfl
  exact .inl ⟨_, s, memRead_done h, .refl W cells s⟩

theorem within_memWrite {p : Params} {W : Nat → Prop} (cells : Bool) {addr : Nat} (h : addr < p.memWords)
    (hW : W addr) (w : MWord) : Cmd.Within p W cells (memWrite addr w) := by
  rintro s rfl
  refine .inl ⟨(), _, memWrite_done h, rfl, fun a ha => ?_, fun _ => rfl, fun hs => ?_⟩
  · exact Memory.read_write_ne _ (by rintro rfl; exact ha hW) _
  · exact ⟨Memory.wf_write hs.1 _ _, Memory.below_write hs.2.1 h _, hs.2.2.1, hs.2.2.2⟩

theorem within_tbufRead {p : Params} (W : Nat → Prop) (cells : Bool) {c : Nat} (h : c < p.tbufCells) :
    Cmd.Within p W cells (tbufRead c) := by
  rintro s rfl
  exact .inl ⟨_, s, tbufRead_done h, .refl W cells s⟩

theorem within_tbufWrite {p : Params} (W : Nat → Prop) {c : Nat} (h : c < p.tbufCells) (v : SymCode) :
    Cmd.Within p W true (tbufWrite c v) := by
  rintro s rfl
  exact .inl ⟨(), _, tbufWrite_done h, rfl, fun _ _ => rfl, fun hc => absurd hc (by decide), fun hs =>
    ⟨hs.1, hs.2.1, Memory.wf_write hs.2.2.1 _ _, Memory.below_write hs.2.2.2 h _⟩⟩

theorem within_decodeAt {p : Params} (W : Nat → Prop) (cells : Bool) {addr : Nat} (o : Operand)
    (h : addr < p.memWords) : Cmd.Within p W cells (decodeAt p.enc o addr) := by
  rintro s rfl
  by_cases hl : legal s.params.enc (Memory.read s.mem addr) = true
  · exact .inl ⟨_, s, decodeAt_legal h hl, .refl W cells s⟩
  · refine .inr ⟨_, s, decodeAt_illegal h hl, .refl W cells s, ?_⟩
    refine .inr (.inr (.inr (.inr (.inl ⟨rfl, enc_of_illegal hl, spanCode_le _, ?_⟩))))
    show (BitVec.ofNat 32 addr).toNat < _
    rw [BitVec.toNat_ofNat]
    exact Nat.lt_of_le_of_lt (Nat.mod_le _ _) h

theorem within_getSym {p : Params} (W : Nat → Prop) (cells : Bool) {o : Operand} {k : Nat}
    (h : o.wa p.enc k < p.memWords) : Cmd.Within p W cells (getSym p.enc o k) :=
  Cmd.within_bind (within_decodeAt W cells o h) fun _ => Cmd.within_ret p W cells _

theorem within_putSym {p : Params} {W : Nat → Prop} (cells : Bool) {o : Operand} {k : Nat}
    (h : o.wa p.enc k < p.memWords) (hW : W (o.wa p.enc k)) (v : Sym) :
    Cmd.Within p W cells (putSym p.enc o k v) :=
  Cmd.within_bind (within_decodeAt W cells o h) fun _ => within_memWrite cells h hW _

theorem within_writeCells {p : Params} (W : Nat → Prop) :
    ∀ (vs : List Sym) (c : Nat), c + vs.length ≤ p.tbufCells → Cmd.Within p W true (writeCells c vs)
  | [], _, _ => Cmd.within_ret p W true ()
  | v :: rest, c, h => by
    rw [List.length_cons] at h
    exact Cmd.within_bind (within_tbufWrite W (by omega) _) fun _ => within_writeCells W rest (c + 1) (by omega)

theorem within_readCells {p : Params} (W : Nat → Prop) (cells : Bool) :
    ∀ (count c : Nat), c + count ≤ p.tbufCells → Cmd.Within p W cells (readCells p.enc count c)
  | 0, _, _ => Cmd.within_ret p W cells []
  | count + 1, c, h => by
    refine Cmd.within_bind (within_tbufRead W cells (by omega)) fun code => ?_
    split
    · refine Cmd.within_raise W cells (.inr (.inl ⟨rfl, rfl, ?_⟩))
      show (BitVec.ofNat 32 c).toNat < _
      rw [BitVec.toNat_ofNat]
      exact Nat.lt_of_le_of_lt (Nat.mod_le _ _) (by omega)
    · exact Cmd.within_bind (within_readCells W cells count (c + 1) (by omega)) fun _ => Cmd.within_ret p W cells _

/-! ### The words a valid span touches -/

/-- Every touch of a list that covers a span starts at a symbol of the span and lies in that symbol's word. -/
theorem Covers.mem {e : Enc} {o : Operand} {n : Nat} :
    ∀ {ts : List Touch} {k : Nat}, Covers e o n k ts → ∀ t ∈ ts,
      t.addr = o.wa e t.k0 ∧ t.lo = o.ix e t.k0 ∧ t.lo < t.hi ∧ t.hi ≤ e.size ∧ t.k0 + (t.hi - t.lo) ≤ n
  | [], _, _, _, h => absurd h (by simp)
  | t :: rest, k, hc, t', h => by
    obtain ⟨rfl, ha, hlo, h1, h2, -, h4, h5⟩ := hc
    rcases List.mem_cons.mp h with rfl | h
    · exact ⟨ha, hlo, h1, h2, h4⟩
    · exact Covers.mem h5 t' h

theorem slice_length {a : List Sym} {lo hi : Nat} (h : hi ≤ a.length) : (slice a lo hi).length = hi - lo := by
  simp [slice, Nat.min_eq_left h]

theorem splice_length {a v : List Sym} {lo hi : Nat} (hl : lo ≤ hi) (hh : hi ≤ a.length) (hv : v.length = hi - lo) :
    (splice a lo hi v).length = a.length := by
  simp [splice, hv]
  omega

/-- The words of a valid span exist, and lie in its array. -/
theorem touched_valid {p : Params} {o : Operand} {n : Nat} (hv : o.valid p n = true) :
    ∀ t ∈ touched p.enc o n, t.addr < p.memWords ∧ (o.base ≤ t.addr ∧ t.addr < o.base + o.len) ∧
      t.lo < t.hi ∧ t.hi ≤ p.enc.size ∧ t.k0 + (t.hi - t.lo) ≤ n := by
  intro t ht
  obtain ⟨ha, -, h1, h2, h3⟩ := (covers_touched p.enc o n).mem t ht
  obtain ⟨hb, ho⟩ := (Operand.valid_iff p o n).mp hv
  have := Operand.wa_lt (bound := o.base + o.len) (Nat.le_refl _) ho (show t.k0 < n by omega)
  have := o.wa_ge p.enc t.k0
  rw [ha]
  omega

/-- The word of each symbol of a valid span exists, and lies in its array. -/
theorem wa_valid {p : Params} {o : Operand} {n k : Nat} (hv : o.valid p n = true) (hk : k < n) :
    o.wa p.enc k < p.memWords ∧ o.base ≤ o.wa p.enc k ∧ o.wa p.enc k < o.base + o.len := by
  obtain ⟨hb, ho⟩ := (Operand.valid_iff p o n).mp hv
  have := Operand.wa_lt (bound := o.base + o.len) (Nat.le_refl _) ho hk
  have := o.wa_ge p.enc k
  omega

/-- The words of the array of an operand. -/
def Operand.array (o : Operand) (a : Nat) : Prop := o.base ≤ a ∧ a < o.base + o.len

theorem within_traverseRO {p : Params} (W : Nat → Prop) (cells : Bool) {o : Operand} {n : Nat}
    {visit : Nat → List Sym → Cmd Unit} (hv : o.valid p n = true)
    (h : ∀ k0 vs, k0 + vs.length ≤ n → Cmd.Within p W cells (visit k0 vs)) :
    Cmd.Within p W cells (traverseRO p.enc o n visit) := by
  refine Cmd.within_forEach _ fun t ht => ?_
  obtain ⟨ha, -, hlt, hs, hk⟩ := touched_valid hv t ht
  intro s hs'
  subst hs'
  by_cases hl : legal s.params.enc (Memory.read s.mem t.addr) = true
  · have := h t.k0 (slice (dec s.params.enc (Memory.read s.mem t.addr)) t.lo t.hi)
      (by rw [slice_length (by simpa using hs)]; exact hk)
    rw [Cmd.bind_done (decodeAt_legal ha hl)]
    exact this s rfl
  · rcases within_decodeAt (p := s.params) W cells o ha s rfl with ⟨_, _, h', _⟩ | ⟨e, t', h', hh⟩
    · rw [decodeAt_illegal ha hl] at h'
      exact absurd h' (by simp)
    · exact .inr ⟨e, t', Cmd.bind_raised h', hh⟩

theorem within_traverseRW {p : Params} {W : Nat → Prop} (cells : Bool) {o : Operand} {n : Nat}
    {visit : Nat → List Sym → Cmd (List Sym)} (hv : o.valid p n = true) (hW : ∀ a, o.array a → W a)
    (h : ∀ k0 vs, k0 + vs.length ≤ n → Cmd.Within p W cells (visit k0 vs)) :
    Cmd.Within p W cells (traverseRW p.enc o n visit) := by
  refine Cmd.within_forEach _ fun t ht => ?_
  obtain ⟨ha, har, hlt, hs, hk⟩ := touched_valid hv t ht
  intro s hs'
  subst hs'
  by_cases hl : legal s.params.enc (Memory.read s.mem t.addr) = true
  · rw [Cmd.bind_done (decodeAt_legal ha hl)]
    exact Cmd.within_bind (h t.k0 (slice (dec s.params.enc (Memory.read s.mem t.addr)) t.lo t.hi)
      (by rw [slice_length (by simpa using hs)]; exact hk))
      (fun _ => within_memWrite cells ha (hW _ har) _) s rfl
  · rcases within_decodeAt (p := s.params) W cells o ha s rfl with ⟨_, _, h', _⟩ | ⟨e, t', h', hh⟩
    · rw [decodeAt_illegal ha hl] at h'
      exact absurd h' (by simp)
    · exact .inr ⟨e, t', Cmd.bind_raised h', hh⟩

/-! ### The procedures of 41_bulk_span_ops.md -/

theorem within_forUp_lt {p : Params} {W : Nat → Prop} {cells : Bool} {body : Nat → Cmd Unit} {n : Nat}
    (h : ∀ k, k < n → Cmd.Within p W cells (body k)) : Cmd.Within p W cells (Cmd.forUp body n 0) :=
  Cmd.within_forUp n 0 fun k _ hk => h k (by omega)

/-- Where the segments of a span lie: the lead word, the full words and the trail word hold symbols of the span. -/
theorem segments_wa (e : Enc) (o : Operand) (n : Nat) :
    (segments e o n).wl = o.wa e 0 ∧
      (∀ j, (segments e o n).w0 + j = o.wa e ((segments e o n).lead + j * e.size)) ∧
      (segments e o n).lead + (segments e o n).full * e.size + (segments e o n).trail = n := by
  refine ⟨rfl, fun j => (o.wa_add_size e _ j).symm, ?_⟩
  have := Nat.div_add_mod (n - leadLength e o n) e.size
  rw [Nat.mul_comm] at this
  have hl : leadLength e o n ≤ n := by
    rcases leadLength_cases e o n with ⟨-, h⟩ | ⟨-, h⟩ <;> omega
  show leadLength e o n + (n - leadLength e o n) / e.size * e.size + (n - leadLength e o n) % e.size = n
  omega

/-- The words of the segments of a valid span exist, and lie in its array. -/
theorem segments_valid {p : Params} {o : Operand} {n : Nat} (hv : o.valid p n = true) :
    ((segments p.enc o n).lead > 0 →
      (segments p.enc o n).wl < p.memWords ∧ o.array (segments p.enc o n).wl) ∧
    (∀ j, j < (segments p.enc o n).full →
      (segments p.enc o n).w0 + j < p.memWords ∧ o.array ((segments p.enc o n).w0 + j)) ∧
    ((segments p.enc o n).trail > 0 →
      (segments p.enc o n).w0 + (segments p.enc o n).full < p.memWords ∧
        o.array ((segments p.enc o n).w0 + (segments p.enc o n).full)) := by
  obtain ⟨h1, h2, h3⟩ := segments_wa p.enc o n
  have hpos := size_pos p.enc
  refine ⟨fun h => ?_, fun j hj => ?_, fun h => ?_⟩
  · rw [h1]
    exact wa_valid hv (by omega)
  · rw [h2]
    refine wa_valid hv ?_
    have : (j + 1) * p.enc.size ≤ (segments p.enc o n).full * p.enc.size := Nat.mul_le_mul_right _ hj
    rw [Nat.succ_mul] at this
    omega
  · rw [h2]
    exact wa_valid hv (by omega)

/-- On the fast path the segments of the two spans have the same lengths (41_bulk_span_ops.md R160). -/
theorem segments_same {e : Enc} {a b : Operand} (h : a.off % e.size = b.off % e.size) (n : Nat) :
    (segments e b n).first = (segments e a n).first ∧ (segments e b n).lead = (segments e a n).lead ∧
      (segments e b n).full = (segments e a n).full ∧ (segments e b n).trail = (segments e a n).trail := by
  simp [segments, leadLength, h]

theorem within_copyEdge {p : Params} {W : Nat → Prop} (cells : Bool) {a b : Operand} {x y : Nat} (lo hi : Nat)
    (hx : x < p.memWords) (hy : y < p.memWords) (hW : W y) :
    Cmd.Within p W cells (copyEdge p.enc a b x y lo hi) :=
  Cmd.within_bind (within_decodeAt W cells a hx) fun _ =>
    Cmd.within_bind (within_decodeAt W cells b hy) fun _ => within_memWrite cells hy hW _

theorem within_copyProc {p : Params} {W : Nat → Prop} (cells : Bool) {a b : Operand} {n : Nat}
    (ha : a.valid p n = true) (hb : b.valid p n = true) (hW : ∀ x, b.array x → W x) :
    Cmd.Within p W cells (copyProc p.enc n a b) := by
  unfold copyProc
  refine Cmd.within_ite (fun hf => ?_) fun _ => ?_
  · obtain ⟨-, h1, h2, h3⟩ := segments_same (of_decide_eq_true hf) n
    obtain ⟨va1, va2, va3⟩ := segments_valid ha
    obtain ⟨vb1, vb2, vb3⟩ := segments_valid hb
    rw [h1] at vb1
    rw [h2] at vb2 vb3
    rw [h3] at vb3
    refine Cmd.within_bind (Cmd.within_ite (fun h => ?_) fun _ => Cmd.within_ret _ _ _ _) fun _ =>
      Cmd.within_bind (within_forUp_lt fun j hj => ?_) fun _ =>
        Cmd.within_ite (fun h => ?_) fun _ => Cmd.within_ret _ _ _ _
    · exact within_copyEdge cells _ _ (va1 h).1 (vb1 h).1 (hW _ (vb1 h).2)
    · exact Cmd.within_bind (within_memRead W cells (va2 j hj).1) fun _ =>
        within_memWrite cells (vb2 j hj).1 (hW _ (vb2 j hj).2) _
    · exact within_copyEdge cells _ _ (va3 h).1 (vb3 h).1 (hW _ (vb3 h).2)
  · exact within_forUp_lt fun k hk =>
      Cmd.within_bind (within_getSym W cells (wa_valid ha hk).1) fun _ =>
        within_putSym cells (wa_valid hb hk).1 (hW _ (wa_valid hb hk).2) _

theorem within_fillzProc {p : Params} {W : Nat → Prop} (cells : Bool) {a : Operand} {n : Nat}
    (ha : a.valid p n = true) (hW : ∀ x, a.array x → W x) : Cmd.Within p W cells (fillzProc p.enc n a) := by
  refine Cmd.within_forEach _ fun t ht => ?_
  obtain ⟨h1, h2, -⟩ := touched_valid ha t ht
  exact Cmd.within_ite (fun _ => within_memWrite cells h1 (hW _ h2) _) fun _ =>
    Cmd.within_bind (within_decodeAt W cells a h1) fun _ => within_memWrite cells h1 (hW _ h2) _

theorem within_equEdge {p : Params} (W : Nat → Prop) (cells : Bool) {a b : Operand} {x y : Nat} (lo hi : Nat)
    (hx : x < p.memWords) (hy : y < p.memWords) : Cmd.Within p W cells (equEdge p.enc a b x y lo hi) :=
  Cmd.within_bind (within_decodeAt W cells a hx) fun _ =>
    Cmd.within_bind (within_decodeAt W cells b hy) fun _ => Cmd.within_ret _ _ _ _

theorem within_equWords {p : Params} (W : Nat → Prop) (cells : Bool) :
    ∀ (count x y : Nat), (∀ j, j < count → x + j < p.memWords ∧ y + j < p.memWords) →
      Cmd.Within p W cells (equWords x y count)
  | 0, _, _, _ => Cmd.within_ret _ _ _ _
  | count + 1, x, y, h =>
    Cmd.within_bind (within_memRead W cells (h 0 (by omega)).1) fun _ =>
      Cmd.within_bind (within_memRead W cells (h 0 (by omega)).2) fun _ =>
        Cmd.within_ite
          (fun _ => within_equWords W cells count (x + 1) (y + 1) fun j hj => by
            have := h (j + 1) (by omega)
            omega)
          fun _ => Cmd.within_ret _ _ _ _

theorem within_equSlow {p : Params} (W : Nat → Prop) (cells : Bool) {a b : Operand} :
    ∀ (count k : Nat) (eq : Bool),
      (∀ j, k ≤ j → j < k + count → a.wa p.enc j < p.memWords ∧ b.wa p.enc j < p.memWords) →
      Cmd.Within p W cells (equSlow p.enc a b count k eq)
  | 0, _, _, _ => Cmd.within_ret _ _ _ _
  | count + 1, k, _, h =>
    Cmd.within_bind (within_getSym W cells (h k (Nat.le_refl _) (by omega)).1) fun _ =>
      Cmd.within_bind (within_getSym W cells (h k (Nat.le_refl _) (by omega)).2) fun _ =>
        within_equSlow W cells count (k + 1) _ fun j hj hj' => h j (by omega) (by omega)

theorem within_equProc {p : Params} (W : Nat → Prop) (cells : Bool) {a b : Operand} {n : Nat}
    (ha : a.valid p n = true) (hb : b.valid p n = true) : Cmd.Within p W cells (equProc p.enc n a b) := by
  unfold equProc
  refine Cmd.within_ite (fun hf => ?_) fun _ => ?_
  · obtain ⟨-, h1, h2, h3⟩ := segments_same (of_decide_eq_true hf) n
    obtain ⟨va1, va2, va3⟩ := segments_valid ha
    obtain ⟨vb1, vb2, vb3⟩ := segments_valid hb
    rw [h1] at vb1
    rw [h2] at vb2 vb3
    rw [h3] at vb3
    have both {m k : Cmd Bool} (hm : Cmd.Within p W cells m) (hk : Cmd.Within p W cells k) :
        Cmd.Within p W cells (Cmd.andAlso m k) :=
      Cmd.within_bind hm fun _ => Cmd.within_ite (fun _ => hk) fun _ => Cmd.within_ret _ _ _ _
    refine both (Cmd.within_ite (fun h => ?_) fun _ => Cmd.within_ret _ _ _ _)
      (both (within_equWords W cells _ _ _ fun j hj => ⟨(va2 j hj).1, (vb2 j hj).1⟩)
        (Cmd.within_ite (fun h => ?_) fun _ => Cmd.within_ret _ _ _ _))
    · exact within_equEdge W cells _ _ (va1 h).1 (vb1 h).1
    · exact within_equEdge W cells _ _ (va3 h).1 (vb3 h).1
  · exact within_equSlow W cells n 0 true fun j _ hj =>
      ⟨(wa_valid ha (by omega)).1, (wa_valid hb (by omega)).1⟩

/-! ### The loops of 43_feedback_combinators.md and 44_sponge_ops.md -/

theorem within_feedback {p : Params} {W : Nat → Prop} (cells : Bool) {d st out : Operand} {n : Nat}
    (f g : Sym → Sym → Sym) (hd : d.valid p n = true) (hs : st.valid p n = true) (ho : out.valid p n = true)
    (hW : ∀ x, st.array x ∨ out.array x → W x) : Cmd.Within p W cells (feedback p.enc d st out f g n) :=
  within_forUp_lt fun _ hk =>
    Cmd.within_bind (within_getSym W cells (wa_valid hd hk).1) fun _ =>
      Cmd.within_bind (within_getSym W cells (wa_valid hs hk).1) fun _ =>
        Cmd.within_bind (within_putSym cells (wa_valid ho hk).1 (hW _ (.inr (wa_valid ho hk).2)) _) fun _ =>
          within_putSym cells (wa_valid hs hk).1 (hW _ (.inl (wa_valid hs hk).2)) _

theorem within_absorb {p : Params} {W : Nat → Prop} (cells : Bool) {st d : Operand} {n : Nat}
    (hs : st.valid p n = true) (hd : d.valid p n = true) (hW : ∀ x, st.array x → W x) :
    Cmd.Within p W cells (Cmd.forUp (absorbStep p.enc st d) n 0) :=
  within_forUp_lt fun _ hk =>
    Cmd.within_bind (within_getSym W cells (wa_valid hs hk).1) fun _ =>
      Cmd.within_bind (within_getSym W cells (wa_valid hd hk).1) fun _ =>
        within_putSym cells (wa_valid hs hk).1 (hW _ (wa_valid hs hk).2) _

end Sys2Proof.Machine
end

