-- ==== Sys2Proof/Laws/Exec.lean ====
section
/-!
SUPPORT. Instructions of one shape: an assembler name is its expansion, and the sixteen mixers are one loop.
-/

namespace Sys2Proof.Machine

open Sys2Proof

/-- "An alias and its expansion are the same command word" (30_encoding.md R109): they do the same. -/
theorem exec_expand (i : Instr) (s : State) : exec i.expand s = exec i s := by cases i <;> rfl

theorem usesOf_expand (i : Instr) : usesOf i.expand = usesOf i := by cases i <;> rfl

theorem useRow_expand (i : Instr) : useRow i.expand = useRow i := by cases i <;> rfl

/-- The table that `exec` runs on has the first columns of the statements' table of 30_encoding.md R105. -/
theorem usesOf_agrees (i : Instr) :
    (usesOf i).counted = (useRow i).counted ∧ (usesOf i).spans = (useRow i).spans ∧
      (usesOf i).cells = (useRow i).cells := by cases i <;> exact ⟨rfl, rfl, rfl⟩

theorem usesOf_count (i : Instr) (s : State) : (usesOf i).count s = (useRow i).count s := by cases i <;> rfl

theorem usesOf_cellCount (i : Instr) (s : State) : (usesOf i).cellCount s = (useRow i).cellCount s := by
  cases i <;> rfl

/-- A command whose operands are span groups uses a pair of different groups only if these are its two operands. -/
theorem PairListed.of_operands {a b c d : SpanSel} (hab : a ≠ b) (ha : a ∈ [c, d]) (hb : b ∈ [c, d]) :
    PairListed [(c, d)] a b := by
  cases a <;> cases b <;> cases c <;> cases d <;> revert hab ha hb <;> decide

/-- And its overlap rules are the last two columns, on a pair of different groups that the command uses. -/
theorem usesOf_pair {i : Instr} {a b : SpanSel} (hab : a ≠ b) (ha : a ∈ (useRow i).spans)
    (hb : b ∈ (useRow i).spans) :
    ((usesOf i).pair a b = .notChecked ↔ PairListed (useRow i).notChecked a b) ∧
      ((usesOf i).pair a b = .mayBeIdentical ↔ PairListed (useRow i).mayBeIdentical a b) := by
  cases i with
  | copy c d => exact ⟨by simp [usesOf, countedUses, copyPairs, useRow],
      iff_of_true rfl (.of_operands hab ha hb)⟩
  | equ c d => exact ⟨iff_of_true rfl (.of_operands hab ha hb),
      by simp [usesOf, countedUses, readOnlyPairs, useRow]⟩
  | get c => simp_all [useRow]
  | put c _ => simp_all [useRow]
  | tosym c => simp_all [useRow]
  | fromsym c => simp_all [useRow]
  | fillz c => simp_all [useRow]
  | add _ _ => simp_all [useRow]
  | sub _ _ => simp_all [useRow]
  | _ => cases a <;> cases b <;> revert hab ha hb <;> decide

/-- The frame refuses a pair iff the overlap rule does (20_memory.md R77). -/
theorem pairClash_iff {i : Instr} {a b : SpanSel} (s : State) (hc : (useRow i).counted = true) (hab : a ≠ b)
    (ha : a ∈ (useRow i).spans) (hb : b ∈ (useRow i).spans) :
    pairClash (usesOf i) s a b = true ↔ ¬PairAllowed i s a b := by
  obtain ⟨hn, hi⟩ := usesOf_pair hab ha hb
  have hcount : (usesOf i).count s = countN s := by rw [usesOf_count, UseRow.count, if_pos hc]
  unfold pairClash PairAllowed
  rw [← hn, ← hi, hcount]
  cases (usesOf i).pair a b <;> simp [identicalSpans, disjointSpans, SameSymbols, Apart, absOf]
  tauto

theorem mixOf_expand (i : Instr) : mixOf i.expand = mixOf i := by cases i <;> rfl

theorem writesResult_expand (i : Instr) : writesResult i.expand = writesResult i := by cases i <;> rfl

theorem writesCells_expand (i : Instr) : writesCells i.expand = writesCells i := by cases i <;> rfl

theorem writtenSpans_expand (i : Instr) : writtenSpans i.expand = writtenSpans i := by cases i <;> rfl

theorem exec_copy {i : Instr} {a b : SpanSel} (h : IsCopy i a b) (s : State) : exec i s = execCopy a b s := by
  rcases h with rfl | ⟨rfl, rfl, rfl⟩ | ⟨rfl, rfl, rfl⟩ <;> rfl

theorem exec_equ {i : Instr} {a b : SpanSel} (h : IsEqu i a b) (s : State) : exec i s = execEqu a b s := by
  rcases h with rfl | ⟨rfl, rfl, rfl⟩ <;> rfl

/-- A mixer is the loop of 43_feedback_combinators.md R190 with its data flow. -/
theorem exec_mix {i : Instr} {m : MixShape} (h : mixOf i = some m) (s : State) :
    exec i s = finish (framed (usesOf i) (Cmd.ret ())
      (feedback s.params.enc (operand s m.data) (operand s .s) (operand s m.out) (m.output s.params.enc)
        (m.newState s.params.enc)) s) := by
  cases i <;> simp only [mixOf, mixShape, reduceCtorEq, Option.some.injEq] at h <;> subst h <;> rfl

/-- The row of a mixer in the table of 30_encoding.md R105. -/
theorem usesOf_mix {i : Instr} {m : MixShape} (h : mixOf i = some m) :
    (usesOf i).counted = true ∧ (usesOf i).cells = .none ∧
      (∀ sp, sp ∈ (usesOf i).spans ↔ sp = .s ∨ sp = m.data ∨ sp = m.out) ∧
      (usesOf i).pair .s .x = .mustBeDisjoint ∧ (usesOf i).pair .s .y = .mustBeDisjoint ∧
      (m.data ≠ m.out → (usesOf i).pair .x .y = .mayBeIdentical) := by
  cases i <;> simp only [mixOf, mixShape, reduceCtorEq, Option.some.injEq] at h <;> subst h <;>
    refine ⟨rfl, rfl, fun sp => ?_, rfl, rfl, by decide⟩ <;> cases sp <;> decide

/-- What a name expands to is a command. -/
theorem Instr.expand_wf (i : Instr) : i.expand.wf = true := by cases i <;> simp [Instr.wf, Instr.expand]

theorem Instr.wf_iff (i : Instr) : i.wf = true ↔ i.expand = i := by simp [Instr.wf]

/-- With the checks passed a command runs its body (30_encoding.md R111 step 7). -/
theorem finish_framed {u : Uses} {s : State} (z : Cmd Unit) (body : Nat → Cmd Unit)
    (hn : u.counted = true → s.n ≠ 0) (hb : boundsError u s = none) (ho : overlapError u s = none) :
    finish (framed u z body s) = finish (body (u.count s) s) := by rw [framed_body z body hn hb ho]

/-! ### Taking an error (60_exceptions.md R247, R248) -/

theorem errorLatched_takeError (e : Err) (s t : State) (h : t.status = s.status) :
    ErrorLatched s (takeError e t) (errCode e.kind) e.info e.addr :=
  ⟨by simp, by simp [h], rfl, rfl⟩

theorem onlyErrorRegs_takeError (e : Err) (s : State) : OnlyErrorRegs s (takeError e s) := rfl

theorem onlyErrorRegsAndMem_takeError (e : Err) (s : State) (m : Memory 8) :
    OnlyErrorRegsAndMem s (takeError e (withMem s m)) := rfl

theorem errCode_ne_zero (k : ErrKind) : errCode k ≠ 0 := by cases k <;> decide

/-- With a clear latch, a command ended in an error iff it leaves one latched. -/
theorem not_noError_takeError (e : Err) (s : State) : ¬NoError (takeError e s) := by
  simpa using errCode_ne_zero e.kind

end Sys2Proof.Machine
end

