-- ==== Sys2Proof/Laws/PerInstr.lean ====
section
/-!
SUPPORT. The family of facts about an instruction as syntax: its command word.
-/

namespace Sys2Proof.Laws.Layout

open Sys2Proof

/-- The reserved bits of an instruction's word are zero (spec 30_encoding.md R101), and an assembler name and its
expansion are the same word (R109). -/
def Statement (i : Instr) : Prop := reservedField (encode i) = 0 ∧ encode i.expand = encode i

theorem w2s : Statement .w2s := by
  constructor <;> rfl

theorem s2w : Statement .s2w := by
  constructor <;> rfl

theorem get (a : SpanSel) : Statement (.get a) := by
  cases a <;> constructor <;> rfl

theorem put (a : SpanSel) (v : SymCode) : Statement (.put a v) := by
  unfold Statement
  cases a <;> revert v <;> decide

theorem tosym (a : SpanSel) : Statement (.tosym a) := by
  cases a <;> constructor <;> rfl

theorem fromsym (a : SpanSel) : Statement (.fromsym a) := by
  cases a <;> constructor <;> rfl

theorem copy (a : SpanSel) (b : SpanSel) : Statement (.copy a b) := by
  cases a <;> cases b <;> constructor <;> rfl

theorem fillz (a : SpanSel) : Statement (.fillz a) := by
  cases a <;> constructor <;> rfl

theorem equ (a : SpanSel) (b : SpanSel) : Statement (.equ a b) := by
  cases a <;> cases b <;> constructor <;> rfl

theorem add (v : SymCode) (u : SymCode) : Statement (.add v u) := by
  unfold Statement
  revert v u
  decide

theorem sub (v : SymCode) (u : SymCode) : Statement (.sub v u) := by
  unfold Statement
  revert v u
  decide

theorem setxa : Statement .setxa := by
  constructor <;> rfl

theorem setxs : Statement .setxs := by
  constructor <;> rfl

theorem setya : Statement .setya := by
  constructor <;> rfl

theorem setys : Statement .setys := by
  constructor <;> rfl

theorem setxam : Statement .setxam := by
  constructor <;> rfl

theorem setxsm : Statement .setxsm := by
  constructor <;> rfl

theorem setyam : Statement .setyam := by
  constructor <;> rfl

theorem setysm : Statement .setysm := by
  constructor <;> rfl

theorem adds : Statement .adds := by
  constructor <;> rfl

theorem sqzow : Statement .sqzow := by
  constructor <;> rfl

theorem sqeow : Statement .sqeow := by
  constructor <;> rfl

theorem clrerr : Statement .clrerr := by
  constructor <;> rfl

theorem absorbOw : Statement .absorbOw := by
  constructor <;> rfl

theorem absorbX : Statement .absorbX := by
  constructor <;> rfl

theorem squeezeOw : Statement .squeezeOw := by
  constructor <;> rfl

theorem squeezeX : Statement .squeezeX := by
  constructor <;> rfl

theorem squeezeeqOw : Statement .squeezeeqOw := by
  constructor <;> rfl

theorem squeezeeqX : Statement .squeezeeqX := by
  constructor <;> rfl

theorem encryptOw : Statement .encryptOw := by
  constructor <;> rfl

theorem encryptOwM : Statement .encryptOwM := by
  constructor <;> rfl

theorem encryptX : Statement .encryptX := by
  constructor <;> rfl

theorem encryptXM : Statement .encryptXM := by
  constructor <;> rfl

theorem decryptOw : Statement .decryptOw := by
  constructor <;> rfl

theorem decryptOwM : Statement .decryptOwM := by
  constructor <;> rfl

theorem decryptX : Statement .decryptX := by
  constructor <;> rfl

theorem decryptXM : Statement .decryptXM := by
  constructor <;> rfl

end Sys2Proof.Laws.Layout
end

