-- ==== Sys2Proof/Laws/Sees.lean ====
section
/-!
SUPPORT. What a piece of pseudocode can see at most: two runs whose memories agree on the words it is given do the same.
-/

namespace Sys2Proof.Machine

open Sys2Proof

variable {α β : Type}

/-- Two states that differ at most in words of `M` outside `W`. -/
def Agree (W : Nat → Prop) (s s' : State) : Prop :=
  s' = { s with mem := s'.mem } ∧ ∀ a, W a → Memory.read s'.mem a = Memory.read s.mem a

theorem Agree.params {W : Nat → Prop} {s s' : State} (h : Agree W s s') : s'.params = s.params := by rw [h.1]

/-- A piece that answers alike, and leaves memories that agree, on states that agree on `W`. -/
def Cmd.Sees (W : Nat → Prop) (m : Cmd α) : Prop :=
  ∀ s s', Agree W s s' →
    (∃ a t t', m s = .done a t ∧ m s' = .done a t' ∧ Agree W t t') ∨
    (∃ e t t', m s = .raised e t ∧ m s' = .raised e t' ∧ Agree W t t') ∨
    (∃ f, m s = .absent f ∧ m s' = .absent f)

theorem Cmd.sees_ret (W : Nat → Prop) (a : α) : Cmd.Sees W (Cmd.ret a) :=
  fun s s' h => .inl ⟨a, s, s', rfl, rfl, h⟩

theorem Cmd.sees_raise (W : Nat → Prop) (kind : ErrKind) (info addr : RegVal) :
    Cmd.Sees W (Cmd.raise kind info addr : Cmd α) := fun s s' h => .inr (.inl ⟨_, s, s', rfl, rfl, h⟩)

theorem Cmd.sees_bind {W : Nat → Prop} {m : Cmd α} {k : α → Cmd β} (hm : Cmd.Sees W m)
    (hk : ∀ a, Cmd.Sees W (k a)) : Cmd.Sees W (Cmd.bind m k) := by
  intro s s' h
  rcases hm s s' h with ⟨a, t, t', h1, h2, h3⟩ | ⟨e, t, t', h1, h2, h3⟩ | ⟨f, h1, h2⟩
  · rw [Cmd.bind_done h1, Cmd.bind_done h2]
    exact hk a t t' h3
  · exact .inr (.inl ⟨e, t, t', Cmd.bind_raised h1, Cmd.bind_raised h2, h3⟩)
  · exact .inr (.inr ⟨f, Cmd.bind_absent h1, Cmd.bind_absent h2⟩)

theorem Cmd.sees_ite {W : Nat → Prop} {c : Prop} [Decidable c] {m k : Cmd α} (hm : c → Cmd.Sees W m)
    (hk : ¬c → Cmd.Sees W k) : Cmd.Sees W (if c then m else k) := by
  split
  · exact hm (by assumption)
  · exact hk (by assumption)

theorem Cmd.sees_forUp {W : Nat → Prop} {body : Nat → Cmd Unit} :
    ∀ (count k0 : Nat), (∀ k, k0 ≤ k → k < k0 + count → Cmd.Sees W (body k)) →
      Cmd.Sees W (Cmd.forUp body count k0)
  | 0, _, _ => Cmd.sees_ret W ()
  | count + 1, k0, h =>
    Cmd.sees_bind (h k0 (Nat.le_refl _) (by omega)) fun _ =>
      Cmd.sees_forUp count (k0 + 1) fun k hk hk' => h k (by omega) (by omega)

theorem Cmd.sees_forEach {W : Nat → Prop} {body : α → Cmd Unit} :
    ∀ (ts : List α), (∀ t ∈ ts, Cmd.Sees W (body t)) → Cmd.Sees W (Cmd.forEach body ts)
  | [], _ => Cmd.sees_ret W ()
  | t :: rest, h => Cmd.sees_bind (h t (by simp)) fun _ => Cmd.sees_forEach rest fun t ht => h t (by simp [ht])

/-! ### The accesses -/

theorem sees_setResult (W : Nat → Prop) (v : RegVal) : Cmd.Sees W (setResult v) := by
  intro s s' h
  refine .inl ⟨(), _, _, rfl, rfl, ?_, h.2⟩
  rw [h.1]
  rfl

theorem sees_memRead {W : Nat → Prop} {addr : Nat} (hW : W addr) : Cmd.Sees W (memRead addr) := by
  intro s s' h
  by_cases ha : addr < s.params.memWords
  · exact .inl ⟨_, s, s', memRead_done ha, by rw [memRead_done (by rwa [h.params]), h.2 addr hW], h⟩
  · exact .inr (.inr ⟨_, if_neg ha, if_neg (by rwa [h.params])⟩)

theorem sees_memWrite (W : Nat → Prop) (addr : Nat) (w : MWord) : Cmd.Sees W (memWrite addr w) := by
  intro s s' h
  by_cases ha : addr < s.params.memWords
  · refine .inl ⟨(), _, _, memWrite_done ha, memWrite_done (by rwa [h.params]), ?_, fun a hW => ?_⟩
    · rw [h.1]
      rfl
    · simp only [withMem_mem, Memory.read_write]
      split
      · rfl
      · exact h.2 a hW
  · exact .inr (.inr ⟨_, if_neg ha, if_neg (by rwa [h.params])⟩)

theorem sees_tbufRead (W : Nat → Prop) (c : Nat) : Cmd.Sees W (tbufRead c) := by
  intro s s' h
  have ht : s'.tbuf = s.tbuf := by rw [h.1]
  by_cases hc : c < s.params.tbufCells
  · exact .inl ⟨_, s, s', tbufRead_done hc, by rw [tbufRead_done (by rwa [h.params]), ht], h⟩
  · exact .inr (.inr ⟨_, if_neg hc, if_neg (by rwa [h.params])⟩)

theorem sees_tbufWrite (W : Nat → Prop) (c : Nat) (v : SymCode) : Cmd.Sees W (tbufWrite c v) := by
  intro s s' h
  have ht : s'.tbuf = s.tbuf := by rw [h.1]
  by_cases hc : c < s.params.tbufCells
  · refine .inl ⟨(), _, _, tbufWrite_done hc, tbufWrite_done (by rwa [h.params]), ?_, h.2⟩
    rw [ht, h.1]
    rfl
  · exact .inr (.inr ⟨_, if_neg hc, if_neg (by rwa [h.params])⟩)

theorem sees_decodeAt {W : Nat → Prop} (e : Enc) (o : Operand) {addr : Nat} (hW : W addr) :
    Cmd.Sees W (decodeAt e o addr) :=
  Cmd.sees_bind (sees_memRead hW) fun _ => Cmd.sees_ite (fun _ => Cmd.sees_ret W _) fun _ => Cmd.sees_raise W _ _ _

theorem sees_getSym {W : Nat → Prop} {e : Enc} {o : Operand} {k : Nat} (hW : W (o.wa e k)) :
    Cmd.Sees W (getSym e o k) := Cmd.sees_bind (sees_decodeAt e o hW) fun _ => Cmd.sees_ret W _

theorem sees_putSym {W : Nat → Prop} {e : Enc} {o : Operand} {k : Nat} (hW : W (o.wa e k)) (v : Sym) :
    Cmd.Sees W (putSym e o k v) := Cmd.sees_bind (sees_decodeAt e o hW) fun _ => sees_memWrite W _ _

theorem sees_writeCells (W : Nat → Prop) : ∀ (vs : List Sym) (c : Nat), Cmd.Sees W (writeCells c vs)
  | [], _ => Cmd.sees_ret W ()
  | v :: rest, c => Cmd.sees_bind (sees_tbufWrite W c (symCode v)) fun _ => sees_writeCells W rest (c + 1)

theorem sees_readCells (W : Nat → Prop) (e : Enc) : ∀ count c : Nat, Cmd.Sees W (readCells e count c)
  | 0, _ => Cmd.sees_ret W []
  | count + 1, c => by
    refine Cmd.sees_bind (sees_tbufRead W c) fun code => ?_
    split
    · exact Cmd.sees_raise W _ _ _
    · exact Cmd.sees_bind (sees_readCells W e count (c + 1)) fun _ => Cmd.sees_ret W _

/-! ### Traversals and procedures -/

theorem sees_traverseRO {W : Nat → Prop} {p : Params} {o : Operand} {n : Nat}
    {visit : Nat → List Sym → Cmd Unit} (hv : o.valid p n = true) (hW : ∀ a, o.array a → W a)
    (h : ∀ k0 vs, Cmd.Sees W (visit k0 vs)) : Cmd.Sees W (traverseRO p.enc o n visit) :=
  Cmd.sees_forEach _ fun t ht =>
    Cmd.sees_bind (sees_decodeAt _ _ (hW _ (touched_valid hv t ht).2.1)) fun _ => h _ _

theorem sees_traverseRW {W : Nat → Prop} {p : Params} {o : Operand} {n : Nat}
    {visit : Nat → List Sym → Cmd (List Sym)} (hv : o.valid p n = true) (hW : ∀ a, o.array a → W a)
    (h : ∀ k0 vs, Cmd.Sees W (visit k0 vs)) : Cmd.Sees W (traverseRW p.enc o n visit) :=
  Cmd.sees_forEach _ fun t ht =>
    Cmd.sees_bind (sees_decodeAt _ _ (hW _ (touched_valid hv t ht).2.1)) fun _ =>
      Cmd.sees_bind (h _ _) fun _ => sees_memWrite W _ _

theorem sees_copyEdge {W : Nat → Prop} (e : Enc) (a b : Operand) {x y : Nat} (lo hi : Nat) (hx : W x) (hy : W y) :
    Cmd.Sees W (copyEdge e a b x y lo hi) :=
  Cmd.sees_bind (sees_decodeAt e a hx) fun _ =>
    Cmd.sees_bind (sees_decodeAt e b hy) fun _ => sees_memWrite W _ _

theorem sees_copyProc {W : Nat → Prop} {p : Params} {a b : Operand} {n : Nat} (ha : a.valid p n = true)
    (hb : b.valid p n = true) (hW : ∀ x, a.array x ∨ b.array x → W x) : Cmd.Sees W (copyProc p.enc n a b) := by
  unfold copyProc
  refine Cmd.sees_ite (fun hf => ?_) fun _ => ?_
  · obtain ⟨-, h1, h2, h3⟩ := segments_same (of_decide_eq_true hf) n
    obtain ⟨va1, va2, va3⟩ := segments_valid ha
    obtain ⟨vb1, vb2, vb3⟩ := segments_valid hb
    rw [h1] at vb1
    rw [h2] at vb2 vb3
    rw [h3] at vb3
    refine Cmd.sees_bind (Cmd.sees_ite (fun h => ?_) fun _ => Cmd.sees_ret W _) fun _ =>
      Cmd.sees_bind (Cmd.sees_forUp _ 0 fun j _ hj => ?_) fun _ =>
        Cmd.sees_ite (fun h => ?_) fun _ => Cmd.sees_ret W _
    · exact sees_copyEdge _ _ _ _ _ (hW _ (.inl (va1 h).2)) (hW _ (.inr (vb1 h).2))
    · exact Cmd.sees_bind (sees_memRead (hW _ (.inl (va2 j (by omega)).2))) fun _ => sees_memWrite W _ _
    · exact sees_copyEdge _ _ _ _ _ (hW _ (.inl (va3 h).2)) (hW _ (.inr (vb3 h).2))
  · exact Cmd.sees_forUp _ 0 fun k _ hk =>
      Cmd.sees_bind (sees_getSym (hW _ (.inl (wa_valid ha (by omega)).2))) fun _ =>
        sees_putSym (hW _ (.inr (wa_valid hb (by omega)).2)) _

theorem sees_fillzProc {W : Nat → Prop} {p : Params} {a : Operand} {n : Nat} (ha : a.valid p n = true)
    (hW : ∀ x, a.array x → W x) : Cmd.Sees W (fillzProc p.enc n a) :=
  Cmd.sees_forEach _ fun t ht =>
    Cmd.sees_ite (fun _ => sees_memWrite W _ _) fun _ =>
      Cmd.sees_bind (sees_decodeAt _ _ (hW _ (touched_valid ha t ht).2.1)) fun _ => sees_memWrite W _ _

theorem sees_equEdge {W : Nat → Prop} (e : Enc) (a b : Operand) {x y : Nat} (lo hi : Nat) (hx : W x) (hy : W y) :
    Cmd.Sees W (equEdge e a b x y lo hi) :=
  Cmd.sees_bind (sees_decodeAt e a hx) fun _ => Cmd.sees_bind (sees_decodeAt e b hy) fun _ => Cmd.sees_ret W _

theorem sees_equWords {W : Nat → Prop} :
    ∀ (count x y : Nat), (∀ j, j < count → W (x + j) ∧ W (y + j)) → Cmd.Sees W (equWords x y count)
  | 0, _, _, _ => Cmd.sees_ret W true
  | count + 1, x, y, h =>
    Cmd.sees_bind (sees_memRead (h 0 (by omega)).1) fun _ =>
      Cmd.sees_bind (sees_memRead (h 0 (by omega)).2) fun _ =>
        Cmd.sees_ite
          (fun _ => sees_equWords count (x + 1) (y + 1) fun j hj => by
            have := h (j + 1) (by omega)
            rwa [← Nat.add_assoc, ← Nat.add_assoc, Nat.add_right_comm x, Nat.add_right_comm y] at this)
          fun _ => Cmd.sees_ret W false

theorem sees_equSlow {W : Nat → Prop} {e : Enc} {a b : Operand} :
    ∀ (count k : Nat) (eq : Bool), (∀ j, k ≤ j → j < k + count → W (a.wa e j) ∧ W (b.wa e j)) →
      Cmd.Sees W (equSlow e a b count k eq)
  | 0, _, eq, _ => Cmd.sees_ret W eq
  | count + 1, k, _, h =>
    Cmd.sees_bind (sees_getSym (h k (Nat.le_refl _) (by omega)).1) fun _ =>
      Cmd.sees_bind (sees_getSym (h k (Nat.le_refl _) (by omega)).2) fun _ =>
        sees_equSlow count (k + 1) _ fun j hj hj' => h j (by omega) (by omega)

theorem sees_equProc {W : Nat → Prop} {p : Params} {a b : Operand} {n : Nat} (ha : a.valid p n = true)
    (hb : b.valid p n = true) (hW : ∀ x, a.array x ∨ b.array x → W x) : Cmd.Sees W (equProc p.enc n a b) := by
  unfold equProc
  refine Cmd.sees_ite (fun hf => ?_) fun _ => ?_
  · obtain ⟨-, h1, h2, h3⟩ := segments_same (of_decide_eq_true hf) n
    obtain ⟨va1, va2, va3⟩ := segments_valid ha
    obtain ⟨vb1, vb2, vb3⟩ := segments_valid hb
    rw [h1] at vb1
    rw [h2] at vb2 vb3
    rw [h3] at vb3
    have both {m k : Cmd Bool} (hm : Cmd.Sees W m) (hk : Cmd.Sees W k) : Cmd.Sees W (Cmd.andAlso m k) :=
      Cmd.sees_bind hm fun _ => Cmd.sees_ite (fun _ => hk) fun _ => Cmd.sees_ret W false
    refine both (Cmd.sees_ite (fun h => ?_) fun _ => Cmd.sees_ret W _)
      (both (sees_equWords _ _ _ fun j hj => ⟨hW _ (.inl (va2 j hj).2), hW _ (.inr (vb2 j hj).2)⟩)
        (Cmd.sees_ite (fun h => ?_) fun _ => Cmd.sees_ret W _))
    · exact sees_equEdge _ _ _ _ _ (hW _ (.inl (va1 h).2)) (hW _ (.inr (vb1 h).2))
    · exact sees_equEdge _ _ _ _ _ (hW _ (.inl (va3 h).2)) (hW _ (.inr (vb3 h).2))
  · exact sees_equSlow n 0 true fun j _ hj =>
      ⟨hW _ (.inl (wa_valid ha (by omega)).2), hW _ (.inr (wa_valid hb (by omega)).2)⟩

theorem sees_feedback {W : Nat → Prop} {p : Params} {d st out : Operand} {n : Nat} (f g : Sym → Sym → Sym)
    (hd : d.valid p n = true) (hs : st.valid p n = true) (ho : out.valid p n = true)
    (hW : ∀ x, d.array x ∨ st.array x ∨ out.array x → W x) : Cmd.Sees W (feedback p.enc d st out f g n) :=
  Cmd.sees_forUp n 0 fun k _ hk =>
    Cmd.sees_bind (sees_getSym (hW _ (.inl (wa_valid hd (by omega)).2))) fun _ =>
      Cmd.sees_bind (sees_getSym (hW _ (.inr (.inl (wa_valid hs (by omega)).2)))) fun _ =>
        Cmd.sees_bind (sees_putSym (hW _ (.inr (.inr (wa_valid ho (by omega)).2))) _) fun _ =>
          sees_putSym (hW _ (.inr (.inl (wa_valid hs (by omega)).2))) _

theorem sees_absorb {W : Nat → Prop} {p : Params} {st d : Operand} {n : Nat} (hs : st.valid p n = true)
    (hd : d.valid p n = true) (hW : ∀ x, st.array x ∨ d.array x → W x) :
    Cmd.Sees W (Cmd.forUp (absorbStep p.enc st d) n 0) :=
  Cmd.sees_forUp n 0 fun k _ hk =>
    Cmd.sees_bind (sees_getSym (hW _ (.inl (wa_valid hs (by omega)).2))) fun _ =>
      Cmd.sees_bind (sees_getSym (hW _ (.inr (wa_valid hd (by omega)).2))) fun _ =>
        sees_putSym (hW _ (.inl (wa_valid hs (by omega)).2)) _

end Sys2Proof.Machine
end

