-- ==== Sys2Proof/Laws/Traverse.lean ====
section
/-!
SUPPORT. Word by word: what a rewritten word means symbol by symbol, loops over the touched words of a span, and runs of
TBUF cells.
-/

namespace Sys2Proof.Machine

open Sys2Proof

/-! ### Parts of a word -/

theorem symAtIndex_slice (a : List Sym) {lo hi i : Nat} (hi' : i < hi - lo) :
    symAtIndex (slice a lo hi) i = symAtIndex a (lo + i) := by
  simp [symAtIndex, slice, List.getD_eq_getElem?_getD, List.getElem?_drop, show lo + i < hi by omega]

theorem symAtIndex_splice {a v : List Sym} {lo hi : Nat} (hl : lo ≤ hi) (hh : hi ≤ a.length) (hv : v.length = hi - lo)
    (i : Nat) : symAtIndex (splice a lo hi v) i =
      if lo ≤ i ∧ i < hi then symAtIndex v (i - lo) else symAtIndex a i := by
  have h1 : (a.take lo).length = lo := by simp; omega
  have h2 : (a.take lo ++ v).length = hi := by rw [List.length_append, h1, hv]; omega
  simp only [symAtIndex, splice, List.getD_eq_getElem?_getD]
  by_cases h : i < hi
  · rw [List.getElem?_append_left (by omega)]
    by_cases h' : lo ≤ i
    · rw [if_pos ⟨h', h⟩, List.getElem?_append_right (by omega), h1]
    · rw [if_neg (by omega), List.getElem?_append_left (by omega), List.getElem?_take_of_lt (by omega)]
  · rw [if_neg (by omega), List.getElem?_append_right (by omega), h2, List.getElem?_drop, show hi + (i - hi) = i by omega]

theorem inAlphabet_slice {e : Enc} {a : List Sym} (ha : ∀ x ∈ a, inAlphabet e x = true) (lo hi : Nat) :
    ∀ x ∈ slice a lo hi, inAlphabet e x = true :=
  fun x hx => ha x (List.mem_of_mem_take (List.mem_of_mem_drop hx))

theorem inAlphabet_splice {e : Enc} {a v : List Sym} (ha : ∀ x ∈ a, inAlphabet e x = true)
    (hv : ∀ x ∈ v, inAlphabet e x = true) (lo hi : Nat) : ∀ x ∈ splice a lo hi v, inAlphabet e x = true := by
  intro x hx
  simp only [splice, List.mem_append] at hx
  rcases hx with (h | h) | h
  · exact ha x (List.mem_of_mem_take h)
  · exact hv x h
  · exact ha x (List.mem_of_mem_drop h)

/-! ### One word rewritten -/

/-- A word written as the encoding of an array: its symbols are those of the array, all others are kept. -/
theorem symIn_writeWord {e : Enc} {l : List Sym} (hl : l.length = e.size) (ha : ∀ x ∈ l, inAlphabet e x = true)
    (m : Memory 8) (addr j : Nat) :
    symIn e (Memory.write m addr (enc e l)) j =
      if j / e.size = addr then symAtIndex l (j % e.size) else symIn e m j := by
  unfold symIn
  rw [Memory.read_write]
  split
  · rw [dec_enc hl ha]
  · rfl

theorem symAtIndex_zeroWord (e : Enc) (i : Nat) : symAtIndex (dec e zeroWord) i = .zero := by
  rw [dec_zeroWord, symAtIndex, List.getD_eq_getElem?_getD]
  by_cases h : i < e.size
  · simp [h]
  · simp [h]

theorem symIn_writeZero (e : Enc) (m : Memory 8) (addr j : Nat) :
    symIn e (Memory.write m addr zeroWord) j = if j / e.size = addr then .zero else symIn e m j := by
  unfold symIn
  rw [Memory.read_write]
  split
  · exact symAtIndex_zeroWord e _
  · rfl

/-- A word copied as a raw pattern, legal or not. -/
theorem symIn_writeRaw (e : Enc) (m : Memory 8) (addr src j : Nat) :
    symIn e (Memory.write m addr (Memory.read m src)) j =
      if j / e.size = addr then symIn e m (src * e.size + j % e.size) else symIn e m j := by
  unfold symIn
  rw [Memory.read_write]
  split
  · rw [Nat.mul_comm src, Nat.mul_add_div (size_pos e), Nat.div_eq_of_lt (Nat.mod_lt _ (size_pos e)), Nat.add_zero,
      Nat.mul_add_mod, Nat.mod_mod]
  · rfl

/-- An absolute symbol address is one word and one index. -/
theorem div_mod_eq_iff {e : Enc} {j a i : Nat} (hi : i < e.size) :
    j / e.size = a ∧ j % e.size = i ↔ j = a * e.size + i := by
  constructor
  · rintro ⟨rfl, rfl⟩
    rw [Nat.mul_comm, Nat.div_add_mod]
  · rintro rfl
    exact ⟨by rw [Nat.mul_comm, Nat.mul_add_div (size_pos e), Nat.div_eq_of_lt hi, Nat.add_zero],
      by rw [Nat.mul_comm, Nat.mul_add_mod, Nat.mod_eq_of_lt hi]⟩

/-- The word and the index of symbol k, as an absolute symbol address. -/
theorem Operand.abs_add (e : Enc) (o : Operand) (k : Nat) : o.wa e k * e.size + o.ix e k = o.abs e + k := by
  rw [o.wa_eq, o.ix_eq, Nat.mul_comm, Nat.div_add_mod]

/-- The symbols of one touched word that belong to the span. -/
theorem touch_iff {e : Enc} {o : Operand} {k hi : Nat} (hh : hi ≤ e.size) (j : Nat) :
    (j / e.size = o.wa e k ∧ o.ix e k ≤ j % e.size ∧ j % e.size < hi) ↔
      (o.abs e + k ≤ j ∧ j < o.abs e + k + (hi - o.ix e k)) := by
  have habs := o.abs_add e k
  constructor
  · rintro ⟨h1, h2, h3⟩
    have := (div_mod_eq_iff (e := e) (Nat.mod_lt j (size_pos e))).mp ⟨h1, rfl⟩
    omega
  · rintro ⟨h1, h2⟩
    have hj : j = o.wa e k * e.size + (j - o.wa e k * e.size) := by omega
    obtain ⟨h3, h4⟩ := (div_mod_eq_iff (e := e) (j := j) (show j - o.wa e k * e.size < e.size by omega)).mpr hj
    exact ⟨h3, by omega, by omega⟩

/-- A touched word rewritten in the part that belongs to the span: that part of memory gets the new symbols, in order,
and every other symbol is kept. -/
theorem symIn_writeTouch {e : Enc} {o : Operand} {k hi : Nat} {v : List Sym} {m : Memory 8}
    (hlt : o.ix e k < hi) (hh : hi ≤ e.size) (hv : v.length = hi - o.ix e k)
    (hav : ∀ x ∈ v, inAlphabet e x = true) (j : Nat) :
    symIn e (Memory.write m (o.wa e k)
        (enc e (splice (dec e (Memory.read m (o.wa e k))) (o.ix e k) hi v))) j =
      if o.abs e + k ≤ j ∧ j < o.abs e + k + (hi - o.ix e k) then symAtIndex v (j - (o.abs e + k))
      else symIn e m j := by
  have hlen : hi ≤ (dec e (Memory.read m (o.wa e k))).length := by rw [dec_length]; exact hh
  rw [symIn_writeWord (by simp [splice, hv]; omega) (inAlphabet_splice inAlphabet_dec hav _ _)]
  have habs := o.abs_add e k
  by_cases hw : j / e.size = o.wa e k
  · rw [if_pos hw, symAtIndex_splice (Nat.le_of_lt hlt) hlen hv]
    have hj := (div_mod_eq_iff (e := e) (Nat.mod_lt j (size_pos e))).mp ⟨hw, rfl⟩
    by_cases hc : o.ix e k ≤ j % e.size ∧ j % e.size < hi
    · rw [if_pos hc, if_pos ((touch_iff hh j).mp ⟨hw, hc⟩)]
      congr 1
      omega
    · rw [if_neg hc, if_neg fun h => hc ((touch_iff hh j).mpr h).2, symIn, hw]
  · rw [if_neg hw, if_neg fun h => hw ((touch_iff hh j).mpr h).1]

/-! ### Loops over the touched words -/

/-- A loop over touches that cover a span, each pass taking memory from `P` of its first symbol to `P` of the symbol after
its last. -/
theorem Cmd.forEach_done {e : Enc} {o : Operand} {n : Nat} {body : Touch → Cmd Unit} {s : State}
    (P : Nat → Memory 8 → Prop) :
    ∀ (ts : List Touch) (k : Nat) (m : Memory 8), Covers e o n k ts →
      (∀ k hi m, o.ix e k < hi → hi ≤ e.size → (hi = e.size ∨ k + (hi - o.ix e k) = n) → k + (hi - o.ix e k) ≤ n →
        P k m →
        ∃ m', body { addr := o.wa e k, lo := o.ix e k, hi := hi, k0 := k } (withMem s m) = .done () (withMem s m') ∧
          P (k + (hi - o.ix e k)) m') →
      P k m → ∃ m', Cmd.forEach body ts (withMem s m) = .done () (withMem s m') ∧ P n m'
  | [], _, m, hc, _, h0 => ⟨m, rfl, by cases hc; exact h0⟩
  | t :: rest, k, m, hc, step, h0 => by
    obtain ⟨hi, rfl, h1, h2, h3, h4, h5⟩ := covers_cons_elim hc
    obtain ⟨m1, e1, p1⟩ := step k hi m h1 h2 h3 h4 h0
    obtain ⟨m2, e2, p2⟩ := Cmd.forEach_done P rest _ m1 h5 step p1
    exact ⟨m2, by rw [Cmd.forEach, Cmd.bind_done e1, e2], p2⟩

/-- A loop over touches that cover a span, one of which raises an error: those before it are done. The pass that raises
is the one of the word of symbol `j`. -/
theorem Cmd.forEach_raised {e : Enc} {o : Operand} {n : Nat} {body : Touch → Cmd Unit} {s : State} {err : Err}
    (P : Nat → Memory 8 → Prop) (j : Nat) (Q : Memory 8 → Prop) :
    ∀ (ts : List Touch) (k : Nat) (m : Memory 8), Covers e o n k ts → k ≤ j → j < n →
      (∀ k hi m, o.ix e k < hi → hi ≤ e.size → (hi = e.size ∨ k + (hi - o.ix e k) = n) → k + (hi - o.ix e k) ≤ j →
        P k m →
        ∃ m', body { addr := o.wa e k, lo := o.ix e k, hi := hi, k0 := k } (withMem s m) = .done () (withMem s m') ∧
          P (k + (hi - o.ix e k)) m') →
      (∀ k hi m, o.ix e k < hi → hi ≤ e.size → (hi = e.size ∨ k + (hi - o.ix e k) = n) → k + (hi - o.ix e k) ≤ n →
        k ≤ j → j < k + (hi - o.ix e k) → P k m →
        ∃ m', body { addr := o.wa e k, lo := o.ix e k, hi := hi, k0 := k } (withMem s m) =
          .raised err (withMem s m') ∧ Q m') →
      P k m → ∃ m', Cmd.forEach body ts (withMem s m) = .raised err (withMem s m') ∧ Q m'
  | [], _, _, hc, hk, hj, _, _, _ => by cases hc; omega
  | t :: rest, k, m, hc, hk, hj, step, last, h0 => by
    obtain ⟨hi, rfl, h1, h2, h3, h4, h5⟩ := covers_cons_elim hc
    by_cases h : k + (hi - o.ix e k) ≤ j
    · obtain ⟨m1, e1, p1⟩ := step k hi m h1 h2 h3 h h0
      obtain ⟨m2, e2, q2⟩ := Cmd.forEach_raised P j Q rest _ m1 h5 h hj step last p1
      exact ⟨m2, by rw [Cmd.forEach, Cmd.bind_done e1, e2], q2⟩
    · obtain ⟨m1, e1, q1⟩ := last k hi m h1 h2 h3 h4 hk (by simpa using h) h0
      exact ⟨m1, by rw [Cmd.forEach, Cmd.bind_raised e1], q1⟩

/-- Symbols of one touched word lie in its word. -/
theorem wa_of_touch {e : Enc} {o : Operand} {k hi j : Nat} (hh : hi ≤ e.size) (hk : k ≤ j)
    (hj : j < k + (hi - o.ix e k)) : o.wa e j = o.wa e k := by
  have := (o.wa_add (e := e) (k := k) (i := j - k) (by omega)).1
  rwa [show k + (j - k) = j by omega] at this

theorem wa_mono (e : Enc) (o : Operand) {j k : Nat} (h : j ≤ k) : o.wa e j ≤ o.wa e k :=
  Nat.add_le_add_left (Nat.div_le_div_right (Nat.add_le_add_left h _)) _

/-! ### Runs of cells -/

/-- The storage with the codes of symbols written upward from a cell. -/
def putCells (m : Memory 2) (c : Nat) (vs : List Sym) : Memory 2 := Memory.writeMany m c (vs.map symCode)

theorem writeCells_done : ∀ (vs : List Sym) (c : Nat) (s : State), c + vs.length ≤ s.params.tbufCells →
    writeCells c vs s = .done () (withTbuf s (putCells s.tbuf c vs))
  | [], _, _, _ => rfl
  | v :: rest, c, s, h => by
    rw [List.length_cons] at h
    rw [writeCells, Cmd.bind_done (tbufWrite_done (by omega)), writeCells_done rest (c + 1) _ (by
      rw [withTbuf_params]; omega)]
    rfl

theorem read_putCells (m : Memory 2) (c d : Nat) (vs : List Sym) :
    Memory.read (putCells m c vs) d =
      if c ≤ d ∧ d < c + vs.length then symCode (symAtIndex vs (d - c)) else Memory.read m d := by
  unfold putCells
  rw [Memory.read_writeMany, List.length_map]
  split
  · rename_i h
    rw [symAtIndex, List.getD_eq_getElem?_getD, List.getD_eq_getElem?_getD, List.getElem?_map]
    rw [List.getElem?_eq_getElem (by omega)]
    rfl
  · rfl

/-- Cells with legal codes only: the list of their symbols. -/
theorem readCells_done {e : Enc} : ∀ (count c : Nat) (s : State), c + count ≤ s.params.tbufCells →
    (∀ k, k < count → uncode e (Memory.read s.tbuf (c + k)) ≠ none) →
    ∃ vs : List Sym, readCells e count c s = .done vs s ∧ vs.length = count ∧
      ∀ k, k < count → uncode e (Memory.read s.tbuf (c + k)) = some (symAtIndex vs k)
  | 0, _, _, _, _ => ⟨[], rfl, rfl, fun _ h => absurd h (by omega)⟩
  | count + 1, c, s, h, hl => by
    cases hc : uncode e (Memory.read s.tbuf c) with
    | none => exact absurd hc (hl 0 (by omega))
    | some v =>
      obtain ⟨vs, h1, h2, h3⟩ := readCells_done count (c + 1) s (by omega) fun k hk => by
        have := hl (k + 1) (by omega)
        rwa [show c + (k + 1) = c + 1 + k by omega] at this
      refine ⟨v :: vs, ?_, by simp [h2], fun k hk => ?_⟩
      · rw [readCells, Cmd.bind_done (tbufRead_done (by omega)), hc]
        exact Cmd.bind_done h1
      · cases k with
        | zero => exact hc
        | succ k =>
          rw [show c + (k + 1) = c + 1 + k by omega]
          exact h3 k (by omega)

/-- The lowest cell with an illegal code raises (60_exceptions.md R242 (b)). -/
theorem readCells_raised {e : Enc} : ∀ (count c j : Nat) (s : State), c + count ≤ s.params.tbufCells → j < count →
    (∀ k, k < j → uncode e (Memory.read s.tbuf (c + k)) ≠ none) → uncode e (Memory.read s.tbuf (c + j)) = none →
    readCells e count c s =
      .raised { kind := .illegalSymbol, info := tbufCode, addr := BitVec.ofNat 32 (c + j) } s
  | 0, _, _, _, _, hj, _, _ => absurd hj (by omega)
  | count + 1, c, j, s, h, hj, hl, hx => by
    rw [readCells, Cmd.bind_done (tbufRead_done (by omega))]
    cases j with
    | zero =>
      rw [Nat.add_zero] at hx
      rw [hx]
      rfl
    | succ j =>
      cases hc : uncode e (Memory.read s.tbuf c) with
      | none => exact absurd hc (hl 0 (by omega))
      | some v =>
        refine (Cmd.bind_raised (readCells_raised count (c + 1) j s (by omega) (by omega) (fun k hk => ?_) ?_)).trans ?_
        · have := hl (k + 1) (by omega)
          rwa [show c + (k + 1) = c + 1 + k by omega] at this
        · rwa [show c + (j + 1) = c + 1 + j by omega] at hx
        · rw [show c + (j + 1) = c + 1 + j by omega]

/-- Which codes have no symbol (10_state.md R47). -/
theorem uncode_none_iff (e : Enc) (c : SymCode) : uncode e c = none ↔ c = 2 ∨ (c = 3 ∧ e = .bin8) := by
  revert c
  cases e <;> decide

end Sys2Proof.Machine
end

