-- ==== Sys2Proof/Tests/Slice0.lean ====
section
/-!
SUPPORT. Tests: expected values come from spec/95_test_vectors.md (cited as V…) or from the tables of the rules named; and
one witness for each statement that has hypotheses.
-/

namespace Sys2Proof.Tests

open Sys2Proof Sys2Proof.Machine

-- one evaluation after another: many at once need a thread and its stack each
set_option Elab.async false

/-! ### Well-formedness: the one check, and what it refuses -/

theorem test_wf_command : Instr.wf (.copy .x .s) = true ∧ Instr.wf .adds = true ∧ Instr.wf (.put .y 2) = true := by
  decide +kernel

theorem test_wf_refuses_assembler_names :
    Instr.wf .absorbOw = false ∧ Instr.wf .absorbX = false ∧ Instr.wf .squeezeOw = false ∧
      Instr.wf .squeezeX = false ∧ Instr.wf .squeezeeqOw = false ∧ Instr.wf .squeezeeqX = false ∧
      Instr.wf .encryptOw = false ∧ Instr.wf .encryptOwM = false ∧ Instr.wf .encryptX = false ∧
      Instr.wf .encryptXM = false ∧ Instr.wf .decryptOw = false ∧ Instr.wf .decryptOwM = false ∧
      Instr.wf .decryptX = false ∧ Instr.wf .decryptXM = false := by decide +kernel

/-! ### Decoding: words written out bit by bit, reserved_sym2_sym_spb_spa_op (30_encoding.md R101, R104, R109; V8.1) -/

theorem test_decode_codec :
    decode 0b000000000000000000_00_00_00_00_000001#32 = .ok .w2s ∧
      decode 0b000000000000000000_00_00_00_00_000010#32 = .ok .s2w ∧
      decode 0b000000000000000000_00_00_00_01_000011#32 = .ok (.get .x) ∧
      decode 0b000000000000000000_00_01_00_10_000100#32 = .ok (.put .y 1) ∧
      decode 0b000000000000000000_00_11_00_00_000100#32 = .ok (.put .s 3) ∧
      decode 0b000000000000000000_00_00_00_01_000101#32 = .ok (.tosym .x) ∧
      decode 0b000000000000000000_00_00_00_10_000110#32 = .ok (.fromsym .y) := ⟨rfl, rfl, rfl, rfl, rfl, rfl, rfl⟩

theorem test_decode_bulk :
    decode 0b000000000000000000_00_00_10_01_001000#32 = .ok (.copy .x .y) ∧
      decode 0b000000000000000000_00_00_00_00_001001#32 = .ok (.fillz .s) ∧
      decode 0b000000000000000000_00_00_01_00_001010#32 = .ok (.equ .s .x) := ⟨rfl, rfl, rfl⟩

theorem test_decode_arith :
    decode 0b000000000000000000_11_01_00_00_010000#32 = .ok (.add 1 3) ∧
      decode 0b000000000000000000_01_11_00_00_010001#32 = .ok (.sub 3 1) := ⟨rfl, rfl⟩

theorem test_decode_combinators :
    decode 0b000000000000000000_00_00_00_00_100000#32 = .ok .setxa ∧
      decode 0b000000000000000000_00_00_00_00_100001#32 = .ok .setxs ∧
      decode 0b000000000000000000_00_00_00_00_100010#32 = .ok .setya ∧
      decode 0b000000000000000000_00_00_00_00_100011#32 = .ok .setys ∧
      decode 0b000000000000000000_00_00_00_00_100100#32 = .ok .setxam ∧
      decode 0b000000000000000000_00_00_00_00_100101#32 = .ok .setxsm ∧
      decode 0b000000000000000000_00_00_00_00_100110#32 = .ok .setyam ∧
      decode 0b000000000000000000_00_00_00_00_100111#32 = .ok .setysm := ⟨rfl, rfl, rfl, rfl, rfl, rfl, rfl, rfl⟩

theorem test_decode_sponge_and_system :
    decode 0b000000000000000000_00_00_00_00_101000#32 = .ok .adds ∧
      decode 0b000000000000000000_00_00_00_00_101001#32 = .ok .sqzow ∧
      decode 0b000000000000000000_00_00_00_00_101010#32 = .ok .sqeow ∧
      decode 0b000000000000000000_00_00_00_00_111111#32 = .ok .clrerr := ⟨rfl, rfl, rfl, rfl⟩

/-- R109: the words of the assembler names decode to the commands they expand to. -/
theorem test_decode_names :
    decode 0x00000048#32 = .ok (Instr.expand .absorbOw) ∧ decode 0x00000028#32 = .ok (Instr.expand .absorbX) ∧
      decode 0x00000029#32 = .ok (Instr.expand .squeezeOw) ∧ decode 0x00000208#32 = .ok (Instr.expand .squeezeX) ∧
      decode 0x0000002A#32 = .ok (Instr.expand .squeezeeqOw) ∧
      decode 0x0000010A#32 = .ok (Instr.expand .squeezeeqX) ∧
      decode 0x00000020#32 = .ok (Instr.expand .encryptOw) ∧
      decode 0x00000024#32 = .ok (Instr.expand .encryptOwM) ∧
      decode 0x00000022#32 = .ok (Instr.expand .encryptX) ∧ decode 0x00000026#32 = .ok (Instr.expand .encryptXM) ∧
      decode 0x00000021#32 = .ok (Instr.expand .decryptOw) ∧
      decode 0x00000025#32 = .ok (Instr.expand .decryptOwM) ∧
      decode 0x00000023#32 = .ok (Instr.expand .decryptX) ∧
      decode 0x00000027#32 = .ok (Instr.expand .decryptXM) :=
  ⟨rfl, rfl, rfl, rfl, rfl, rfl, rfl, rfl, rfl, rfl, rfl, rfl, rfl, rfl⟩

/-- V8.2: one illegal word for each of the four reasons of R106. -/
theorem test_decode_refuses :
    decode 0x00000007#32 = .error (.reservedOpcode 7) ∧ decode 0x80000020#32 = .error .reservedBits ∧
      decode 0x00000103#32 = .error .unusedField ∧ decode 0x000000C3#32 = .error .reservedSelector ∧
      decode 0x00000308#32 = .error .reservedSelector ∧ decode 0x00001004#32 = .error .unusedField :=
  ⟨rfl, rfl, rfl, rfl, rfl, rfl⟩

theorem test_decodeTableWord :
    decodeTableWord 32 0x00000248 = some (.copy .x .y) ∧ decodeTableWord 32 0x00000000 = none := by decide +kernel

theorem test_encode :
    encode (.put .y 1) = 0x00000484#32 ∧ encode (.sub 3 1) = 0x00001C11#32 ∧ encode (.equ .x .y) = 0x0000024A#32 ∧
      encode .squeezeX = 0x00000208#32 := by decide +kernel

/-! ### States for the tests -/

/-- Words of `M` from an address upward. -/
def cells {w : Nat} (a : Nat) (vs : List (BitVec w)) : Memory w := Memory.writeMany [] a vs

/-- A span register group. -/
def span (base len off : RegVal) : SpanRegs := { base := base, len := len, off := off }

/-- A machine with these spans and this count, everything else at reset. -/
def machine (e : Enc) (mem : Memory 8) (n : RegVal) (spanS spanX spanY : SpanRegs) : State :=
  { State.resetWith { enc := e, memWords := 64, tbufCells := 64 } mem [] [] [] with
    n := n
    spanS := spanS
    spanX := spanX
    spanY := spanY }

/-- The state a command leaves, `s` where it leaves none. -/
def after (i : Instr) (s : State) : State :=
  match exec i s with
  | .next t => t
  | _ => s

/-- Words of `M`. -/
def wordsAt (s : State) (a count : Nat) : List MWord := Memory.readMany s.mem a count

/-- The words an instruction leaves from an address upward. -/
abbrev leaves (i : Instr) (s : State) (a : Nat) (ws : List MWord) : Prop := wordsAt (after i s) a ws.length = ws

/-- Cells of TBUF. -/
def cellsAt (s : State) (c count : Nat) : List SymCode := Memory.readMany s.tbuf c count

/-- `STATUS`, `ERRINFO`, `ERRADDR`. -/
def errors (s : State) : List RegVal := [s.status, s.errInfo, s.errAddr]

/-- "start B" of V7. -/
def startB : State :=
  machine .bin8 (cells 0 [0x0F, 0x35, 0xA0] ++ cells 8 [0xC5, 0x3A]) 12 (span 0 3 4) (span 8 2 0) (span 16 3 3)

/-- "start B with Y = A8 4C 00, X = 00 00". -/
def startB2 : State :=
  machine .bin8 (cells 0 [0x0F, 0x35, 0xA0] ++ cells 16 [0xA8, 0x4C]) 12 (span 0 3 4) (span 8 2 0) (span 16 3 3)

/-- "start B with X = 95 39". -/
def startB3 : State :=
  machine .bin8 (cells 0 [0x0F, 0x35, 0xA0] ++ cells 8 [0x95, 0x39]) 12 (span 0 3 4) (span 8 2 0) (span 16 3 3)

/-- "start T" of V7. -/
def startT : State :=
  machine .ter5 (cells 0 [0x64, 0x9C] ++ cells 8 [0x0D, 0xFE]) 7 (span 0 2 2) (span 8 2 0) (span 16 2 1)

/-- "T with Y = 8B 06, X = 00 00". -/
def startT2 : State :=
  machine .ter5 (cells 0 [0x64, 0x9C] ++ cells 16 [0x8B, 0x06]) 7 (span 0 2 2) (span 8 2 0) (span 16 2 1)

/-! ### Word codec and symbol access (V2) -/

theorem test_dec :
    dec .bin8 0xA5 = [.pos, .zero, .pos, .zero, .zero, .pos, .zero, .pos] ∧
      dec .ter5 0x64 = [.pos, .zero, .neg, .pos, .pos] ∧ dec .ter5 0x87 = [.neg, .neg, .neg, .neg, .neg] := by
  decide +kernel

theorem test_legal : legal .ter5 0x79 = true ∧ legal .ter5 0x7A = false ∧ legal .ter5 0x86 = false ∧
    legal .ter5 0x87 = true ∧ legal .bin8 0x80 = true := by decide +kernel

def w2sT : State := { machine .ter5 [] 0 (span 0 0 0) (span 0 0 0) (span 0 0 0) with wdata := 0x64 }

theorem test_w2s : cellsAt (after .w2s w2sT) 0 5 = [1, 0, 3, 1, 1] := by decide +kernel
theorem test_w2s_illegal :
    errors (after .w2s { w2sT with wdata := 0x80 }) = [0x50, 0x20, 0x80] := by decide +kernel

def s2wT : State := { w2sT with tbuf := cells 0 [3, 0, 1, 3, 3] }

theorem test_s2w : (after .s2w s2wT).wdata = 0x9C := by decide +kernel
theorem test_s2w_illegal : errors (after .s2w { s2wT with tbuf := cells 0 [3, 0, 2, 3, 3] }) = [0x20, 3, 2] := by
  decide +kernel

def getT : State := machine .ter5 (cells 0 [0x64, 0x9C, 0x0D]) 0 (span 0 0 0) (span 0 3 2) (span 0 3 7)

theorem test_get : (after (.get .x) getT).result = 3 := by decide +kernel
theorem test_get_illegal :
    errors (after (.get .x) { getT with mem := cells 0 [0x64, 0x80], spanX := span 0 2 5 }) = [0x50, 1, 1] := by
  decide +kernel

theorem test_put : leaves (.put .y 3) getT 0 [0x64, 0x8A, 0x0D] := by decide +kernel
theorem test_put_bounds : errors (after (.put .y 3) { getT with spanY := span 0 3 15 }) = [0x30, 2, 0] := by
  decide +kernel

def tosymB : State :=
  { machine .bin8 (cells 0 [0xB7, 0x5A, 0xC3]) 11 (span 0 0 0) (span 0 3 6) (span 0 0 0) with tboff := 2 }

theorem test_tosym :
    cellsAt (after (.tosym .x) tosymB) 0 14 = [0, 0, 0, 1, 0, 1, 0, 1, 1, 0, 1, 0, 1, 0] := by decide +kernel

def fromsymB : State :=
  { machine .bin8 (cells 1 [0xFF]) 11 (span 0 0 0) (span 0 0 0) (span 0 3 6) with
    tboff := 4
    tbuf := cells 4 [1, 1, 0, 1, 0, 0, 1, 0, 1, 1, 1] }

theorem test_fromsym : leaves (.fromsym .y) fromsymB 0 [0xC0, 0xD2, 0x01] := by decide +kernel
theorem test_fromsym_part_way :
    leaves (.fromsym .y) { fromsymB with tbuf := cells 4 [1, 1, 0, 1, 2, 0, 1, 0, 1, 1, 1] } 0 [0xC0, 0xFF, 0x00] := by
  decide +kernel

/-! ### Bulk span operations (V3, V4, V5) -/

def copyB : State :=
  machine .bin8 (cells 0 [0xB7, 0x5A, 0xC3, 0x0F] ++ cells 8 [0xFF, 0xFF, 0xFF, 0xFF]) 12 (span 0 0 0) (span 0 4 5)
    (span 8 4 2)

theorem test_copy_slow : leaves (.copy .x .y) copyB 8 [0x57, 0xEB, 0xFF, 0xFF] := by decide +kernel
theorem test_copy_fast_ter5 :
    wordsAt (after (.copy .x .y)
      (machine .ter5 (cells 0 [0x64, 0x9C, 0x0D] ++ cells 8 [0x79, 0x79, 0x79]) 6 (span 0 0 0) (span 0 3 3)
        (span 8 3 8))) 8 3 = [0x79, 0x79, 0x3E] := by decide +kernel

def fillT : State := machine .ter5 (cells 0 [0x79, 0x80, 0x79]) 9 (span 0 3 3) (span 0 0 0) (span 0 0 0)

theorem test_fillz : leaves (.fillz .s) fillT 0 [0x0D, 0x00, 0x75] := by decide +kernel
theorem test_fillz_illegal :
    errors (after (.fillz .s) { fillT with mem := cells 0 [0x80, 0x00, 0x79] }) = [0x50, 0, 0] := by decide +kernel

def equB : State :=
  machine .bin8 (cells 0 [0xB7, 0x5A, 0xC3] ++ cells 8 [0xB0, 0x5A, 0x03]) 18 (span 0 0 0) (span 0 3 4) (span 8 3 4)

theorem test_equ : (after (.equ .x .y) equB).result = 1 ∧ (after (.equ .x .y) { equB with n := 19 }).result = 0 := by
  decide +kernel
theorem test_equ_slow :
    (after (.equ .x .y) (machine .bin8 (cells 0 [0xB7, 0x5A] ++ cells 8 [0x6E, 0xB5]) 15 (span 0 0 0) (span 0 2 0)
      (span 8 2 1))).result = 1 := by decide +kernel

/-! ### Symbol arithmetic (V6) -/

theorem test_add : (after (.add 1 1) startT).result = 3 ∧ (after (.add 1 1) startB).result = 0 := by decide +kernel
theorem test_add_illegal : errors (after (.add 1 3) startB) = [0x20, 0x10, 1] := by decide +kernel
theorem test_sub : (after (.sub 0 1) startT).result = 3 ∧ (after (.sub 3 1) startT).result = 1 := by decide +kernel
theorem test_sub_illegal : errors (after (.sub 3 0) startB) = [0x20, 0x10, 0] := by decide +kernel

/-! ### Combinators (V7.1) -/

theorem test_setxa : leaves .setxa startB 0 [0x5F, 0xAC] ∧ leaves .setxa startB 16 [0xA8, 0x4C] := by decide +kernel
theorem test_setxa_ter5 : leaves .setxa startT 0 [0x76, 0x9D] ∧ leaves .setxa startT 16 [0x8B, 0x06] := by
  decide +kernel
theorem test_setxs : leaves .setxs startB2 0 [0x5F, 0xAC] ∧ leaves .setxs startB2 8 [0xC5, 0x0A] := by decide +kernel
theorem test_setxs_ter5 : leaves .setxs startT2 0 [0x76, 0x9D] ∧ leaves .setxs startT2 8 [0x0D, 0xFE] := by
  decide +kernel
theorem test_setya : leaves .setya startB 0 [0x5F, 0x99] ∧ leaves .setya startB 16 [0xA8, 0x4C] := by decide +kernel
theorem test_setya_ter5 : leaves .setya startT 0 [0x95, 0xC0] ∧ leaves .setya startT 16 [0x8B, 0x06] := by
  decide +kernel
theorem test_setys : leaves .setys startB2 0 [0x5F, 0x99] ∧ leaves .setys startB2 8 [0xC5, 0x0A] := by decide +kernel
theorem test_setys_ter5 : leaves .setys startT2 0 [0x95, 0xC0] ∧ leaves .setys startT2 8 [0x0D, 0xFE] := by
  decide +kernel
theorem test_setxam : leaves .setxam startB 0 [0x5F, 0xAC] ∧ leaves .setxam startB 8 [0x95, 0x39] := by decide +kernel
theorem test_setxam_ter5 : leaves .setxam startT 0 [0x76, 0x9D] ∧ leaves .setxam startT 8 [0xD9, 0x02] := by
  decide +kernel
theorem test_setxsm : leaves .setxsm startB3 0 [0x5F, 0xAC] ∧ leaves .setxsm startB3 8 [0xC5, 0x3A] := by
  decide +kernel
theorem test_setyam : leaves .setyam startB 0 [0x5F, 0x99] ∧ leaves .setyam startB 8 [0x95, 0x39] := by decide +kernel
theorem test_setyam_ter5 : leaves .setyam startT 0 [0x95, 0xC0] ∧ leaves .setyam startT 8 [0xD9, 0x02] := by
  decide +kernel
theorem test_setysm : leaves .setysm startB3 0 [0x5F, 0x99] ∧ leaves .setysm startB3 8 [0xC5, 0x3A] := by
  decide +kernel

/-! ### Sponge commands and the assembler names (V7.2 to V7.10) -/

theorem test_adds : leaves .adds startB 0 [0x5F, 0x99, 0xA0] := by decide +kernel
theorem test_adds_ter5 : leaves .adds startT 0 [0x95, 0xC0] := by decide +kernel
theorem test_sqzow : leaves .sqzow startB 16 [0x80, 0x1A] ∧ leaves .sqzow startB 0 [0x0F, 0x00, 0xA0] := by
  decide +kernel

/-- V7.4, TER5, slow path. -/
def sqzT : State := machine .ter5 (cells 0 [0x64, 0x9C, 0x0D]) 10 (span 0 3 2) (span 0 0 0) (span 16 3 0)

theorem test_sqzow_ter5 : leaves .sqzow sqzT 16 [0xF0, 0x61] ∧ leaves .sqzow sqzT 0 [0x01, 0x00, 0x09] := by
  decide +kernel

/-- V7.8. -/
def sqeT : State :=
  machine .ter5 (cells 0 [0x64, 0x9C, 0x0D] ++ cells 8 [0x64, 0x9C, 0x28]) 10 (span 0 3 2) (span 8 3 2) (span 0 0 0)

theorem test_sqeow : (after .sqeow sqeT).result = 1 ∧ leaves .sqeow sqeT 0 [0x01, 0x00, 0x09] := by decide +kernel

/-- V7.9 (b): the comparison stops, the zero phase runs into the illegal word. -/
def sqeIllegal : State :=
  machine .ter5 (cells 0 [0x64, 0x9C, 0x80] ++ cells 8 [0x79, 0x9C, 0x0D]) 10 (span 0 3 2) (span 8 3 2) (span 0 0 0)

theorem test_sqeow_illegal :
    errors (after .sqeow sqeIllegal) = [0x50, 0, 2] ∧ leaves .sqeow sqeIllegal 0 [0x01, 0x00, 0x80] := by
  decide +kernel

theorem test_absorbOw : leaves .absorbOw startB 0 [0x5F, 0xAC, 0xA0] := by decide +kernel
theorem test_absorbX : leaves .absorbX startB 0 [0x5F, 0x99, 0xA0] := by decide +kernel
theorem test_squeezeOw : leaves .squeezeOw startB 16 [0x80, 0x1A] := by decide +kernel
theorem test_squeezeX : leaves .squeezeX startB 16 [0x80, 0x1A] := by decide +kernel
theorem test_squeezeeqOw : (after .squeezeeqOw sqeT).result = 1 := by decide +kernel
theorem test_squeezeeqX : (after .squeezeeqX sqeT).result = 1 ∧ leaves .squeezeeqX sqeT 0 [0x64, 0x9C, 0x0D] := by
  decide +kernel
theorem test_encryptOw : leaves .encryptOw startT 0 [0x76, 0x9D] := by decide +kernel
theorem test_encryptOwM : leaves .encryptOwM startT 8 [0xD9, 0x02] := by decide +kernel
theorem test_encryptX : leaves .encryptX startT 0 [0x95, 0xC0] := by decide +kernel
theorem test_encryptXM : leaves .encryptXM startT 0 [0x95, 0xC0] := by decide +kernel
theorem test_decryptOw : leaves .decryptOw startT2 8 [0x0D, 0xFE] := by decide +kernel
theorem test_decryptOwM : leaves .decryptOwM startB3 0 [0x5F, 0xAC, 0xA0] := by decide +kernel
theorem test_decryptX : leaves .decryptX startT2 0 [0x95, 0xC0] := by decide +kernel
theorem test_decryptXM : leaves .decryptXM startB3 0 [0x5F, 0x99, 0xA0] := by decide +kernel

/-! ### Errors, CLRERR, the host (V8) -/

theorem test_clrerr : errors (after .clrerr { startB with status := 0x50, errInfo := 1, errAddr := 7 }) = [0, 0, 0] := by
  decide +kernel

/-- V7.1: the three overlapping pairs. -/
theorem test_overlap_pairs :
    errors (after .setxa { startB with n := 8, spanY := span 8 2 4 }) = [0x40, 9, 0] ∧
      errors (after .setxa { startB with n := 8, spanX := span 0 3 8 }) = [0x40, 4, 0] ∧
      errors (after .setxa { startB with spanY := span 0 3 4 }) = [0x40, 8, 0] := by decide +kernel

/-- V8.4, V8.5: bounds before overlap; no wrap-around. -/
theorem test_bounds :
    errors (after .setxa { startB with n := 4, spanS := span 0 1 0, spanX := span 0 1 0, spanY := span 70 1 0 }) =
        [0x30, 2, 0] ∧
      errors (after (.fillz .s) { startB with n := 1, spanS := span 1 0xFFFFFFFF 0 }) = [0x30, 0, 0] ∧
      errors (after (.fillz .s) { startB with n := 2, spanS := span 0 2 0xFFFFFFFF }) = [0x30, 0, 0] := by
  decide +kernel

/-- The state one action of the host leaves. -/
def hosted (a : HostAction) (s : State) : State :=
  match step { s with inbox := [a] } with
  | .next t => t
  | _ => s

/-- V8.2, V8.3. -/
theorem test_illegal_word : errors (hosted (.wr 5 0x0000007F#32) startB) = [0x10, 0, 0x7F] := by decide +kernel
theorem test_sticky :
    wordsAt (hosted (.wr 5 0x00000009#32) { startB with status := 0x30 }) 0 3 = [0x0F, 0x35, 0xA0] := by
  decide +kernel

/-- V8.6, V2.3. -/
theorem test_cfg : readReg startB 0 = 0x00008080#32 ∧ readReg startT 0 = 0x00008051#32 ∧ readReg startB 18 = 0 := by
  decide +kernel
theorem test_write_wdata : readReg (hosted (.wr 8 0x12345678#32) startB) 8 = 0x78 := by decide +kernel

/-- From reset, the word of a table row is the first command that runs. -/
theorem test_withFetchWord : step (State.reset.withFetchWord 32 0x00000410) = exec (.add 1 0) State.reset := rfl

/-! ### Witnesses: a state and operands that meet the hypotheses of each statement together -/

/-- Whether an instruction answers a next state. -/
def completes (i : Instr) (s : State) : Bool :=
  match exec i s with
  | .next _ => true
  | _ => false

theorem exec_after {i : Instr} {s : State} (h : completes i s = true) : exec i s = .next (after i s) := by
  unfold completes at h
  unfold after
  split at h
  · rename_i t ht
    rw [ht]
  · exact absurd h (by decide)

/-- A state with one host action waiting. -/
def waiting (a : HostAction) (s : State) : State := { s with inbox := [a] }

theorem witness_DecodeUndoesEncode : Instr.wf (.put .y 3) = true := by decide

theorem witness_EncodeUndoesDecode : decode 0x00003C10#32 = .ok (.add 3 3) := rfl

theorem witness_StepRunsDecodedInstruction :
    ((waiting (.wr 5 0x00000020#32) startB).inbox = .wr 5 0x00000020#32 :: [] ∧
      NoError (waiting (.wr 5 0x00000020#32) startB) ∧ decode 0x00000020#32 = .ok .setxa) ∧
    (NoError startB ∧ decodeTableWord 32 0x2A = some .sqeow) ∧ startB.inbox = [] :=
  ⟨⟨rfl, rfl, rfl⟩, ⟨rfl, rfl⟩, rfl⟩

/-- V8.2: the opcode 7, and GET with the reserved selector. -/
theorem witness_NonCommandWordRaisesIllegalCmd :
    (waiting (.wr 5 0x00000007#32) startB).inbox = .wr 5 0x00000007#32 :: [] ∧ NoError startB ∧
      (∀ i r, mapRow i = some r → ¬r.selects 0x00000007#32) ∧ ∀ i r, mapRow i = some r → ¬r.selects 0x000000C3#32 := by
  refine ⟨rfl, rfl, ?_, ?_⟩ <;> intro i r h <;> cases i <;> simp only [mapRow, Option.some.injEq, reduceCtorEq] at h <;>
    subst h <;> unfold MapRow.selects <;> decide

theorem witness_LatchedErrorDropsCommands :
    step (waiting (.mw 5 [7]) startB) = .next { startB with mem := Memory.writeMany startB.mem 5 [7] } ∧
      ¬NoError (waiting (.wr 5 0x00000009#32) { startB with status := 0x10 }) ∧
      ¬NoError (waiting (.wr 5 0x0000003E#32) { startB with status := 0x50 }) ∧ 0x0000003E#32 ≠ 0x0000003F#32 := ⟨rfl, by decide⟩

theorem witness_ClrerrClearsErrorRegs :
    (waiting (.wr 5 0x0000003F#32) { startB with status := 0x50 }).inbox = .wr 5 0x0000003F#32 :: [] := rfl

/-- The lowest and the highest register number that store, and their neighbours. -/
theorem witness_HostRegisterWrite :
    (waiting (.wr 6 1) startB).inbox = .wr 6 1 :: [] ∧ (waiting (.wr 17 1) startB).inbox = .wr 17 1 :: [] ∧
      (waiting (.wr 8 0x12345678) startB).inbox = .wr 8 0x12345678 :: [] ∧
      (waiting (.wr 4 3) startB).inbox = .wr 4 3 :: [] ∧ (waiting (.wr 18 1) startB).inbox = .wr 18 1 :: [] ∧
      6 ≠ 5 ∧ 17 ≠ 5 ∧ 8 ≠ 5 ∧ 4 ≠ 5 ∧ 18 ≠ 5 := ⟨rfl, rfl, rfl, rfl, rfl, by decide⟩

theorem witness_HostRegisterRead :
    (waiting (.rd 0) startB).inbox = .rd 0 :: [] ∧ (waiting (.rd 17) startB).inbox = .rd 17 :: [] ∧
      (waiting (.rd 18) startB).inbox = .rd 18 :: [] := ⟨rfl, rfl, rfl⟩

/-- Up to the last word, and up to the last cell. -/
theorem witness_HostStorageWrite :
    ((waiting (.mw 62 [1, 2]) startB).inbox = .mw 62 [1, 2] :: [] ∧ 62 + [(1 : MWord), 2].length ≤ startB.params.memWords) ∧
    ((waiting (.tw 63 [3]) startB).inbox = .tw 63 [3] :: [] ∧ 63 + [(3 : SymCode)].length ≤ startB.params.tbufCells) :=
  ⟨⟨rfl, by decide⟩, rfl, by decide⟩

theorem witness_HostStorageRead :
    ((waiting (.mr 0 64) startB).inbox = .mr 0 64 :: [] ∧ 0 + 64 ≤ startB.params.memWords) ∧
    ((waiting (.tr 64 0) startB).inbox = .tr 64 0 :: [] ∧ 64 + 0 ≤ startB.params.tbufCells) :=
  ⟨⟨rfl, by decide⟩, rfl, by decide⟩

/-- One word, and one cell, past the end. -/
theorem witness_OnlyHostAccessPastTheEndFaults :
    ((waiting (.mr 63 2) startB).inbox = .mr 63 2 :: [] ∧ startB.params.memWords < 63 + 2) ∧
    ((waiting (.mw 64 [0]) startB).inbox = .mw 64 [0] :: [] ∧ startB.params.memWords < 64 + [(0 : MWord)].length) ∧
    ((waiting (.tr 65 0) startB).inbox = .tr 65 0 :: [] ∧ startB.params.tbufCells < 65 + 0) ∧
    ((waiting (.tw 63 [0, 0]) startB).inbox = .tw 63 [0, 0] :: [] ∧
      startB.params.tbufCells < 63 + [(0 : SymCode), 0].length) :=
  ⟨⟨rfl, by decide⟩, ⟨rfl, by decide⟩, ⟨rfl, by decide⟩, rfl, by decide⟩

theorem witness_ResetClearsRegistersOnly : (waiting .reset startB).inbox = .reset :: [] := rfl

/-- The smallest TER5 build, with an illegal word in its one word and an illegal code in its last cell. -/
theorem witness_ResetMeetsInvariant :
    Params.wf { enc := .ter5, memWords := 1, tbufCells := 5 } ∧ Memory.wf (cells 0 [0x80#8]) = true ∧
      Memory.below 1 (cells 0 [0x80#8]) = true ∧ Memory.wf (cells 4 [2#2]) = true ∧
      Memory.below 5 (cells 4 [2#2]) = true := by decide +kernel

theorem witness_StepKeepsInvariant :
    Inv startB ∧ Inv { startT with status := 0x50, errInfo := 2, errAddr := 63 } ∧
      step (waiting (.wr 6 7) startB) = .next { startB with n := 7 } := ⟨by decide +kernel, by decide +kernel, rfl⟩

/-- For the statements about what any command leaves alone, from `CommandsKeepOperandRegisters` on. -/
theorem witness_CommandsKeepOperandRegisters :
    exec .setxa startB = .next (after .setxa startB) ∧ exec .w2s w2sT = .next (after .w2s w2sT) ∧
      exec .sqeow sqeIllegal = .next (after .sqeow sqeIllegal) :=
  ⟨exec_after (by decide +kernel), exec_after (by decide +kernel), exec_after (by decide +kernel)⟩

theorem witness_OnlyNamedCommandsWriteResultWdataTbuf_and_CommandsConfinedToWrittenSpans :
    writesResult .setxa = false ∧ Instr.setxa ≠ .s2w ∧ writesCells .setxa = false ∧
      ∀ sp ∈ writtenSpans .setxa, ¬InArray startB sp 3 := by decide

/-- A state that differs from "start B" in a word outside the arrays. -/
def startB' : State := { startB with mem := cells 0 [0x0F, 0x35, 0xA0, 0x77] ++ cells 8 [0xC5, 0x3A] }

theorem witness_CommandsSeeOnlyTheirSpans :
    startB' = { startB with mem := startB'.mem } ∧
      (∀ sp ∈ (useRow .setxa).spans, ∀ a, InArray startB sp a → memByte startB' a = memByte startB a) ∧
      memByte startB' 3 ≠ memByte startB 3 := by
  refine ⟨rfl, ?_, by decide +kernel⟩
  have key : ∀ a, a < 64 → a ≠ 3 → memByte startB' a = memByte startB a := by decide +kernel
  intro sp _ a ha
  have h : a < 64 ∧ a ≠ 3 := by
    cases sp
    · have : 0 ≤ a ∧ a < 0 + 3 := ha
      omega
    · have : 8 ≤ a ∧ a < 8 + 2 := ha
      omega
    · have : 16 ≤ a ∧ a < 16 + 3 := ha
      omega
  exact key a h.1 h.2

theorem witness_ErrorKeepsResultAndWdata :
    NoError sqeIllegal ∧ exec .sqeow sqeIllegal = .next (after .sqeow sqeIllegal) ∧
      ¬NoError (after .sqeow sqeIllegal) := ⟨by decide, exec_after (by decide +kernel), by decide +kernel⟩

/-- One case of each of the three precise errors. -/
theorem witness_PreciseErrorsChangeNothingElse :
    (completes (.get .s) startB = true ∧ errField (after (.get .s) { startB with spanS := span 0 0 0 }).status = 3) ∧
    errField (after .adds { startB with spanX := span 0 3 4 }).status = 4 ∧
    (errField (after (.add 2 0) startB).status = 2 ∧ (after (.add 2 0) startB).errInfo = 0x10) := by decide +kernel

theorem witness_SuccessLeavesErrorRegs :
    Instr.setxa ≠ .clrerr ∧ NoError startB ∧ exec .setxa startB = .next (after .setxa startB) ∧
      NoError (after .setxa startB) := ⟨by decide, by decide, exec_after (by decide +kernel), by decide +kernel⟩

theorem witness_ZeroLengthIsNoOp :
    (useRow .sqeow).counted = true ∧ (useRow (.tosym .x)).counted = true ∧ { startB with n := 0 }.n = 0 ∧
      ∀ i, decode 0x00000308#32 ≠ .ok i := by
  have h : decode 0x00000308#32 = .error .reservedSelector := rfl
  exact ⟨rfl, rfl, rfl, fun i => by rw [h]; exact nofun⟩

theorem witness_IllegalImmediateRaises :
    IllegalCode startB 2 ∧ IllegalCode startB 3 ∧ IllegalCode startT 2 ∧ ¬IllegalCode startT 3 ∧ ¬IllegalCode startB 1 := by
  decide

/-- Each span one symbol too long in turn, and one cell too few. -/
theorem witness_BoundsErrorInOrder :
    (ImmediatesLegal startB .setxa ∧ startB.n ≠ 0) ∧
    (¬SpanFits { startB with spanS := span 0 2 5 } .s 12 ∧ SpanFits { startB with spanS := span 0 2 4 } .s 12) ∧
    (SpanFits { startB with spanX := span 63 2 0 } .s 12 ∧ ¬SpanFits { startB with spanX := span 63 2 0 } .x 12) ∧
    (SpanFits { startB with spanY := span 16 0 0 } .s 12 ∧ SpanFits { startB with spanY := span 16 0 0 } .x 12 ∧
      ¬SpanFits { startB with spanY := span 16 0 0 } .y 12) ∧
    ((useRow .w2s).cells ≠ .none ∧ ¬CellsFit { w2sT with tboff := 60 } 5 ∧ CellsFit { w2sT with tboff := 59 } 5 ∧
      (useRow .w2s).spans = []) := ⟨⟨trivial, by decide⟩, by decide, by decide, by decide, by decide⟩

/-- V7.1: each of the three pairs as the first that clashes. -/
theorem witness_OverlapErrorInOrder :
    ((useRow .setxa).counted = true ∧ startB.n ≠ 0) ∧
    ((∀ sp ∈ (useRow .setxa).spans, SpanFits { startB with n := 8, spanX := span 0 3 8 } sp 8) ∧
      ¬PairAllowed .setxa { startB with n := 8, spanX := span 0 3 8 } .s .x) ∧
    ((∀ sp ∈ (useRow .setxa).spans, SpanFits { startB with spanY := span 0 3 4 } sp 12) ∧
      PairAllowed .setxa { startB with spanY := span 0 3 4 } .s .x ∧
      ¬PairAllowed .setxa { startB with spanY := span 0 3 4 } .s .y) ∧
    ((∀ sp ∈ (useRow .setxa).spans, SpanFits { startB with n := 8, spanY := span 8 2 4 } sp 8) ∧
      PairAllowed .setxa { startB with n := 8, spanY := span 8 2 4 } .s .x ∧
      PairAllowed .setxa { startB with n := 8, spanY := span 8 2 4 } .s .y ∧
      ¬PairAllowed .setxa { startB with n := 8, spanY := span 8 2 4 } .x .y) :=
  ⟨by decide, ⟨by decide, by decide⟩, ⟨by decide, by decide, by decide⟩, by decide, by decide, by decide, by decide⟩

/-- Three identical spans. -/
def sameSpans : State := { startB with spanX := span 0 3 4, spanY := span 0 3 4 }

/-- Identical spans, at the edge of the overlap rule (30_encoding.md R105): refused for ADDS, SQZOW, SQEOW, the in-place
combinators and (S, X) of the others; -/
theorem test_identical_refused :
    (∀ i ∈ [Instr.adds, .sqeow, .setxam, .setxsm, .setyam, .setysm, .setxa, .setxs, .setya, .setys],
      errors (after i sameSpans) = [0x40, 4, 0]) ∧ errors (after .sqzow sameSpans) = [0x40, 8, 0] := by decide +kernel

/-- allowed for COPY, for EQU and for (X, Y) of the two-buffer combinators. -/
theorem test_identical_allowed :
    errors (after (.copy .x .s) sameSpans) = [0, 0, 0] ∧ errors (after (.equ .x .s) sameSpans) = [0, 0, 0] ∧
      errors (after .setxa { sameSpans with spanS := span 8 3 4 }) = [0, 0, 0] := by decide +kernel

theorem witness_CodecRoundTrip :
    legal .ter5 0x79 = true ∧ [Sym.neg, .neg, .neg, .neg, .neg].length = Enc.ter5.size ∧
      ∀ v ∈ [Sym.neg, .neg, .neg, .neg, .neg], inAlphabet .ter5 v = true := by decide

theorem witness_WordsHoldTheirPlaceValues : legal .ter5 0x79 = true ∧ legal .ter5 0x87 = true ∧ 7 < 8 := by decide

theorem witness_SymbolAlgebraLaws :
    inAlphabet .ter5 .neg = true ∧ inAlphabet .bin8 .pos = true ∧ inAlphabet .bin8 .neg = false := by decide

theorem witness_W2sWritesCells :
    CellsFit { w2sT with tboff := 59 } w2sT.params.enc.size ∧ legal .ter5 w2sT.wdata = true ∧
      CellsFit { w2sT with wdata := 0x7A } w2sT.params.enc.size ∧ legal .ter5 0x7A = false := by decide

theorem witness_S2wReadsCells :
    CellsFit s2wT s2wT.params.enc.size ∧ (∀ k, k < s2wT.params.enc.size → CellLegal s2wT k) ∧
      ¬CellLegal { s2wT with tbuf := cells 0 [3, 0, 1, 3, 2] } 4 ∧
      ∀ k, k < 4 → CellLegal { s2wT with tbuf := cells 0 [3, 0, 1, 3, 2] } k := by decide +kernel

theorem witness_GetReadsOneSymbol_and_PutWritesOneSymbol :
    SpanFits getT .x 1 ∧ LegalAt getT (wordOf getT .x 0) ∧ SpanFits getT .y 1 ∧ LegalAt getT (wordOf getT .y 0) ∧
      uncode getT.params.enc 3 = some .neg := by decide +kernel

theorem witness_GetPutIllegalWord :
    SpanFits { getT with mem := cells 1 [0x80] } .y 1 ∧ ¬IllegalCode getT 3 ∧
      ¬LegalAt { getT with mem := cells 1 [0x80] } (wordOf getT .y 0) := by decide +kernel

theorem witness_TosymMaterializesSpan :
    tosymB.n ≠ 0 ∧ SpanFits tosymB .x (countN tosymB) ∧ CellsFit tosymB (countN tosymB) ∧
      LegalSpan tosymB .x (countN tosymB) := by decide +kernel

/-- A span over three words, the middle one illegal: its first symbol is symbol 3. -/
def partWay : State :=
  { machine .ter5 (cells 0 [0x64, 0x80, 0x0D]) 10 (span 0 0 0) (span 0 3 2) (span 0 3 2) with tbuf := cells 0 [1, 3, 1] }

theorem witness_TosymStopsAtIllegalWord :
    partWay.n ≠ 0 ∧ SpanFits partWay .x (countN partWay) ∧ CellsFit partWay (countN partWay) ∧ 3 < countN partWay ∧
      ¬LegalAt partWay (wordOf partWay .x 3) ∧
      ∀ k, k < countN partWay → wordOf partWay .x k < wordOf partWay .x 3 → LegalAt partWay (wordOf partWay .x k) := by
  decide +kernel

theorem witness_FromsymWritesSpan :
    fromsymB.n ≠ 0 ∧ SpanFits fromsymB .y (countN fromsymB) ∧ CellsFit fromsymB (countN fromsymB) ∧
      LegalSpan fromsymB .y (countN fromsymB) ∧ ∀ k, k < countN fromsymB → CellLegal fromsymB k := by decide +kernel

/-- An illegal word, and an illegal cell in a legal word. -/
theorem witness_FromsymStopsPartWay :
    (partWay.n ≠ 0 ∧ SpanFits partWay .x (countN partWay) ∧ CellsFit partWay (countN partWay) ∧ 3 < countN partWay ∧
      (∀ k, k < countN partWay → wordOf partWay .x k < wordOf partWay .x 3 →
        LegalAt partWay (wordOf partWay .x k) ∧ CellLegal partWay k) ∧ ¬LegalAt partWay (wordOf partWay .x 3)) ∧
    (LegalAt { partWay with mem := [], tbuf := cells 4 [2] } (wordOf partWay .x 4) ∧
      ¬CellLegal { partWay with mem := [], tbuf := cells 4 [2] } 4 ∧
      (∀ k, k < 4 → CellLegal { partWay with mem := [], tbuf := cells 4 [2] } k) ∧
      ∀ k, k < 10 → wordOf partWay .x k < wordOf partWay .x 4 → LegalAt { partWay with mem := [] } (wordOf partWay .x k)) := by
  decide +kernel

/-- V3.3 (slow path), V3.6 (identical spans), V3.10 (fast path over an illegal full word). -/
theorem witness_CopyMovesSymbols :
    (IsCopy (.copy .x .y) .x .y ∧ IsCopy .absorbOw .x .s ∧ IsCopy .squeezeX .s .y) ∧
    (copyB.n ≠ 0 ∧ SpanFits copyB .x (countN copyB) ∧ SpanFits copyB .y (countN copyB) ∧
      Apart copyB .x .y (countN copyB) ∧ LegalForPair copyB .x .y (countN copyB)) ∧
    (SpanFits startB .s 12 ∧ SpanFits startB .x 12 ∧ SpanFits startB .y 12 ∧ Apart startB .x .s 12 ∧
      Apart startB .s .y 12) ∧
    LegalForPair (machine .ter5 (cells 0 [0x01, 0x80, 0x01]) 9 (span 0 0 0) (span 0 3 3) (span 8 3 3)) .x .y 9 ∧
    SamePhase (machine .ter5 (cells 0 [0x01, 0x80, 0x01]) 9 (span 0 0 0) (span 0 3 3) (span 8 3 3)) .x .y :=
  ⟨by decide, by decide +kernel, by decide, by decide +kernel, by decide⟩

theorem witness_CopyOntoItselfChangesNothing :
    IsCopy (.copy .x .y) .x .y ∧ Memory.wf copyB.mem = true ∧ copyB.n ≠ 0 ∧ SpanFits { copyB with spanY := span 0 4 5 } .y (countN copyB) ∧
      SameSymbols { copyB with spanY := span 0 4 5 } .x .y ∧
      LegalEdges { copyB with spanY := span 0 4 5 } .x (countN copyB) := by decide +kernel

/-- V3.10, slow path: the first illegal source word holds symbol 5. -/
def copyIllegal : State := machine .ter5 (cells 0 [0x01, 0x80, 0x01]) 10 (span 0 0 0) (span 0 3 0) (span 8 3 1)

/-- Spans with a lead of two symbols, an illegal full word and a trail of two symbols, these words holding `mem`. -/
def edges (mem : Memory 8) : State := machine .ter5 mem 9 (span 0 3 3) (span 0 3 3) (span 8 3 3)

/-- Slow path: an illegal source word; an illegal destination word at position 0. Fast path: an illegal destination word
in the lead; an illegal source word in the trail, the last symbol, behind an illegal full word. -/
theorem witness_CopyStopsAtIllegalWord :
    (copyIllegal.n ≠ 0 ∧ SpanFits copyIllegal .x (countN copyIllegal) ∧ SpanFits copyIllegal .y (countN copyIllegal) ∧
      5 < countN copyIllegal ∧ ¬BothLegalAt copyIllegal .x .y 5 ∧ ¬SamePhase copyIllegal .x .y ∧
      Apart copyIllegal .x .y (countN copyIllegal) ∧ ∀ k, k < 5 → BothLegalAt copyIllegal .x .y k) ∧
    (LegalAt { copyIllegal with mem := cells 8 [0x80] } (wordOf copyIllegal .x 0) ∧
      ¬BothLegalAt { copyIllegal with mem := cells 8 [0x80] } .x .y 0) ∧
    (SpanFits (edges []) .x 9 ∧ SpanFits (edges []) .y 9 ∧ SamePhase (edges []) .x .y ∧ Apart (edges []) .x .y 9 ∧
      ¬WordInside (edges []) .x 9 0 ∧ ¬BothLegalAt (edges (cells 8 [0x80])) .x .y 0) ∧
    (¬WordInside (edges []) .x 9 8 ∧ ¬LegalAt (edges (cells 1 [0x80, 0x80])) (wordOf (edges []) .x 8) ∧
      ∀ k, k < 9 → wordOf (edges []) .x k < wordOf (edges []) .x 8 →
        WordInside (edges []) .x 9 k ∨ BothLegalAt (edges (cells 1 [0x80, 0x80])) .x .y k) := by decide +kernel

/-- With legal edges; with an illegal lead word; with an illegal trail word behind an illegal full word. -/
theorem witness_FillzZeroesSpan :
    (fillT.n ≠ 0 ∧ SpanFits fillT .s (countN fillT) ∧ LegalEdges fillT .s (countN fillT) ∧
      ¬LegalSpan fillT .s (countN fillT)) ∧
    (¬WordInside (edges []) .s 9 0 ∧ ¬LegalAt (edges (cells 0 [0x80])) (wordOf (edges []) .s 0) ∧
      ∀ k, k < 9 → ¬wordOf (edges []) .s k < wordOf (edges []) .s 0) ∧
    (SpanFits (edges []) .s 9 ∧ ¬WordInside (edges []) .s 9 7 ∧
      ¬LegalAt (edges (cells 1 [0x80, 0x80])) (wordOf (edges []) .s 7) ∧
      ∀ k, k < 9 → wordOf (edges []) .s k < wordOf (edges []) .s 7 →
        WordInside (edges []) .s 9 k ∨ LegalAt (edges (cells 1 [0x80, 0x80])) (wordOf (edges []) .s k)) := by
  decide +kernel

/-- R164: from the trail, the lead and the full word are already zeroed. -/
theorem test_fillz_illegal_trail :
    leaves (.fillz .s) (edges (cells 0 [0x79, 0x80, 0x80])) 0 [0x0D, 0x00, 0x80] ∧
      errors (after (.fillz .s) (edges (cells 0 [0x79, 0x80, 0x80]))) = [0x50, 0, 2] := by decide +kernel

/-- Slow path: an illegal word of span a after a mismatch. Fast path: an illegal trail word of span b behind two equal
illegal full words. -/
theorem witness_EquComparesSpans :
    (IsEqu (.equ .x .y) .x .y ∧ IsEqu .squeezeeqX .s .x ∧ equB.n ≠ 0 ∧ SpanFits equB .x (countN equB) ∧
      SpanFits equB .y (countN equB) ∧ LegalForPair equB .x .y (countN equB)) ∧
    (¬SamePhase copyIllegal .x .y ∧ ¬LegalAt copyIllegal (wordOf copyIllegal .x 5) ∧
      spanSym copyIllegal .x 0 ≠ spanSym copyIllegal .y 0 ∧ ∀ k, k < 5 → BothLegalAt copyIllegal .x .y k) ∧
    (SamePhase (edges []) .x .y ∧ ¬WordInside (edges []) .x 9 7 ∧
      ¬BothLegalAt (edges (cells 1 [0x80] ++ cells 9 [0x80, 0x80])) .x .y 7 ∧
      ∀ k, k < 9 → wordOf (edges []) .x k < wordOf (edges []) .x 7 →
        (WordInside (edges []) .x 9 k ∨ BothLegalAt (edges (cells 1 [0x80] ++ cells 9 [0x80, 0x80])) .x .y k) ∧
          EqualAt (edges (cells 1 [0x80] ++ cells 9 [0x80, 0x80])) .x .y 9 k) :=
  ⟨by decide +kernel, by decide +kernel, by decide +kernel⟩

/-- A mismatch in a full word, and one in the lead word, each before an illegal word. -/
def equIllegal : State :=
  machine .ter5 (cells 0 [0x01, 0x02, 0x80] ++ cells 8 [0x01, 0x03, 0x01]) 9 (span 0 0 0) (span 0 3 3) (span 8 3 3)

theorem witness_EquStopsAtFirstMismatch :
    (SamePhase equIllegal .x .y ∧ SpanFits equIllegal .x 9 ∧ SpanFits equIllegal .y 9 ∧ countN equIllegal = 9 ∧
      (∀ k, k < 9 → wordOf equIllegal .x k ≤ wordOf equIllegal .x 2 →
        WordInside equIllegal .x 9 k ∨ BothLegalAt equIllegal .x .y k) ∧
      WordInside equIllegal .x 9 2 ∧ ¬EqualAt equIllegal .x .y 9 2) ∧
    (¬WordInside sqeIllegal .s 10 0 ∧ ¬EqualAt sqeIllegal .s .x 10 0 ∧
      ∀ k, k < 10 → wordOf sqeIllegal .s k ≤ wordOf sqeIllegal .s 0 → BothLegalAt sqeIllegal .s .x k) :=
  ⟨by decide +kernel, by decide +kernel⟩

/-- V5.1 spans for the comparison and for the copy. -/
theorem witness_FastPathEqualsSlowPath :
    SpanFits equB .x 18 ∧ SpanFits equB .y 18 ∧ SamePhase equB .x .y ∧ LegalSpan equB .x 18 ∧ LegalSpan equB .y 18 ∧
      Apart equB .x .y 18 ∧ SameSymbols equB .x .x := by decide +kernel

theorem witness_CopyIsTosymThenFromsym :
    copyB.n ≠ 0 ∧ SpanFits copyB .x (countN copyB) ∧ SpanFits copyB .y (countN copyB) ∧
      CellsFit copyB (countN copyB) ∧ Apart copyB .x .y (countN copyB) ∧ LegalSpan copyB .x (countN copyB) ∧
      LegalSpan copyB .y (countN copyB) ∧ completes (.tosym .x) copyB = true ∧
      completes (.fromsym .y) (after (.tosym .x) copyB) = true ∧
      completes (.fromsym .x) (after (.tosym .x) copyB) = true ∧ completes (.copy .x .y) copyB = true := by
  decide +kernel

theorem witness_AddSubWriteResult :
    uncode startT.params.enc 3 = some .neg ∧ uncode startT.params.enc 1 = some .pos ∧
      uncode startB.params.enc 1 = some .pos := by decide

/-- "start B" and "start T" meet the hypotheses of all the combinators. -/
theorem witness_CombinatorsMixSpans :
    mixOf .setxa ≠ none ∧ mixOf .decryptXM ≠ none ∧
    (startB.n ≠ 0 ∧ MixSpansFit startB .x .y (countN startB) ∧ MixSpansFit startB .y .x (countN startB) ∧
      MixSpansFit startB .x .x (countN startB)) ∧
    (startT.n ≠ 0 ∧ MixSpansFit startT .x .y (countN startT) ∧ LegalSpan startT .s (countN startT) ∧
      LegalSpan startT .x (countN startT) ∧ LegalSpan startT .y (countN startT)) := by
  refine ⟨by simp [mixOf, mixShape], by simp [mixOf, mixShape], by decide, by decide +kernel⟩

/-- "start T" with the second data word, the second state word or the second output word illegal. -/
theorem witness_CombinatorsStopAtIllegalWord :
    ((∀ k, k < 5 → LegalAt { startT with mem := cells 9 [0x80] } (wordOf startT .x k)) ∧
      ¬LegalAt { startT with mem := cells 9 [0x80] } (wordOf startT .x 5)) ∧
    ((∀ k, k < 3 → LegalAt { startT with mem := cells 1 [0x80] } (wordOf startT .s k)) ∧
      ¬LegalAt { startT with mem := cells 1 [0x80] } (wordOf startT .s 3)) ∧
    ((∀ k, k < 4 → LegalAt { startT with mem := cells 17 [0x80] } (wordOf startT .y k)) ∧
      ¬LegalAt { startT with mem := cells 17 [0x80] } (wordOf startT .y 4)) := by decide +kernel

theorem witness_AliasedTwoBufferEqualsInPlace :
    MixSpansFit { startB with spanY := span 8 2 0 } .x .y (countN startB) ∧
      SameSymbols { startB with spanY := span 8 2 0 } .x .y ∧
      completes .setxa { startB with spanY := span 8 2 0 } = true ∧
      completes .setxam { startB with spanY := span 8 2 0 } = true := by decide +kernel

/-- V7.1: SETXA on "start B", then SETXS on a receiver with the same state whose Y span holds the output. -/
theorem witness_DecryptUndoesEncrypt :
    startB2.params = startB.params ∧ startB2.n = startB.n ∧ MixSpansFit startB .x .y (countN startB) ∧
      MixSpansFit startB2 .y .x (countN startB) ∧ LegalSpan startB2 .y (countN startB) ∧
      (∀ j, j < countN startB → spanSym startB2 .s j = spanSym startB .s j) ∧ completes .setxa startB = true ∧
      (∀ j, j < countN startB → spanSym startB2 .y j = spanSym (after .setxa startB) .y j) ∧
      completes .setxs startB2 = true := by decide +kernel

/-- "start T" with the last state word illegal; and with the last state word and the last data word illegal, where the
data word comes first: symbol 5 is the first of data word 1, symbol 3 that of state word 1. -/
theorem witness_AddsAbsorbsIntoState_stops :
    (3 < countN startT ∧ ¬LegalAt { startT with mem := cells 1 [0x80] ++ cells 8 [0x80] } (wordOf startT .s 3)) ∧
    ((∀ k, k < 3 → BothLegalAt { startT with mem := cells 1 [0x80] ++ cells 9 [0x80] } .s .x k) ∧
      ¬BothLegalAt { startT with mem := cells 1 [0x80] ++ cells 9 [0x80] } .s .x 3) ∧
    ((∀ k, k < 5 → BothLegalAt { startT with mem := cells 9 [0x80] } .s .x k) ∧
      LegalAt { startT with mem := cells 9 [0x80] } (wordOf startT .s 5) ∧
      ¬BothLegalAt { startT with mem := cells 9 [0x80] } .s .x 5) := by decide +kernel

theorem witness_AddsAbsorbsIntoState_and_RepeatedAddsRestoresMemory :
    startT.n ≠ 0 ∧ SpanFits startT .s (countN startT) ∧ SpanFits startT .x (countN startT) ∧ Apart startT .s .x (countN startT) ∧
      LegalSpan startT .s (countN startT) ∧ LegalSpan startT .x (countN startT) ∧ completes .adds startT = true ∧
      completes .adds (after .adds startT) = true ∧
      completes .adds (after .adds (after .adds startT)) = true := by decide +kernel

theorem witness_SqzowEmitsAndZeroesState_and_SqzowIsCopyThenFillz :
    sqzT.n ≠ 0 ∧
    SpanFits sqzT .s (countN sqzT) ∧ SpanFits sqzT .y (countN sqzT) ∧ Apart sqzT .s .y (countN sqzT) ∧
      LegalForPair sqzT .s .y (countN sqzT) ∧ NoError sqzT ∧ completes (.copy .s .y) sqzT = true ∧
      NoError (after (.copy .s .y) sqzT) ∧ ¬NoError (after (.copy .s .y) { sqzT with mem := cells 2 [0x80] }) := by
  decide +kernel

theorem witness_SqeowComparesAndZeroesState_and_SqeowIsEquThenFillz :
    sqeT.n ≠ 0 ∧
    SpanFits sqeT .s (countN sqeT) ∧ SpanFits sqeT .x (countN sqeT) ∧ Apart sqeT .s .x (countN sqeT) ∧
      LegalForPair sqeT .s .x (countN sqeT) ∧
      LegalForPair { sqeT with mem := cells 1 [0x80] ++ cells 9 [0x80] } .s .x (countN sqeT) ∧ NoError sqeT ∧
      completes (.equ .s .x) sqeT = true ∧ NoError (after (.equ .s .x) sqeT) ∧
      NoError (after (.fillz .s) (after (.equ .s .x) sqeT)) ∧ NoError (after (.equ .s .x) sqeIllegal) ∧
      ¬NoError (after (.fillz .s) (after (.equ .s .x) sqeIllegal)) := by decide +kernel

end Sys2Proof.Tests
end

/-!
SUPPORT. What an instruction can do at most, said once for all instructions: `exec_ends`. It ends in a next state that
changes the words of its written spans, TBUF, `RESULT` and `WDATA` only as 10_state.md R49 lists them; or it latches a
well-formed error, having changed words and cells only; or it is CLRERR. The statements about all instructions, and the
invariant, are derived from this.
-/

namespace Sys2Proof.Machine

open Sys2Proof

/-! ### The effect of an instruction -/

/-- The words an instruction may write: those of the arrays of its written spans (10_state.md R49, 20_memory.md R87). -/
def writtenWord (i : Instr) (s : State) (a : Nat) : Prop := ∃ sp ∈ writtenSpans i, InArray s sp a

/-- From `s` to `t` only storage changed, and only as the pseudocode of `i` may change it. -/
abbrev StorageEffect (i : Instr) (s t : State) : Prop := Keeps (writtenWord i s) (writesCells i) s t

/-- A value that `RESULT` may hold: the code of a symbol of the encoding (10_state.md R40, R47). -/
def IsCode (e : Enc) (v : RegVal) : Prop := ∃ x, inAlphabet e x = true ∧ v = (symCode x).setWidth 32

/-- What a command of instruction `i` that ends without an error changes at most. -/
structure Effect (i : Instr) (s t : State) : Prop where
  storage : StorageEffect i s (withWdata (withResult t s.result) s.wdata)
  result : t.result = s.result ∨ writesResult i = true ∧ IsCode s.params.enc t.result
  wdata : i ≠ .s2w → t.wdata = s.wdata

/-- An outcome within what instruction `i` may do from `s`: it ends with an effect of `i`, or latches a well-formed
error after a change of storage, or is CLRERR, which clears the error registers. -/
def Ends (i : Instr) (s : State) (o : Host.Outcome State Fault Refusal) : Prop :=
  (∃ t, o = .next t ∧ Effect i s t) ∨
  (∃ e t, o = .next (takeError e t) ∧ StorageEffect i s t ∧ e.wellFormed s.params) ∨
  (i = .clrerr ∧ o = .next (clearError s))

/-- A change of storage leaves `RESULT` and `WDATA` as they were. -/
theorem Keeps.effect {i : Instr} {s t : State} (h : StorageEffect i s t) : Effect i s t := by
  have hr : t.result = s.result := by rw [h.rest]
  have hw : t.wdata = s.wdata := by rw [h.rest]
  refine ⟨?_, .inl hr, fun _ => hw⟩
  rw [← hr, ← hw]
  exact h

/-- The registers that no instruction writes are as before: only four fields can differ. -/
theorem Effect.eq_update {i : Instr} {s t : State} (h : Effect i s t) :
    t = { s with mem := t.mem, tbuf := t.tbuf, result := t.result, wdata := t.wdata } :=
  congrArg (fun u => withWdata (withResult u t.result) t.wdata) h.storage.rest

theorem Effect.tbuf {i : Instr} {s t : State} (h : Effect i s t) (hc : writesCells i = false) : t.tbuf = s.tbuf :=
  h.storage.tbuf hc

theorem Effect.result_of_not_writes {i : Instr} {s t : State} (h : Effect i s t) (hi : writesResult i = false) :
    t.result = s.result := by
  rcases h.result with hr | ⟨hw, -⟩
  · exact hr
  · exact absurd hw (by simp [hi])

theorem writtenWord_of_mem {i : Instr} {sp : SpanSel} (s : State) (h : sp ∈ writtenSpans i) (a : Nat)
    (ha : (operand s sp).array a) : writtenWord i s a := ⟨sp, h, ha⟩

theorem isCode_symCode {e : Enc} {x : Sym} (h : inAlphabet e x = true) : IsCode e ((symCode x).setWidth 32) :=
  ⟨x, h, rfl⟩

theorem isCode_boolResult (e : Enc) (b : Bool) : IsCode e (boolResult b) := by
  cases b
  · exact ⟨.zero, inAlphabet_zero e, rfl⟩
  · exact ⟨.pos, by cases e <;> rfl, rfl⟩

/-! ### An assembler name has the effects of its expansion (30_encoding.md R109) -/

theorem writtenWord_expand (i : Instr) (s : State) : writtenWord i.expand s = writtenWord i s := by
  unfold writtenWord
  rw [writtenSpans_expand]

theorem storageEffect_expand {i : Instr} {s t : State} (h : StorageEffect i.expand s t) : StorageEffect i s t := by
  rwa [StorageEffect, writtenWord_expand, writesCells_expand] at h

/-- No assembler name stands for S2W. -/
theorem expand_ne_s2w {i : Instr} (h : i ≠ .s2w) : i.expand ≠ .s2w := by
  cases i <;> simp [Instr.expand] at h ⊢

/-- No assembler name stands for CLRERR. -/
theorem eq_clrerr_of_expand {i : Instr} (h : i.expand = .clrerr) : i = .clrerr := by
  cases i <;> simp [Instr.expand] at h ⊢

theorem Ends.of_expand {i : Instr} {s : State} {o : Host.Outcome State Fault Refusal} (h : Ends i.expand s o) :
    Ends i s o := by
  rcases h with ⟨t, ho, ht⟩ | ⟨e, t, ho, ht, he⟩ | ⟨hi, ho⟩
  · exact .inl ⟨t, ho, storageEffect_expand ht.storage, by simpa only [writesResult_expand] using ht.result,
      fun hi => ht.wdata (expand_ne_s2w hi)⟩
  · exact .inr (.inl ⟨e, t, ho, storageEffect_expand ht, he⟩)
  · exact .inr (.inr ⟨eq_clrerr_of_expand hi, ho⟩)

/-! ### Pseudocode within an instruction's effect -/

/-- An end of pseudocode within what instruction `i` may do from `s`. -/
def Res.Within (i : Instr) (s : State) (r : Res Unit) : Prop :=
  (∃ t, r = .done () t ∧ Effect i s t) ∨ (∃ e t, r = .raised e t ∧ StorageEffect i s t ∧ e.wellFormed s.params)

theorem Res.Within.ends {i : Instr} {s : State} {r : Res Unit} (h : r.Within i s) : Ends i s (finish r) := by
  rcases h with ⟨t, rfl, ht⟩ | ⟨e, t, rfl, ht, he⟩
  · exact .inl ⟨t, rfl, ht⟩
  · exact .inr (.inl ⟨e, t, rfl, ht, he⟩)

/-- Pseudocode that ends within the effect of `i` from `s`, when at most storage has changed since `s`. -/
def Cmd.Completes (i : Instr) (s : State) (m : Cmd Unit) : Prop := ∀ t, StorageEffect i s t → (m t).Within i s

theorem Cmd.Completes.start {i : Instr} {s : State} {m : Cmd Unit} (h : m.Completes i s) : (m s).Within i s :=
  h s (.refl _ _ s)

theorem Cmd.completes_of_within {i : Instr} {s : State} {m : Cmd Unit}
    (h : Cmd.Within s.params (writtenWord i s) (writesCells i) m) : m.Completes i s := by
  intro t ht
  rcases h t ht.params with ⟨_, u, hm, hu⟩ | ⟨e, u, hm, hu, he⟩
  · exact .inl ⟨u, hm, (ht.trans hu).effect⟩
  · exact .inr ⟨e, u, hm, ht.trans hu, he⟩

/-- A piece that changes storage only, then one that takes over the values the first can answer. -/
theorem Cmd.completes_bind {α : Type} {i : Instr} {s : State} {m : Cmd α} {k : α → Cmd Unit}
    (hm : Cmd.Within s.params (writtenWord i s) (writesCells i) m)
    (hk : ∀ a, (∃ t u, m t = .done a u) → (k a).Completes i s) : (Cmd.bind m k).Completes i s := by
  intro t ht
  rcases hm t ht.params with ⟨a, u, h, hu⟩ | ⟨e, u, h, hu, he⟩
  · rw [Cmd.bind_done h]
    exact hk a ⟨t, u, h⟩ u (ht.trans hu)
  · exact .inr ⟨e, u, Cmd.bind_raised h, ht.trans hu, he⟩

theorem Cmd.completes_ret (i : Instr) (s : State) : (Cmd.ret ()).Completes i s :=
  Cmd.completes_of_within (Cmd.within_ret _ _ _ ())

theorem completes_setResult {i : Instr} {s : State} {v : RegVal} (hi : writesResult i = true)
    (hv : IsCode s.params.enc v) : (setResult v).Completes i s := by
  intro t ht
  obtain ⟨hst, -, hwd⟩ := ht.effect
  exact .inl ⟨_, rfl, hst, .inr ⟨hi, hv⟩, hwd⟩

theorem completes_setWdata (s : State) (w : MWord) :
    Cmd.Completes .s2w s fun t => .done () (withWdata t w) := by
  intro t ht
  obtain ⟨hst, hres, -⟩ := ht.effect
  exact .inl ⟨_, rfl, hst, hres, fun h => absurd rfl h⟩

/-- A symbol immediate (30_encoding.md R111 step 3). -/
theorem within_immediate {i : Instr} {s : State} {c : SymCode} {which : RegVal} {k : Sym → Cmd Unit}
    (hw : which.toNat ≤ 1) (hk : ∀ v, (k v s).Within i s) :
    (immediate s.params.enc c which k s).Within i s := by
  cases h : uncode s.params.enc c with
  | none =>
    rw [immediate_none h]
    exact .inr ⟨_, s, rfl, .refl _ _ s, .inl ⟨rfl, rfl, hw⟩⟩
  | some v =>
    rw [immediate_some h]
    exact hk v

/-- The frame (30_encoding.md R111 steps 4 to 7): its body runs with every span valid and the cells inside TBUF. -/
theorem within_framed {i : Instr} {s : State} {z : Cmd Unit} {body : Nat → Cmd Unit} (hz : z.Completes i s)
    (hb : (∀ sp ∈ (usesOf i).spans, (operand s sp).valid s.params ((usesOf i).count s) = true) →
      ((usesOf i).cells ≠ .none → s.tboff.toNat + (usesOf i).cellCount s ≤ s.params.tbufCells) →
      (body ((usesOf i).count s)).Completes i s) :
    (framed (usesOf i) z body s).Within i s := by
  rcases framed_cases (usesOf i) z body s with ⟨-, -, h⟩ | ⟨-, e, he, h⟩ | ⟨-, -, e, he, h⟩ | ⟨-, he, -, h⟩ <;> rw [h]
  · exact hz.start
  · exact .inr ⟨e, s, rfl, .refl _ _ s, boundsError_wellFormed _ he⟩
  · exact .inr ⟨e, s, rfl, .refl _ _ s, overlapError_wellFormed _ he⟩
  · obtain ⟨hspans, hcells⟩ := (boundsError_none_iff _ s).mp he
    exact (hb hspans hcells).start

/-! ### Each command (10_state.md R49) -/

/-- `GetSym` answers a symbol of the alphabet. -/
theorem inAlphabet_of_getSym {e : Enc} {o : Operand} {k : Nat} {s t : State} {v : Sym}
    (h : getSym e o k s = .done v t) : inAlphabet e v = true := by
  by_cases ha : o.wa e k < s.params.memWords
  · by_cases hl : legalIn e s.mem (o.wa e k)
    · rw [getSym_legal ha hl, Res.done.injEq] at h
      exact h.1 ▸ inAlphabet_symIn e s.mem _
    · rw [getSym_illegal ha hl] at h
      exact absurd h (by simp)
  · have habs : decodeAt e o (o.wa e k) s = .absent (.noSuchWord (o.wa e k)) :=
      Cmd.bind_absent (m := memRead _) (if_neg ha)
    rw [getSym, Cmd.bind_absent habs] at h
    exact absurd h (by simp)

theorem exec_w2s_ends (s : State) : Ends .w2s s (exec .w2s s) := by
  refine (within_framed (i := .w2s) (Cmd.completes_ret _ s) fun _ hcells => Cmd.completes_of_within ?_).ends
  refine Cmd.within_ite (fun _ => within_writeCells _ _ _ ?_) fun hl => Cmd.within_raise _ _ ?_
  · rw [dec_length]
    exact hcells (by decide)
  · refine .inr (.inr (.inr (.inr (.inr ⟨rfl, enc_of_illegal hl, rfl, ?_⟩))))
    have := s.wdata.isLt
    show (s.wdata.setWidth 32).toNat ≤ 0xFF
    rw [BitVec.toNat_setWidth]
    omega

theorem exec_s2w_ends (s : State) : Ends .s2w s (exec .s2w s) :=
  (within_framed (i := .s2w) (Cmd.completes_ret _ s) fun _ hcells =>
    Cmd.completes_bind (within_readCells _ _ _ _ (hcells (by decide))) fun _ _ => completes_setWdata s _).ends

theorem exec_get_ends (a : SpanSel) (s : State) : Ends (.get a) s (exec (.get a) s) :=
  (within_framed (i := .get a) (Cmd.completes_ret _ s) fun hv _ =>
    Cmd.completes_bind (within_getSym _ _ (wa_valid (hv a (.head _)) Nat.zero_lt_one).1) fun _ ⟨_, _, h⟩ =>
      completes_setResult rfl (isCode_symCode (inAlphabet_of_getSym h))).ends

theorem exec_put_ends (a : SpanSel) (c : SymCode) (s : State) : Ends (.put a c) s (exec (.put a c) s) :=
  (within_immediate (by decide) fun _ =>
    within_framed (i := .put a c) (Cmd.completes_ret _ s) fun hv _ =>
      have ⟨hm, harr⟩ := wa_valid (hv a (.head _)) Nat.zero_lt_one
      Cmd.completes_of_within (within_putSym _ hm (writtenWord_of_mem s (.head _) _ harr) _)).ends

theorem exec_tosym_ends (a : SpanSel) (s : State) : Ends (.tosym a) s (exec (.tosym a) s) :=
  (within_framed (i := .tosym a) (Cmd.completes_ret _ s) fun hv hcells =>
    have hfit : s.tboff.toNat + s.n.toNat ≤ s.params.tbufCells := hcells nofun
    Cmd.completes_of_within (within_traverseRO _ _ (hv a (.head _)) fun k0 vs (hk : k0 + vs.length ≤ s.n.toNat) =>
      within_writeCells _ vs _ (by omega))).ends

theorem exec_fromsym_ends (a : SpanSel) (s : State) : Ends (.fromsym a) s (exec (.fromsym a) s) :=
  (within_framed (i := .fromsym a) (Cmd.completes_ret _ s) fun hv hcells =>
    have hfit : s.tboff.toNat + s.n.toNat ≤ s.params.tbufCells := hcells nofun
    Cmd.completes_of_within (within_traverseRW _ (hv a (.head _)) (writtenWord_of_mem s (.head _))
      fun k0 vs (hk : k0 + vs.length ≤ s.n.toNat) => within_readCells _ _ _ _ (by omega))).ends

theorem exec_copy_ends (a b : SpanSel) (s : State) : Ends (.copy a b) s (exec (.copy a b) s) :=
  (within_framed (i := .copy a b) (Cmd.completes_ret _ s) fun hv _ =>
    Cmd.completes_of_within (within_copyProc _ (hv a (.head _)) (hv b (.tail _ (.head _)))
      (writtenWord_of_mem s (.head _)))).ends

theorem exec_fillz_ends (a : SpanSel) (s : State) : Ends (.fillz a) s (exec (.fillz a) s) :=
  (within_framed (i := .fillz a) (Cmd.completes_ret _ s) fun hv _ =>
    Cmd.completes_of_within (within_fillzProc _ (hv a (.head _)) (writtenWord_of_mem s (.head _)))).ends

theorem exec_equ_ends (a b : SpanSel) (s : State) : Ends (.equ a b) s (exec (.equ a b) s) :=
  (within_framed (i := .equ a b) (completes_setResult rfl (isCode_boolResult _ true)) fun hv _ =>
    Cmd.completes_bind (within_equProc _ _ (hv a (.head _)) (hv b (.tail _ (.head _)))) fun r _ =>
      completes_setResult rfl (isCode_boolResult _ r)).ends

theorem exec_add_ends (c d : SymCode) (s : State) : Ends (.add c d) s (exec (.add c d) s) :=
  (within_immediate (by decide) fun _ => within_immediate (by decide) fun _ =>
    within_framed (i := .add c d) (Cmd.completes_ret _ s) fun _ _ =>
      completes_setResult rfl (isCode_symCode (inAlphabet_symAdd _ _ _))).ends

theorem exec_sub_ends (c d : SymCode) (s : State) : Ends (.sub c d) s (exec (.sub c d) s) :=
  (within_immediate (by decide) fun _ => within_immediate (by decide) fun _ =>
    within_framed (i := .sub c d) (Cmd.completes_ret _ s) fun _ _ =>
      completes_setResult rfl (isCode_symCode (inAlphabet_symSub _ _ _))).ends

/-- A mixer writes the words of its output span and of the state (10_state.md R49). -/
theorem writtenSpans_mix {i : Instr} {m : MixShape} (h : mixOf i = some m) : writtenSpans i = [m.out, .s] := by
  cases i <;> simp only [mixOf, mixShape, reduceCtorEq, Option.some.injEq] at h <;> subst h <;> rfl

theorem exec_mix_ends {i : Instr} {m : MixShape} (h : mixOf i = some m) (s : State) : Ends i s (exec i s) := by
  obtain ⟨-, -, hspans, -⟩ := usesOf_mix h
  rw [exec_mix h]
  refine (within_framed (Cmd.completes_ret i s) fun hv _ => Cmd.completes_of_within ?_).ends
  refine within_feedback _ _ _ (hv _ ((hspans _).mpr (.inr (.inl rfl)))) (hv _ ((hspans _).mpr (.inl rfl)))
    (hv _ ((hspans _).mpr (.inr (.inr rfl)))) ?_
  rintro x (hx | hx)
  · exact writtenWord_of_mem s (by simp [writtenSpans_mix h]) x hx
  · exact writtenWord_of_mem s (by simp [writtenSpans_mix h]) x hx

theorem exec_adds_ends (s : State) : Ends .adds s (exec .adds s) :=
  (within_framed (i := .adds) (Cmd.completes_ret _ s) fun hv _ =>
    Cmd.completes_of_within (within_absorb _ (hv .s (by decide)) (hv .x (by decide))
      (writtenWord_of_mem s (by decide)))).ends

theorem exec_sqzow_ends (s : State) : Ends .sqzow s (exec .sqzow s) :=
  (within_framed (i := .sqzow) (Cmd.completes_ret _ s) fun hv _ =>
    Cmd.completes_of_within (Cmd.within_bind
      (within_copyProc _ (hv .s (by decide)) (hv .y (by decide)) (writtenWord_of_mem s (by decide))) fun _ =>
        within_fillzProc _ (hv .s (by decide)) (writtenWord_of_mem s (by decide)))).ends

theorem exec_sqeow_ends (s : State) : Ends .sqeow s (exec .sqeow s) :=
  (within_framed (i := .sqeow) (completes_setResult rfl (isCode_boolResult _ true)) fun hv _ =>
    Cmd.completes_bind (within_equProc _ _ (hv .s (by decide)) (hv .x (by decide))) fun r _ =>
      Cmd.completes_bind (within_fillzProc _ (hv .s (by decide)) (writtenWord_of_mem s (by decide))) fun _ _ =>
        completes_setResult rfl (isCode_boolResult _ r)).ends

/-- CLRERR uses no span, no cell and no count, so no check of the frame can fail (60_exceptions.md R250). -/
theorem exec_clrerr (s : State) : exec .clrerr s = .next (clearError s) := by
  have hb : boundsError (usesOf .clrerr) s = none := by
    rw [boundsError_none_iff]
    exact ⟨fun sp h => absurd h (by simp [usesOf, uncounted]), fun h => absurd rfl h⟩
  have ho : overlapError (usesOf .clrerr) s = none := by
    rw [overlapError_none_iff]
    exact ⟨rfl, rfl, rfl⟩
  rw [exec, execClrerr, finish_framed _ _ (fun h => absurd h (by decide)) hb ho]
  rfl

/-! ### All instructions -/

theorem exec_command_ends {i : Instr} (h : i.wf = true) (s : State) : Ends i s (exec i s) := by
  cases i with
  | w2s => exact exec_w2s_ends s
  | s2w => exact exec_s2w_ends s
  | get a => exact exec_get_ends a s
  | put a c => exact exec_put_ends a c s
  | tosym a => exact exec_tosym_ends a s
  | fromsym a => exact exec_fromsym_ends a s
  | copy a b => exact exec_copy_ends a b s
  | fillz a => exact exec_fillz_ends a s
  | equ a b => exact exec_equ_ends a b s
  | add c d => exact exec_add_ends c d s
  | sub c d => exact exec_sub_ends c d s
  | setxa | setxs | setya | setys | setxam | setxsm | setyam | setysm => exact exec_mix_ends rfl s
  | adds => exact exec_adds_ends s
  | sqzow => exact exec_sqzow_ends s
  | sqeow => exact exec_sqeow_ends s
  | clrerr => exact .inr (.inr ⟨rfl, exec_clrerr s⟩)
  | _ => exact absurd h (by decide)

/-- What any instruction can do, from any state. -/
theorem exec_ends (i : Instr) (s : State) : Ends i s (exec i s) := by
  rw [← exec_expand]
  exact (exec_command_ends (Instr.expand_wf i) s).of_expand

/-- The next states of an instruction. -/
theorem exec_next_cases {i : Instr} {s t : State} (h : exec i s = .next t) :
    Effect i s t ∨ (∃ e u, t = takeError e u ∧ StorageEffect i s u ∧ e.wellFormed s.params) ∨
      (i = .clrerr ∧ t = clearError s) := by
  rcases exec_ends i s with ⟨u, ho, hu⟩ | ⟨e, u, ho, hu, he⟩ | ⟨hi, ho⟩
  all_goals rw [h, Host.Outcome.next.injEq] at ho
  · exact .inl (ho ▸ hu)
  · exact .inr (.inl ⟨e, u, ho, hu, he⟩)
  · exact .inr (.inr ⟨hi, ho⟩)

theorem exec_answers_next (i : Instr) (s : State) : ∃ t, exec i s = .next t := by
  rcases exec_ends i s with ⟨t, ho, -⟩ | ⟨e, t, ho, -⟩ | ⟨-, ho⟩ <;> exact ⟨_, ho⟩

end Sys2Proof.Machine

/-!
SUPPORT. What a step can do: the register file as the host reads and writes it, the write of a command word, and which
host actions fault.
-/

namespace Sys2Proof.Machine

open Sys2Proof

/-! ### Steps -/

theorem step_idle {s : State} (h : s.inbox = []) : step s = .next s := by
  unfold step hostStep
  rw [h]

theorem step_act {s : State} {a : HostAction} {rest : List HostAction} (h : s.inbox = a :: rest) :
    step s = hostAct a (withInbox s rest) := by
  unfold step hostStep
  rw [h]

/-! ### The register file (10_state.md R31, R35, R42) -/

theorem readReg_of_ge {r : Nat} (s : State) (h : 18 ≤ r) : readReg s r = 0 := by
  unfold readReg
  split <;> first | omega | rfl

theorem readReg_wdata (s : State) : (readReg s 8).toNat = s.wdata.toNat := by
  have := s.wdata.isLt
  show (s.wdata.setWidth 32).toNat = _
  rw [BitVec.toNat_setWidth]
  omega

/-- The bits of a register value that `WDATA` implements. -/
theorem setWidth_low_byte (v : RegVal) : (v.setWidth 8).setWidth 32 = v &&& 0xFF#32 := by
  refine BitVec.eq_of_toNat_eq ?_
  rw [BitVec.toNat_and, show (0xFF#32).toNat = 2 ^ 8 - 1 from rfl, Nat.and_two_pow_sub_one_eq_mod]
  simp only [BitVec.toNat_setWidth]
  omega

theorem readReg_writeReg_same {r : Nat} (s : State) (v : RegVal) (hl : 6 ≤ r) (hu : r ≤ 17) :
    readReg (writeReg s r v) r = if r = 8 then v &&& 0xFF#32 else v := by
  by_cases h8 : r = 8
  · rw [if_pos h8, h8]
    exact setWidth_low_byte v
  · rw [if_neg h8]
    interval_cases r <;> first | rfl | exact absurd rfl h8

theorem writeReg_ignored {r : Nat} (s : State) (v : RegVal) (h : ¬(6 ≤ r ∧ r ≤ 17)) : writeReg s r v = s := by
  unfold writeReg
  split <;> first | omega | rfl

theorem readReg_writeReg_ne {r q : Nat} (s : State) (v : RegVal) (h : q ≠ r) :
    readReg (writeReg s r v) q = readReg s q := by
  by_cases hr : 6 ≤ r ∧ r ≤ 17
  · by_cases hq : 18 ≤ q
    · rw [readReg_of_ge _ hq, readReg_of_ge _ hq]
    · obtain ⟨hl, hu⟩ := hr
      interval_cases r
      all_goals interval_cases q <;> first | rfl | exact absurd rfl h
  · rw [writeReg_ignored s v hr]

theorem readReg_writeReg (s : State) (r q : Nat) (v : RegVal) :
    readReg (writeReg s r v) q =
      if q = r ∧ 6 ≤ r ∧ r ≤ 17 then (if r = 8 then v &&& 0xFF#32 else v) else readReg s q := by
  by_cases hq : q = r
  · subst hq
    by_cases hr : 6 ≤ q ∧ q ≤ 17
    · rw [if_pos ⟨rfl, hr⟩, readReg_writeReg_same s v hr.1 hr.2]
    · rw [if_neg fun h => hr h.2, writeReg_ignored s v hr]
  · rw [if_neg fun h => hq h.1, readReg_writeReg_ne s v hq]

/-- A register write changes no storage, no list of the host, no parameter and no register that the machine writes but
`WDATA`. -/
theorem writeReg_frame (s : State) (r : Nat) (v : RegVal) :
    ∃ n tboff wdata spanS spanX spanY, writeReg s r v =
      { s with n := n, tboff := tboff, wdata := wdata, spanS := spanS, spanX := spanX, spanY := spanY } := by
  unfold writeReg
  split <;> exact ⟨_, _, _, _, _, _, rfl⟩

/-! ### Which actions fault (log 8) -/

/-- The write of a command word always answers a next state: no command faults. -/
theorem onCmdWrite_answers_next (w : CmdWord) (s : State) : ∃ t, onCmdWrite w s = .next t := by
  unfold onCmdWrite
  split
  · split
    · exact exec_answers_next .clrerr s
    · exact ⟨s, rfl⟩
  · split
    · exact exec_answers_next _ s
    · exact ⟨_, rfl⟩

/-- An access of the host that reaches past the end of `M` or TBUF, or is of nothing and starts above that end. -/
def HostAction.PastEnd (p : Params) : HostAction → Prop
  | .mr addr count => p.memWords < addr + count
  | .mw addr ws => p.memWords < addr + ws.length
  | .tr cell count => p.tbufCells < cell + count
  | .tw cell cs => p.tbufCells < cell + cs.length
  | _ => False

/-- An access that is performed inside a bound and faults past it. -/
theorem bounded_ends (last bound : Nat) (t : State) (f : Fault) :
    let o : Host.Outcome State Fault Refusal := if last ≤ bound then .next t else .fault f
    (bound < last ∧ ∃ g, o = .fault g) ∨ (¬bound < last ∧ ∃ u, o = .next u) := by
  by_cases h : last ≤ bound
  · exact .inr ⟨Nat.not_lt.mpr h, t, if_pos h⟩
  · exact .inl ⟨Nat.lt_of_not_le h, f, if_neg h⟩

theorem hostAct_ends (a : HostAction) (s : State) :
    (a.PastEnd s.params ∧ ∃ f, hostAct a s = .fault f) ∨ (¬a.PastEnd s.params ∧ ∃ t, hostAct a s = .next t) := by
  cases a with
  | rd r => exact .inr ⟨id, _, rfl⟩
  | wr r v =>
    refine .inr ⟨id, ?_⟩
    by_cases hr : r = cmdReg
    · rw [hostAct, if_pos hr]
      exact onCmdWrite_answers_next v s
    · exact ⟨_, if_neg hr⟩
  | mr addr count => exact bounded_ends _ _ _ _
  | mw addr ws => exact bounded_ends _ _ _ _
  | tr cell count => exact bounded_ends _ _ _ _
  | tw cell cs => exact bounded_ends _ _ _ _
  | reset => exact .inr ⟨id, _, rfl⟩

/-- The four accesses to storage are the actions that can reach past the end. -/
theorem exists_pastEnd_iff (s : State) :
    (∃ a rest, s.inbox = a :: rest ∧ a.PastEnd s.params) ↔
      ((∃ addr count rest, s.inbox = .mr addr count :: rest ∧ s.params.memWords < addr + count) ∨
       (∃ addr ws rest, s.inbox = .mw addr ws :: rest ∧ s.params.memWords < addr + ws.length) ∨
       (∃ c count rest, s.inbox = .tr c count :: rest ∧ s.params.tbufCells < c + count) ∨
       (∃ c cs rest, s.inbox = .tw c cs :: rest ∧ s.params.tbufCells < c + cs.length)) := by
  constructor
  · rintro ⟨a, rest, hin, ha⟩
    cases a with
    | mr addr count => exact .inl ⟨addr, count, rest, hin, ha⟩
    | mw addr ws => exact .inr (.inl ⟨addr, ws, rest, hin, ha⟩)
    | tr c count => exact .inr (.inr (.inl ⟨c, count, rest, hin, ha⟩))
    | tw c cs => exact .inr (.inr (.inr ⟨c, cs, rest, hin, ha⟩))
    | _ => exact ha.elim
  · rintro (⟨_, _, rest, hin, h⟩ | ⟨_, _, rest, hin, h⟩ | ⟨_, _, rest, hin, h⟩ | ⟨_, _, rest, hin, h⟩) <;>
      exact ⟨_, rest, hin, h⟩

/-- A step faults exactly when the host's next action reaches past the end; else it answers a next state. -/
theorem step_ends (s : State) :
    ((∃ a rest, s.inbox = a :: rest ∧ a.PastEnd s.params) ∧ ∃ f, step s = .fault f) ∨
    ((¬∃ a rest, s.inbox = a :: rest ∧ a.PastEnd s.params) ∧ ∃ t, step s = .next t) := by
  cases h : s.inbox with
  | nil => exact .inr ⟨by simp, s, step_idle h⟩
  | cons a rest =>
    rw [step_act h]
    rcases hostAct_ends a (withInbox s rest) with ⟨hp, hf⟩ | ⟨hp, ht⟩
    · exact .inl ⟨⟨a, rest, rfl, hp⟩, hf⟩
    · refine .inr ⟨?_, ht⟩
      rintro ⟨b, rest', heq, hb⟩
      obtain ⟨rfl, -⟩ := List.cons.inj heq
      exact hp hb

end Sys2Proof.Machine

/-!
SUPPORT. Every action of the host keeps the invariant of the machine: storage effects, errors taken and cleared,
register writes, and the effects of the instructions.
-/

namespace Sys2Proof.Machine

open Sys2Proof

/-- A symbol code of the encoding, widened to a register, is what `RESULT` may hold. -/
theorem IsCode.resultOk {e : Enc} {v : RegVal} (h : IsCode e v) :
    v.toNat < 4 ∧ uncode e (v.setWidth 2) ≠ none := by
  obtain ⟨x, hx, rfl⟩ := h
  have hback : ((symCode x).setWidth 32).setWidth 2 = symCode x := by cases x <;> rfl
  rw [hback, uncode_symCode hx]
  exact ⟨by cases x <;> decide, nofun⟩

theorem Effect.inv {i : Instr} {s t : State} (h : Effect i s t) (hs : Inv s) : Inv t := by
  obtain ⟨hp, hst, hstat, herr, hres⟩ := hs
  have hpar : t.params = s.params := h.storage.params
  have hst' : StorageOk t := h.storage.storage hst
  rw [StorageOk, hpar] at hst'
  have hres' : t.result.toNat < 4 ∧ uncode s.params.enc (t.result.setWidth 2) ≠ none := by
    rcases h.result with hr | ⟨-, hc⟩
    · rwa [hr]
    · exact hc.resultOk
  rw [h.eq_update]
  exact ⟨hp, hst', hstat, herr, hres'⟩

/-- An error that the machine can raise: one of a command, or `IllegalCmd` of the decoder (60_exceptions.md R241). -/
def Err.raisable (p : Params) (e : Err) : Prop := e.wellFormed p ∨ (e.kind = .illegalCmd ∧ e.info = 0)

/-- Taking an error gives the error registers what its rule says (60_exceptions.md R241 to R245). -/
theorem errorRegsOk_takeError {e : Err} {s : State} (he : e.raisable s.params) : ErrorRegsOk (takeError e s) := by
  have hcode : errField (takeError e s).status = errCode e.kind := errField_withErrField _ _
  rcases he with (⟨hk, hi, ha⟩ | ⟨hk, hi, ha⟩ | ⟨hk, hi, ha⟩ | ⟨hk, hi, ha⟩ | ⟨hk, henc, hi, ha⟩ | ⟨hk, henc, hi, ha⟩) |
    ⟨hk, hi⟩
  all_goals rw [hk] at hcode
  · exact .inr (.inr (.inl ⟨hcode, hi, ha⟩))
  · exact .inr (.inr (.inr (.inl ⟨hcode, hi, ha⟩)))
  · exact .inr (.inr (.inr (.inr (.inl ⟨hcode, hi, ha⟩))))
  · exact .inr (.inr (.inr (.inr (.inr (.inl ⟨hcode, hi, ha⟩)))))
  · exact .inr (.inr (.inr (.inr (.inr (.inr (.inl ⟨hcode, henc, hi, ha⟩))))))
  · exact .inr (.inr (.inr (.inr (.inr (.inr (.inr ⟨hcode, henc, hi, ha⟩))))))
  · exact .inr (.inl ⟨hcode, hi⟩)

theorem errCode_le (k : ErrKind) : (errCode k).toNat ≤ 5 := by cases k <;> decide

theorem inv_takeError {e : Err} {s : State} (hs : Inv s) (he : e.raisable s.params) : Inv (takeError e s) := by
  obtain ⟨hp, hst, ⟨hzero, -⟩, -, hres⟩ := hs
  refine ⟨hp, hst, ⟨?_, ?_⟩, errorRegsOk_takeError he, hres⟩
  · rw [takeError_status, withErrField_rest, hzero]
  · rw [takeError_status, errField_withErrField]
    exact errCode_le e.kind

theorem inv_clearError {s : State} (hs : Inv s) : Inv (clearError s) := by
  obtain ⟨hp, hst, ⟨hzero, -⟩, -, hres⟩ := hs
  have hcode : errField (clearError s).status = 0 := errField_withErrField _ _
  refine ⟨hp, hst, ⟨?_, by rw [hcode]; decide⟩, .inl ⟨hcode, rfl, rfl⟩, hres⟩
  rw [clearError_status, withErrField_rest, hzero]

theorem inv_exec {i : Instr} {s t : State} (hs : Inv s) (h : exec i s = .next t) : Inv t := by
  rcases exec_next_cases h with ht | ⟨e, u, rfl, hu, he⟩ | ⟨-, rfl⟩
  · exact ht.inv hs
  · exact inv_takeError (hu.effect.inv hs) (.inl (hu.params ▸ he))
  · exact inv_clearError hs

theorem inv_onCmdWrite {w : CmdWord} {s t : State} (hs : Inv s) (h : onCmdWrite w s = .next t) : Inv t := by
  unfold onCmdWrite at h
  split at h
  · split at h
    · exact inv_exec hs h
    · cases h
      exact hs
  · split at h
    · exact inv_exec hs h
    · cases h
      exact inv_takeError hs (.inr ⟨rfl, rfl⟩)

theorem inv_writeReg {s : State} (hs : Inv s) (r : Nat) (v : RegVal) : Inv (writeReg s r v) := by
  obtain ⟨_, _, _, _, _, _, h⟩ := writeReg_frame s r v
  rw [h]
  exact hs

theorem inv_withMem {s : State} (hs : Inv s) {addr : Nat} {ws : List MWord} (h : addr + ws.length ≤ s.params.memWords) :
    Inv (withMem s (Memory.writeMany s.mem addr ws)) := by
  obtain ⟨hp, ⟨hwf, hbelow, htbuf⟩, hregs⟩ := hs
  exact ⟨hp, ⟨Memory.wf_writeMany hwf _ _, Memory.below_writeMany hbelow _ h, htbuf⟩, hregs⟩

theorem inv_withTbuf {s : State} (hs : Inv s) {cell : Nat} {cs : List SymCode}
    (h : cell + cs.length ≤ s.params.tbufCells) : Inv (withTbuf s (Memory.writeMany s.tbuf cell cs)) := by
  obtain ⟨hp, ⟨hwf, hbelow, htwf, htbelow⟩, hregs⟩ := hs
  exact ⟨hp, ⟨hwf, hbelow, Memory.wf_writeMany htwf _ _, Memory.below_writeMany htbelow _ h⟩, hregs⟩

/-- Reset clears every register and keeps storage (70_reset_and_hazards.md R280, R281). -/
theorem inv_resetRegisters {s : State} (hs : Inv s) : Inv (resetRegisters s) := by
  obtain ⟨hp, hst, -⟩ := hs
  have hcode : errField (resetRegisters s).status = 0 := by
    rw [resetRegisters_status]
    decide
  exact ⟨hp, hst, ⟨by simp, by rw [hcode]; decide⟩, .inl ⟨hcode, rfl, rfl⟩,
    (isCode_symCode (inAlphabet_zero s.params.enc)).resultOk⟩

theorem inv_hostAct {a : HostAction} {s t : State} (hs : Inv s) (h : hostAct a s = .next t) : Inv t := by
  cases a with
  | rd r => cases h; exact hs
  | reset => cases h; exact inv_resetRegisters hs
  | wr r v =>
    rw [hostAct] at h
    split at h
    · exact inv_onCmdWrite hs h
    · cases h
      exact inv_writeReg hs r v
  | mr addr count =>
    rw [hostAct] at h
    split at h <;> cases h
    exact hs
  | mw addr ws =>
    rw [hostAct] at h
    split at h <;> cases h
    exact inv_withMem hs (by assumption)
  | tr cell count =>
    rw [hostAct] at h
    split at h <;> cases h
    exact hs
  | tw cell cs =>
    rw [hostAct] at h
    split at h <;> cases h
    exact inv_withTbuf hs (by assumption)

end Sys2Proof.Machine

/-!
The statements about the state of TWC (10_state.md): the invariant, the register file, what commands leave alone.
-/

namespace Sys2Proof.Machine

open Sys2Proof

/-- Settles O16: the host's next action keeps the invariant, and the rest of its list is no part of it. -/
theorem stepKeepsInvariant : Obligations.StepKeepsInvariant := by
  intro s t hs h
  cases hin : s.inbox with
  | nil =>
    rw [step_idle hin] at h
    cases h
    exact hs
  | cons a rest =>
    rw [step_act hin] at h
    exact inv_hostAct (s := withInbox s rest) hs h

/-- Settles O9, by the law of a register read after a register write. -/
theorem hostRegisterWrite : Obligations.HostRegisterWrite := by
  intro s rest r v hin hr
  have hstep : step s = .next (writeReg (withInbox s rest) r v) := by
    rw [step_act hin, hostAct, if_neg (show ¬r = cmdReg from hr)]
  refine ⟨_, hstep, ?_⟩
  have hread := readReg_writeReg (withInbox s rest) r (v := v)
  obtain ⟨_, _, _, _, _, _, h⟩ := writeReg_frame (withInbox s rest) r v
  rw [h] at hread ⊢
  exact ⟨rfl, rfl, rfl, rfl, rfl, hread⟩

/-- Settles O13: every command answers a next state, so only the four accesses to storage can fault. -/
theorem onlyHostAccessPastTheEndFaults : Obligations.OnlyHostAccessPastTheEndFaults := by
  intro s
  rw [← exists_pastEnd_iff]
  rcases step_ends s with ⟨hp, f, hf⟩ | ⟨hp, t, ht⟩
  · exact ⟨by simp [hf], iff_of_true ⟨f, hf⟩ hp⟩
  · exact ⟨by simp [ht], iff_of_false (by simp [ht]) hp⟩

/-- Settles O18: an instruction changes storage, `RESULT`, `WDATA` and the error registers at most. -/
theorem commandsKeepOperandRegisters : Obligations.CommandsKeepOperandRegisters := by
  intro i s t h
  rcases exec_next_cases h with ht | ⟨e, u, rfl, hu, -⟩ | ⟨-, rfl⟩
  · rw [ht.eq_update]
    exact ⟨rfl, rfl, rfl, rfl, rfl, rfl, rfl, rfl⟩
  · rw [hu.rest]
    exact ⟨rfl, rfl, rfl, rfl, rfl, rfl, rfl, rfl⟩
  · exact ⟨rfl, rfl, rfl, rfl, rfl, rfl, rfl, rfl⟩

/-- Settles O19: by the effect of a command that completes; one that ends in an error has changed storage only. -/
theorem onlyNamedCommandsWriteResultWdataTbuf : Obligations.OnlyNamedCommandsWriteResultWdataTbuf := by
  intro i s t h
  rcases exec_next_cases h with ht | ⟨e, u, rfl, hu, -⟩ | ⟨-, rfl⟩
  · exact ⟨ht.result_of_not_writes, ht.wdata, ht.tbuf⟩
  · exact ⟨hu.effect.result_of_not_writes, hu.effect.wdata, hu.tbuf⟩
  · exact ⟨fun _ => rfl, fun _ => rfl, fun _ => rfl⟩

/-- Settles O10, register by register: the number selects the field that is read. -/
theorem hostRegisterRead : Obligations.HostRegisterRead := by
  intro s rest r hin
  refine ⟨readReg s r, step_act hin, ?_⟩
  refine ⟨?_, ?_, ?_, ?_, ?_, ?_, ?_, ?_, ?_, ?_, ?_, ?_, ?_, ?_, ?_, ?_, ?_, ?_, readReg_of_ge s⟩
  case refine_1 =>
    rintro rfl
    show cfgValue s.params.enc = _
    cases s.params.enc <;> rfl
  case refine_9 =>
    rintro rfl
    exact readReg_wdata s
  all_goals
    rintro rfl
    rfl

/-- Settles O32, by the laws of `uncode` and, for the two's complement, symbol by symbol. -/
theorem symbolCodesAreTheTable : Obligations.SymbolCodesAreTheTable := by
  intro e
  refine ⟨uncode_symCode (inAlphabet_zero e), uncode_symCode (v := .pos) (by cases e <;> rfl),
    (uncode_none_iff e 2).mpr (.inl rfl), (uncode_none_iff .bin8 3).mpr (.inr ⟨rfl, rfl⟩),
    uncode_symCode (v := .neg) rfl, fun v hv => uncode_symCode hv, ?_⟩
  rintro - v
  cases v <;> rfl

end Sys2Proof.Machine

/-!
SUPPORT. What an instruction can see at most, said once for all instructions: `exec_sees`. From two states that differ
only in words of `M` outside the arrays of the spans that it uses, an instruction gives next states that differ only
there. The frame and each command are followed on both states at once, by the laws of what each piece can see.
-/

namespace Sys2Proof.Machine

open Sys2Proof

/-! ### Two ends that differ only outside a set of words -/

/-- Two ends of pseudocode that answer alike, and leave states that agree on `W`. -/
def Res.Alike {α : Type} (W : Nat → Prop) (r r' : Res α) : Prop :=
  (∃ a t t', r = .done a t ∧ r' = .done a t' ∧ Agree W t t') ∨
  (∃ e t t', r = .raised e t ∧ r' = .raised e t' ∧ Agree W t t') ∨
  (∃ f, r = .absent f ∧ r' = .absent f)

theorem Cmd.Sees.alike {α : Type} {W : Nat → Prop} {m : Cmd α} {s s' : State} (hm : m.Sees W) (h : Agree W s s') :
    (m s).Alike W (m s') := hm s s' h

/-- Whenever the first outcome is a next state, so is the second, and the two agree on `W`. -/
def SameNext (W : Nat → Prop) (o o' : Host.Outcome State Fault Refusal) : Prop :=
  ∀ t, o = .next t → ∃ t', o' = .next t' ∧ Agree W t t'

theorem Agree.takeError {W : Nat → Prop} {s s' : State} (h : Agree W s s') (e : Err) :
    Agree W (takeError e s) (takeError e s') := by
  refine ⟨?_, h.2⟩
  rw [h.1]
  rfl

theorem Agree.clearError {W : Nat → Prop} {s s' : State} (h : Agree W s s') :
    Agree W (clearError s) (clearError s') := by
  refine ⟨?_, h.2⟩
  rw [h.1]
  rfl

theorem sees_setWdata (W : Nat → Prop) (w : MWord) : Cmd.Sees W fun t => .done () (withWdata t w) := by
  intro s s' h
  refine .inl ⟨(), _, _, rfl, rfl, ?_, h.2⟩
  rw [h.1]
  rfl

theorem Res.Alike.finish {W : Nat → Prop} {r r' : Res Unit} (h : r.Alike W r') :
    SameNext W (finish r) (finish r') := by
  intro u hu
  rcases h with ⟨_, t, t', rfl, rfl, hag⟩ | ⟨e, t, t', rfl, rfl, hag⟩ | ⟨f, rfl, rfl⟩ <;> cases hu
  · exact ⟨t', rfl, hag⟩
  · exact ⟨_, rfl, hag.takeError e⟩

/-! ### The frame -/

theorem framed_bounds {u : Uses} {s : State} {e : Err} (z : Cmd Unit) (body : Nat → Cmd Unit)
    (hn : ¬(u.counted = true ∧ s.n = 0)) (hb : boundsError u s = some e) : framed u z body s = .raised e s := by
  rw [framed, if_neg hn, hb]

theorem framed_overlap {u : Uses} {s : State} {e : Err} (z : Cmd Unit) (body : Nat → Cmd Unit)
    (hn : ¬(u.counted = true ∧ s.n = 0)) (hb : boundsError u s = none) (ho : overlapError u s = some e) :
    framed u z body s = .raised e s := by
  rw [framed, if_neg hn, hb, ho]

/-- The words an instruction may see: those of the arrays of the spans it uses (20_memory.md R87). -/
def usedWord (i : Instr) (s : State) (a : Nat) : Prop := ∃ sp ∈ (useRow i).spans, InArray s sp a

theorem usedWord_of_mem {i : Instr} {sp : SpanSel} (s : State) (h : sp ∈ (useRow i).spans) (a : Nat)
    (ha : (operand s sp).array a) : usedWord i s a := ⟨sp, h, ha⟩

theorem usedWord_of_mem_two {i : Instr} {sp sp' : SpanSel} (s : State) (h : sp ∈ (useRow i).spans)
    (h' : sp' ∈ (useRow i).spans) (a : Nat) (ha : (operand s sp).array a ∨ (operand s sp').array a) :
    usedWord i s a := ha.elim (usedWord_of_mem s h a) (usedWord_of_mem s h' a)

section
variable {s : State} {m : Memory 8}

theorem alike_immediate {W : Nat → Prop} {e : Enc} {c : SymCode} {which : RegVal} {k : Sym → Cmd Unit}
    (h : Agree W s (withMem s m)) (hk : ∀ v, (k v s).Alike W (k v (withMem s m))) :
    (immediate e c which k s).Alike W (immediate e c which k (withMem s m)) := by
  cases hc : uncode e c with
  | none =>
    rw [immediate_none hc]
    exact (Cmd.sees_raise W _ _ _).alike h
  | some v =>
    rw [immediate_some hc]
    exact hk v

/-- The checks of the frame read registers only, so it takes the same way on both states; its body runs with every span
valid. -/
theorem alike_framed {W : Nat → Prop} {u : Uses} {z : Cmd Unit} {body : Nat → Cmd Unit}
    (h : Agree W s (withMem s m)) (hz : z.Sees W)
    (hb : (∀ sp ∈ u.spans, (operand s sp).valid s.params (u.count s) = true) → (body (u.count s)).Sees W) :
    (framed u z body s).Alike W (framed u z body (withMem s m)) := by
  by_cases hn : u.counted = true ∧ s.n = 0
  · rw [framed_zero z body hn.1 hn.2, framed_zero (s := withMem s m) z body hn.1 hn.2]
    exact hz.alike h
  · cases hbe : boundsError u s with
    | some e =>
      exact .inr (.inl ⟨e, s, withMem s m, framed_bounds z body hn hbe, framed_bounds z body hn hbe, h⟩)
    | none =>
      cases hoe : overlapError u s with
      | some e =>
        exact .inr (.inl ⟨e, s, withMem s m, framed_overlap z body hn hbe hoe, framed_overlap z body hn hbe hoe, h⟩)
      | none =>
        have hn' (hc : u.counted = true) : s.n ≠ 0 := fun h0 => hn ⟨hc, h0⟩
        rw [framed_body z body hn' hbe hoe, framed_body (s := withMem s m) z body hn' hbe hoe]
        exact (hb ((boundsError_none_iff u s).mp hbe).1).alike h

end

/-! ### Each command -/

/-- Two states that agree on the words that instruction `i` uses lead to next states that agree there. -/
def SeesUsed (i : Instr) : Prop :=
  ∀ s m, Agree (usedWord i s) s (withMem s m) → SameNext (usedWord i s) (exec i s) (exec i (withMem s m))

theorem w2s_seesUsed : SeesUsed .w2s := fun _ _ h =>
  (alike_framed h (Cmd.sees_ret _ ()) fun _ =>
    Cmd.sees_ite (fun _ => sees_writeCells _ _ _) fun _ => Cmd.sees_raise _ _ _ _).finish

theorem s2w_seesUsed : SeesUsed .s2w := fun _ _ h =>
  (alike_framed h (Cmd.sees_ret _ ()) fun _ =>
    Cmd.sees_bind (sees_readCells _ _ _ _) fun _ => sees_setWdata _ _).finish

theorem get_seesUsed (a : SpanSel) : SeesUsed (.get a) := fun s _ h =>
  (alike_framed h (Cmd.sees_ret _ ()) fun hv =>
    have hin := (wa_valid (hv a (.head _)) Nat.zero_lt_one).2
    Cmd.sees_bind (sees_getSym (usedWord_of_mem s (.head _) _ hin)) fun _ => sees_setResult _ _).finish

theorem put_seesUsed (a : SpanSel) (c : SymCode) : SeesUsed (.put a c) := fun s _ h =>
  (alike_immediate h fun _ => alike_framed h (Cmd.sees_ret _ ()) fun hv =>
    have hin := (wa_valid (hv a (.head _)) Nat.zero_lt_one).2
    sees_putSym (usedWord_of_mem s (.head _) _ hin) _).finish

theorem tosym_seesUsed (a : SpanSel) : SeesUsed (.tosym a) := fun s _ h =>
  (alike_framed h (Cmd.sees_ret _ ()) fun hv =>
    sees_traverseRO (hv a (.head _)) (usedWord_of_mem s (.head _)) fun _ _ => sees_writeCells _ _ _).finish

theorem fromsym_seesUsed (a : SpanSel) : SeesUsed (.fromsym a) := fun s _ h =>
  (alike_framed h (Cmd.sees_ret _ ()) fun hv =>
    sees_traverseRW (hv a (.head _)) (usedWord_of_mem s (.head _)) fun _ _ => sees_readCells _ _ _ _).finish

theorem copy_seesUsed (a b : SpanSel) : SeesUsed (.copy a b) := fun s _ h =>
  (alike_framed h (Cmd.sees_ret _ ()) fun hv =>
    sees_copyProc (hv a (.head _)) (hv b (.tail _ (.head _)))
      (usedWord_of_mem_two s (.head _) (.tail _ (.head _)))).finish

theorem fillz_seesUsed (a : SpanSel) : SeesUsed (.fillz a) := fun s _ h =>
  (alike_framed h (Cmd.sees_ret _ ()) fun hv =>
    sees_fillzProc (hv a (.head _)) (usedWord_of_mem s (.head _))).finish

theorem equ_seesUsed (a b : SpanSel) : SeesUsed (.equ a b) := fun s _ h =>
  (alike_framed h (sees_setResult _ _) fun hv =>
    Cmd.sees_bind (sees_equProc (hv a (.head _)) (hv b (.tail _ (.head _)))
      (usedWord_of_mem_two s (.head _) (.tail _ (.head _)))) fun _ => sees_setResult _ _).finish

theorem add_seesUsed (c d : SymCode) : SeesUsed (.add c d) := fun _ _ h =>
  (alike_immediate h fun _ => alike_immediate h fun _ => alike_framed h (Cmd.sees_ret _ ()) fun _ =>
    sees_setResult _ _).finish

theorem sub_seesUsed (c d : SymCode) : SeesUsed (.sub c d) := fun _ _ h =>
  (alike_immediate h fun _ => alike_immediate h fun _ => alike_framed h (Cmd.sees_ret _ ()) fun _ =>
    sees_setResult _ _).finish

/-- A mixer sees its data span, the state and its output span. -/
theorem mix_seesUsed {i : Instr} {x : MixShape} (hi : mixOf i = some x) : SeesUsed i := by
  intro s m h
  obtain ⟨-, -, hspans, -⟩ := usesOf_mix hi
  have hdata := (hspans x.data).mpr (.inr (.inl rfl))
  have hstate := (hspans .s).mpr (.inl rfl)
  have hout := (hspans x.out).mpr (.inr (.inr rfl))
  have used {sp : SpanSel} (hsp : sp ∈ (usesOf i).spans) := usedWord_of_mem (i := i) s ((usesOf_agrees i).2.1 ▸ hsp)
  rw [exec_mix hi, exec_mix hi]
  refine (alike_framed h (Cmd.sees_ret _ ()) fun hv =>
    sees_feedback _ _ (hv _ hdata) (hv _ hstate) (hv _ hout) ?_).finish
  rintro a (ha | ha | ha)
  · exact used hdata a ha
  · exact used hstate a ha
  · exact used hout a ha

theorem adds_seesUsed : SeesUsed .adds := fun s _ h =>
  (alike_framed h (Cmd.sees_ret _ ()) fun hv =>
    sees_absorb (hv .s (by decide)) (hv .x (by decide)) (usedWord_of_mem_two s (by decide) (by decide))).finish

theorem sqzow_seesUsed : SeesUsed .sqzow := fun s _ h =>
  (alike_framed h (Cmd.sees_ret _ ()) fun hv =>
    Cmd.sees_bind
      (sees_copyProc (hv .s (by decide)) (hv .y (by decide)) (usedWord_of_mem_two s (by decide) (by decide)))
      fun _ => sees_fillzProc (hv .s (by decide)) (usedWord_of_mem s (by decide))).finish

theorem sqeow_seesUsed : SeesUsed .sqeow := fun s _ h =>
  (alike_framed h (sees_setResult _ _) fun hv =>
    Cmd.sees_bind
      (sees_equProc (hv .s (by decide)) (hv .x (by decide)) (usedWord_of_mem_two s (by decide) (by decide)))
      fun _ => Cmd.sees_bind (sees_fillzProc (hv .s (by decide)) (usedWord_of_mem s (by decide))) fun _ =>
        sees_setResult _ _).finish

theorem clrerr_seesUsed : SeesUsed .clrerr := by
  intro s m h t ht
  rw [exec_clrerr] at ht
  cases ht
  exact ⟨_, exec_clrerr _, h.clearError⟩

/-! ### All instructions -/

theorem SeesUsed.of_expand {i : Instr} (h : SeesUsed i.expand) : SeesUsed i := by
  have hused (s : State) : usedWord i.expand s = usedWord i s := by
    unfold usedWord
    rw [useRow_expand]
  intro s m hag
  rw [← hused] at hag ⊢
  rw [← exec_expand i s, ← exec_expand i (withMem s m)]
  exact h s m hag

theorem command_seesUsed {i : Instr} (h : i.wf = true) : SeesUsed i := by
  cases i with
  | w2s => exact w2s_seesUsed
  | s2w => exact s2w_seesUsed
  | get a => exact get_seesUsed a
  | put a c => exact put_seesUsed a c
  | tosym a => exact tosym_seesUsed a
  | fromsym a => exact fromsym_seesUsed a
  | copy a b => exact copy_seesUsed a b
  | fillz a => exact fillz_seesUsed a
  | equ a b => exact equ_seesUsed a b
  | add c d => exact add_seesUsed c d
  | sub c d => exact sub_seesUsed c d
  | setxa | setxs | setya | setys | setxam | setxsm | setyam | setysm => exact mix_seesUsed rfl
  | adds => exact adds_seesUsed
  | sqzow => exact sqzow_seesUsed
  | sqeow => exact sqeow_seesUsed
  | clrerr => exact clrerr_seesUsed
  | _ => exact absurd h (by decide)

/-- No instruction sees a word outside the arrays of the spans it uses (20_memory.md R87). -/
theorem exec_sees {i : Instr} {s s' : State} (h : Agree (usedWord i s) s s') :
    SameNext (usedWord i s) (exec i s) (exec i s') := by
  have hs' : s' = withMem s s'.mem := h.1
  rw [hs'] at h ⊢
  exact (command_seesUsed (Instr.expand_wf i)).of_expand s s'.mem h

end Sys2Proof.Machine

/-!
SUPPORT. The zero-length rule for all counted instructions (20_memory.md R76), a word that is no command, and what the
host reads after it has written a run of words or cells.
-/

namespace Sys2Proof.Machine

open Sys2Proof

/-- What a counted instruction does with `N` = 0: the comparisons answer 1 in `RESULT`, the others do nothing. -/
def zeroEffect (i : Instr) : Cmd Unit := if writesResult i then setResult 1 else Cmd.ret ()

/-- A counted instruction has no immediate: it is the frame around a body, with the effect of a zero length. -/
theorem exec_counted {i : Instr} (hc : (useRow i).counted = true) (s : State) :
    ∃ body, exec i s = finish (framed (usesOf i) (zeroEffect i) body s) := by
  cases i with
  | w2s | s2w | get _ | put _ _ | add _ _ | sub _ _ | clrerr => exact absurd hc Bool.false_ne_true
  | _ => exact ⟨_, rfl⟩

theorem finish_zeroEffect (i : Instr) (s : State) :
    finish (zeroEffect i s) = .next (if writesResult i = true then { s with result := 1 } else s) := by
  unfold zeroEffect
  split <;> rfl

/-- The zero-length rule stands before every check (30_encoding.md R111 step 4). -/
theorem exec_zero {i : Instr} {s : State} (hc : (useRow i).counted = true) (hn : s.n = 0) :
    exec i s = .next (if writesResult i = true then { s with result := 1 } else s) := by
  obtain ⟨body, h⟩ := exec_counted hc s
  have hu : (usesOf i).counted = true := (usesOf_agrees i).1.trans hc
  rw [h, framed_zero _ _ hu hn, finish_zeroEffect]

/-- A word that is no command raises `IllegalCmd` (60_exceptions.md R241). -/
theorem onCmdWrite_not_command {w : CmdWord} {s : State} (hs : NoError s) (hw : ∀ i, decode w ≠ .ok i) :
    onCmdWrite w s = .next (takeError { kind := .illegalCmd, info := 0, addr := w } s) := by
  unfold onCmdWrite
  rw [if_neg (not_not_intro hs)]
  cases h : decode w with
  | ok i => exact absurd h (hw i)
  | error _ => rfl

/-! ### The host's accesses inside the storage (70_reset_and_hazards.md R296) -/

theorem hostAct_mr {addr count : Nat} {s : State} (h : addr + count ≤ s.params.memWords) :
    hostAct (.mr addr count) s =
      .next (withReply s (.words ((List.range count).map fun j => memByte s (addr + j)))) := by
  rw [hostAct, if_pos h, Memory.readMany_eq]
  rfl

theorem hostAct_tr {cell count : Nat} {s : State} (h : cell + count ≤ s.params.tbufCells) :
    hostAct (.tr cell count) s =
      .next (withReply s (.cells ((List.range count).map fun j => cellCode s (cell + j)))) := by
  rw [hostAct, if_pos h, Memory.readMany_eq]
  rfl

theorem hostAct_mw {addr : Nat} {ws : List MWord} {s : State} (h : addr + ws.length ≤ s.params.memWords) :
    hostAct (.mw addr ws) s = .next (withMem s (Memory.writeMany s.mem addr ws)) := if_pos h

theorem hostAct_tw {cell : Nat} {cs : List SymCode} {s : State} (h : cell + cs.length ≤ s.params.tbufCells) :
    hostAct (.tw cell cs) s = .next (withTbuf s (Memory.writeMany s.tbuf cell cs)) := if_pos h

end Sys2Proof.Machine

/-!
The statements about memory (20_memory.md): what the host reads and writes, what commands reach, change and see, and the
zero length.
-/

namespace Sys2Proof.Machine

open Sys2Proof

/-- Settles O21: an instruction sees only the arrays of its spans. -/
theorem commandsSeeOnlyTheirSpans : Obligations.CommandsSeeOnlyTheirSpans := by
  intro i s s' t hs' hmem h
  have hag : Agree (usedWord i s) s s' := ⟨hs', fun a ⟨sp, hsp, ha⟩ => hmem sp hsp a ha⟩
  obtain ⟨t', ht', heq, hread⟩ := exec_sees hag t h
  exact ⟨t', ht', heq, fun sp hsp a ha => hread a ⟨sp, hsp, ha⟩⟩

/-- Settles O20: storage changes inside the written spans only, and taking or clearing an error changes no word. -/
theorem commandsConfinedToWrittenSpans : Obligations.CommandsConfinedToWrittenSpans := by
  intro i s t h a ha
  have hout : ¬writtenWord i s a := fun ⟨sp, hsp, hin⟩ => ha sp hsp hin
  rcases exec_next_cases h with ht | ⟨e, u, rfl, hu, -⟩ | ⟨-, rfl⟩
  · exact ht.storage.mem a hout
  · exact hu.mem a hout
  · rfl

/-- Settles O17: the bounds checks stand before every access, so no command reaches a missing word or cell. -/
theorem everyInstructionAnswersNext : Obligations.EveryInstructionAnswersNext := exec_answers_next

/-- Settles O25: the zero-length rule stands before the checks, but after the decoder. -/
theorem zeroLengthIsNoOp : Obligations.ZeroLengthIsNoOp := by
  refine ⟨fun i s => exec_zero, fun s rest w hin hs _ hw => ?_⟩
  have hstep : step s = onCmdWrite w (withInbox s rest) := by
    rw [step_act hin, hostAct, if_pos (show 5 = cmdReg from rfl)]
  rw [onCmdWrite_not_command (s := withInbox s rest) hs hw] at hstep
  exact ⟨_, hstep, errorLatched_takeError _ _ _ rfl⟩

/-- Settles O11, by the law of a read after a run of writes. -/
theorem hostStorageWrite : Obligations.HostStorageWrite := by
  refine ⟨fun s rest addr ws hin h => ?_, fun s rest c cs hin h => ?_⟩
  · refine ⟨_, (step_act hin).trans (hostAct_mw h), rfl, fun a => ?_⟩
    exact Memory.read_writeMany s.mem addr a ws
  · refine ⟨_, (step_act hin).trans (hostAct_tw h), rfl, fun a => ?_⟩
    exact Memory.read_writeMany s.tbuf c a cs

/-- Settles O12, by what a run of reads returns. -/
theorem hostStorageRead : Obligations.HostStorageRead :=
  ⟨fun _ _ _ _ hin h => (step_act hin).trans (hostAct_mr h),
    fun _ _ _ _ hin h => (step_act hin).trans (hostAct_tr h)⟩

end Sys2Proof.Machine

/-!
SUPPORT. The command word (30_encoding.md): its fields, the answer of each operand form, and the one law of the decoder
and the encoder, `decode_eq_ok_iff`: a word decodes to `i` exactly when `i` is a command and the word is its encoding.
-/

namespace Sys2Proof.Machine

open Sys2Proof

/-! ### The fields of a word (30_encoding.md R101) -/

theorem opField_eq (w : CmdWord) : opField w = w.toNat % 64 := by
  simp [opField, BitVec.extractLsb'_toNat]

theorem opField_lt (w : CmdWord) : opField w < 64 := (w.extractLsb' 0 6).isLt

theorem spaField_toNat (w : CmdWord) : (spaField w).toNat = w.toNat / 64 % 4 := by
  simp [spaField, BitVec.extractLsb'_toNat, Nat.shiftRight_eq_div_pow]

theorem spbField_toNat (w : CmdWord) : (spbField w).toNat = w.toNat / 256 % 4 := by
  simp [spbField, BitVec.extractLsb'_toNat, Nat.shiftRight_eq_div_pow]

theorem symField_toNat (w : CmdWord) : (symField w).toNat = w.toNat / 1024 % 4 := by
  simp [symField, BitVec.extractLsb'_toNat, Nat.shiftRight_eq_div_pow]

theorem sym2Field_toNat (w : CmdWord) : (sym2Field w).toNat = w.toNat / 4096 % 4 := by
  simp [sym2Field, BitVec.extractLsb'_toNat, Nat.shiftRight_eq_div_pow]

theorem reservedField_toNat (w : CmdWord) : (reservedField w).toNat = w.toNat / 16384 := by
  have := w.isLt
  simp only [reservedField, BitVec.extractLsb'_toNat, Nat.shiftRight_eq_div_pow]
  omega

/-- The six fields of a word hold these values, the reserved bits zero. -/
structure HasFields (w : CmdWord) (op : Nat) (spa spb : BitVec 2) (sym sym2 : SymCode) : Prop where
  reserved : reservedField w = 0
  op : opField w = op
  spa : spaField w = spa
  spb : spbField w = spb
  sym : symField w = sym
  sym2 : sym2Field w = sym2

theorem hasFields_iff_fields (w : CmdWord) (op : Nat) (spa spb : BitVec 2) (sym sym2 : SymCode) :
    HasFields w op spa spb sym sym2 ↔
      reservedField w = 0 ∧ opField w = op ∧ spaField w = spa ∧ spbField w = spb ∧ symField w = sym ∧
        sym2Field w = sym2 :=
  ⟨fun h => ⟨h.reserved, h.op, h.spa, h.spb, h.sym, h.sym2⟩,
    fun ⟨hr, hop, hspa, hspb, hsym, hsym2⟩ => ⟨hr, hop, hspa, hspb, hsym, hsym2⟩⟩

/-- The fields cover the word, so they determine it: it is the packed word. -/
theorem hasFields_iff {op : Nat} (hop : op < 64) (w : CmdWord) (spa spb : BitVec 2) (sym sym2 : SymCode) :
    HasFields w op spa spb sym sym2 ↔ packWord op spa.toNat spb.toNat sym.toNat sym2.toNat = w := by
  have hw := w.isLt
  have hspa := spa.isLt
  have hspb := spb.isLt
  have hsym := sym.isLt
  have hsym2 := sym2.isLt
  have hpack : packWord op spa.toNat spb.toNat sym.toNat sym2.toNat = w ↔
      op + 64 * spa.toNat + 256 * spb.toNat + 1024 * sym.toNat + 4096 * sym2.toNat = w.toNat := by
    rw [packWord, BitVec.toNat_eq, BitVec.toNat_ofNat, Nat.mod_eq_of_lt (by omega)]
  rw [hpack, hasFields_iff_fields]
  simp only [BitVec.toNat_eq, opField_eq, spaField_toNat, spbField_toNat, symField_toNat, sym2Field_toNat,
    reservedField_toNat, show (0 : BitVec 18).toNat = 0 from rfl]
  omega

theorem hasFields_packWord {op : Nat} (hop : op < 64) (spa spb : BitVec 2) (sym sym2 : SymCode) :
    HasFields (packWord op spa.toNat spb.toNat sym.toNat sym2.toNat) op spa spb sym sym2 :=
  (hasFields_iff hop ..).mpr rfl

theorem HasFields.packWord_eq {w : CmdWord} {op : Nat} {spa spb : BitVec 2} {sym sym2 : SymCode}
    (h : HasFields w op spa spb sym sym2) : packWord op spa.toNat spb.toNat sym.toNat sym2.toNat = w :=
  (hasFields_iff (h.op ▸ opField_lt w) w spa spb sym sym2).mp h

/-! ### Each operand form (30_encoding.md R102, R104) -/

theorem decodeSel_eq_ok_iff (f : BitVec 2) (a : SpanSel) : decodeSel f = .ok a ↔ f = a.code := by
  revert f
  cases a <;> decide

section
variable {w : CmdWord} (hr : reservedField w = 0)
include hr

/-- With the reserved bits zero, the fields of a word are its four operand fields. -/
theorem hasFields_opField_iff {spa spb : BitVec 2} {sym sym2 : SymCode} :
    HasFields w (opField w) spa spb sym sym2 ↔
      spaField w = spa ∧ spbField w = spb ∧ symField w = sym ∧ sym2Field w = sym2 :=
  (hasFields_iff_fields ..).trans ⟨fun h => h.2.2, fun h => ⟨hr, rfl, h⟩⟩

theorem formPlain_eq_ok_iff {j i : Instr} : formPlain w j = .ok i ↔ HasFields w (opField w) 0 0 0 0 ∧ j = i := by
  rw [hasFields_opField_iff hr, formPlain]
  split <;> simp_all

theorem formA_eq_ok_iff {mk : SpanSel → Instr} {i : Instr} :
    formA w mk = .ok i ↔ ∃ a, HasFields w (opField w) a.code 0 0 0 ∧ mk a = i := by
  simp only [hasFields_opField_iff hr, ← decodeSel_eq_ok_iff]
  unfold formA
  cases decodeSel (spaField w) <;> split <;> simp_all

theorem formASym_eq_ok_iff {mk : SpanSel → SymCode → Instr} {i : Instr} :
    formASym w mk = .ok i ↔ ∃ a v, HasFields w (opField w) a.code 0 v 0 ∧ mk a v = i := by
  simp only [hasFields_opField_iff hr, ← decodeSel_eq_ok_iff]
  unfold formASym
  cases decodeSel (spaField w) <;> split <;> simp_all

theorem formAB_eq_ok_iff {mk : SpanSel → SpanSel → Instr} {i : Instr} :
    formAB w mk = .ok i ↔ ∃ a b, HasFields w (opField w) a.code b.code 0 0 ∧ mk a b = i := by
  simp only [hasFields_opField_iff hr, ← decodeSel_eq_ok_iff]
  unfold formAB
  cases decodeSel (spaField w) <;> cases decodeSel (spbField w) <;> split <;> simp_all

theorem formSymSym_eq_ok_iff {mk : SymCode → SymCode → Instr} {i : Instr} :
    formSymSym w mk = .ok i ↔ ∃ v u, HasFields w (opField w) 0 0 v u ∧ mk v u = i := by
  simp only [hasFields_opField_iff hr]
  unfold formSymSym
  split <;> simp_all

end

/-! ### The decoder undoes the encoder, and the encoder the decoder -/

theorem decode_eq_decodeOp {w : CmdWord} (h : reservedField w = 0) : decode w = decodeOp w := if_pos h

theorem reservedField_of_decode {w : CmdWord} {i : Instr} (h : decode w = .ok i) : reservedField w = 0 := by
  unfold decode at h
  split at h
  · assumption
  · cases h

section
variable {op : Nat} (hop : op < 64)
include hop

/-- An opcode whose commands use `spa`. -/
theorem decode_packWord_a {mk : SpanSel → Instr} (hd : ∀ w, opField w = op → decodeOp w = formA w mk) (a : SpanSel) :
    decode (packWord op a.code.toNat 0 0 0) = .ok (mk a) := by
  have hf : HasFields (packWord op a.code.toNat 0 0 0) op a.code 0 0 0 :=
    hasFields_packWord hop a.code 0 0 0
  rw [decode_eq_decodeOp hf.reserved, hd _ hf.op, formA_eq_ok_iff hf.reserved, hf.op]
  exact ⟨a, hf, rfl⟩

/-- An opcode whose commands use `spa` and `sym`. -/
theorem decode_packWord_aSym {mk : SpanSel → SymCode → Instr}
    (hd : ∀ w, opField w = op → decodeOp w = formASym w mk) (a : SpanSel) (v : SymCode) :
    decode (packWord op a.code.toNat 0 v.toNat 0) = .ok (mk a v) := by
  have hf : HasFields (packWord op a.code.toNat 0 v.toNat 0) op a.code 0 v 0 :=
    hasFields_packWord hop a.code 0 v 0
  rw [decode_eq_decodeOp hf.reserved, hd _ hf.op, formASym_eq_ok_iff hf.reserved, hf.op]
  exact ⟨a, v, hf, rfl⟩

/-- An opcode whose commands use `spa` and `spb`. -/
theorem decode_packWord_ab {mk : SpanSel → SpanSel → Instr} (hd : ∀ w, opField w = op → decodeOp w = formAB w mk)
    (a b : SpanSel) : decode (packWord op a.code.toNat b.code.toNat 0 0) = .ok (mk a b) := by
  have hf : HasFields (packWord op a.code.toNat b.code.toNat 0 0) op a.code b.code 0 0 :=
    hasFields_packWord hop a.code b.code 0 0
  rw [decode_eq_decodeOp hf.reserved, hd _ hf.op, formAB_eq_ok_iff hf.reserved, hf.op]
  exact ⟨a, b, hf, rfl⟩

/-- An opcode whose commands use `sym` and `sym2`. -/
theorem decode_packWord_symSym {mk : SymCode → SymCode → Instr}
    (hd : ∀ w, opField w = op → decodeOp w = formSymSym w mk) (v u : SymCode) :
    decode (packWord op 0 0 v.toNat u.toNat) = .ok (mk v u) := by
  have hf : HasFields (packWord op 0 0 v.toNat u.toNat) op 0 0 v u :=
    hasFields_packWord hop 0 0 v u
  rw [decode_eq_decodeOp hf.reserved, hd _ hf.op, formSymSym_eq_ok_iff hf.reserved, hf.op]
  exact ⟨v, u, hf, rfl⟩

end

theorem decode_encode_command {i : Instr} (h : i.wf = true) : decode (encode i) = .ok i := by
  cases i with
  | get a | tosym a | fromsym a | fillz a =>
    exact decode_packWord_a (by decide) (fun w h => by rw [decodeOp, h]; rfl) a
  | put a v =>
    exact decode_packWord_aSym (by decide) (fun w h => by rw [decodeOp, h]; rfl) a v
  | copy a b | equ a b =>
    exact decode_packWord_ab (by decide) (fun w h => by rw [decodeOp, h]; rfl) a b
  | add v u | sub v u =>
    exact decode_packWord_symSym (by decide) (fun w h => by rw [decodeOp, h]; rfl) v u
  | w2s | s2w | setxa | setxs | setya | setys | setxam | setxsm | setyam | setysm | adds | sqzow | sqeow | clrerr => rfl
  | _ => exact absurd h (by decide)

/-- An assembler name has the word of the command it expands to (30_encoding.md R109). -/
theorem encode_expand (i : Instr) : encode i.expand = encode i := by cases i <;> rfl

theorem encode_of_decode {w : CmdWord} {i : Instr} (h : decode w = .ok i) : i.wf = true ∧ encode i = w := by
  have hr := reservedField_of_decode h
  rw [decode_eq_decodeOp hr, decodeOp] at h
  split at h
  -- GET, TOSYM, FROMSYM, FILLZ
  case h_3 hop | h_5 hop | h_6 hop | h_8 hop =>
    rw [formA_eq_ok_iff hr, hop] at h
    obtain ⟨a, hf, rfl⟩ := h
    exact ⟨(Instr.wf_iff _).mpr rfl, hf.packWord_eq⟩
  -- PUT
  case h_4 hop =>
    rw [formASym_eq_ok_iff hr, hop] at h
    obtain ⟨a, v, hf, rfl⟩ := h
    exact ⟨(Instr.wf_iff _).mpr rfl, hf.packWord_eq⟩
  -- COPY, EQU
  case h_7 hop | h_9 hop =>
    rw [formAB_eq_ok_iff hr, hop] at h
    obtain ⟨a, b, hf, rfl⟩ := h
    exact ⟨(Instr.wf_iff _).mpr rfl, hf.packWord_eq⟩
  -- ADD, SUB
  case h_10 hop | h_11 hop =>
    rw [formSymSym_eq_ok_iff hr, hop] at h
    obtain ⟨v, u, hf, rfl⟩ := h
    exact ⟨(Instr.wf_iff _).mpr rfl, hf.packWord_eq⟩
  -- no opcode of the map
  case h_24 => cases h
  -- the commands without operands
  all_goals
    rename_i hop
    rw [formPlain_eq_ok_iff hr, hop] at h
    obtain ⟨hf, rfl⟩ := h
    exact ⟨(Instr.wf_iff _).mpr rfl, hf.packWord_eq⟩

/-- The decoder answers the commands, each on its own word and on no other. -/
theorem decode_eq_ok_iff (w : CmdWord) (i : Instr) : decode w = .ok i ↔ i.wf = true ∧ encode i = w :=
  ⟨encode_of_decode, fun ⟨hi, hw⟩ => hw ▸ decode_encode_command hi⟩

end Sys2Proof.Machine

/-!
SUPPORT. The table of 30_encoding.md R104 as match, mask and selectors: a word selects a command's row, with the
command's operands in its fields, exactly when it is the command's own word.
-/

namespace Sys2Proof.Machine

open Sys2Proof

theorem word_eq_iff (w v : CmdWord) :
    w = v ↔ reservedField w = reservedField v ∧ opField w = opField v ∧ spaField w = spaField v ∧
      spbField w = spbField v ∧ symField w = symField v ∧ sym2Field w = sym2Field v := by
  simp only [BitVec.toNat_eq, opField_eq, spaField_toNat, spbField_toNat, symField_toNat, sym2Field_toNat,
    reservedField_toNat]
  omega

/-- A mask of R104: it covers the opcode and the reserved bits, and each operand field wholly or not at all. -/
abbrev IsMask (mask : CmdWord) (spa spb sym sym2 : Bool) : Prop :=
  opField mask = 63 ∧ reservedField mask = BitVec.allOnes 18 ∧ spaField mask = BitVec.fill 2 spa ∧
    spbField mask = BitVec.fill 2 spb ∧ symField mask = BitVec.fill 2 sym ∧ sym2Field mask = BitVec.fill 2 sym2

theorem and_fill_eq_zero_iff (f : BitVec 2) (b : Bool) : f &&& BitVec.fill 2 b = 0 ↔ (b = true → f = 0) := by
  revert f
  cases b <;> decide

theorem opField_and_mask {mask : CmdWord} (h : opField mask = 63) (w : CmdWord) :
    opField (w &&& mask) = opField w := by
  have hm : mask.extractLsb' 0 6 = BitVec.allOnes 6 := BitVec.eq_of_toNat_eq h
  rw [opField, BitVec.extractLsb'_and, hm, BitVec.and_allOnes, opField]

/-- Masked, a word is a bare opcode iff it has this opcode, and the bits that the mask covers are zero. -/
theorem and_mask_eq_iff {op : Nat} (hop : op < 64) {mask : CmdWord} {spa spb sym sym2 : Bool}
    (hm : IsMask mask spa spb sym sym2) (w : CmdWord) :
    w &&& mask = BitVec.ofNat 32 op ↔
      reservedField w = 0 ∧ opField w = op ∧ (spa = true → spaField w = 0) ∧ (spb = true → spbField w = 0) ∧
        (sym = true → symField w = 0) ∧ (sym2 = true → sym2Field w = 0) := by
  obtain ⟨hmop, hmr, hma, hmb, hms, hms2⟩ := hm
  have hv : HasFields (BitVec.ofNat 32 op) op 0 0 0 0 := (hasFields_iff hop ..).mpr rfl
  rw [word_eq_iff, opField_and_mask hmop, hv.reserved, hv.op, hv.spa, hv.spb, hv.sym, hv.sym2]
  simp only [← and_fill_eq_zero_iff, ← hma, ← hmb, ← hms, ← hms2]
  rw [reservedField, BitVec.extractLsb'_and, ← reservedField, ← reservedField, hmr, BitVec.and_allOnes]
  simp only [spaField, spbField, symField, sym2Field, BitVec.extractLsb'_and]

/-- The operand of a selector field, and the test that it does not hold 3: the field holds the code of the group. -/
theorem selector_iff (f : BitVec 2) (a : SpanSel) : f = a.code ↔ f.toNat ≠ 3 ∧ f.toNat = selNumber a := by
  revert f
  cases a <;> decide

/-! ### The rows of each operand form: what the mask leaves open, the operands fix -/

section
variable {op : Nat} (hop : op < 64) (w : CmdWord)
include hop

theorem selects_plain_iff :
    MapRow.selects ⟨BitVec.ofNat 32 op, 0xFFFFFFFF, false, false⟩ w ↔ HasFields w op 0 0 0 0 := by
  have hm : IsMask 0xFFFFFFFF true true true true := by decide
  rw [MapRow.selects, and_mask_eq_iff hop hm, hasFields_iff_fields]
  grind

theorem selects_a_iff (a : SpanSel) :
    MapRow.selects ⟨BitVec.ofNat 32 op, 0xFFFFFF3F, true, false⟩ w ∧ w.toNat / 64 % 4 = selNumber a ↔
      HasFields w op a.code 0 0 0 := by
  have hm : IsMask 0xFFFFFF3F false true true true := by decide
  rw [MapRow.selects, and_mask_eq_iff hop hm, hasFields_iff_fields, selector_iff, spaField_toNat]
  grind

theorem selects_aSym_iff (a : SpanSel) (v : SymCode) :
    MapRow.selects ⟨BitVec.ofNat 32 op, 0xFFFFF33F, true, false⟩ w ∧ w.toNat / 64 % 4 = selNumber a ∧
      w.toNat / 1024 % 4 = v.toNat ↔ HasFields w op a.code 0 v 0 := by
  have hm : IsMask 0xFFFFF33F false true false true := by decide
  rw [MapRow.selects, and_mask_eq_iff hop hm, hasFields_iff_fields, selector_iff, spaField_toNat, ← symField_toNat,
    ← BitVec.toNat_eq]
  grind

theorem selects_ab_iff (a b : SpanSel) :
    MapRow.selects ⟨BitVec.ofNat 32 op, 0xFFFFFC3F, true, true⟩ w ∧ w.toNat / 64 % 4 = selNumber a ∧
      w.toNat / 256 % 4 = selNumber b ↔ HasFields w op a.code b.code 0 0 := by
  have hm : IsMask 0xFFFFFC3F false false true true := by decide
  rw [MapRow.selects, and_mask_eq_iff hop hm, hasFields_iff_fields, selector_iff, selector_iff, spaField_toNat,
    spbField_toNat]
  grind

theorem selects_symSym_iff (v u : SymCode) :
    MapRow.selects ⟨BitVec.ofNat 32 op, 0xFFFFC3FF, false, false⟩ w ∧ w.toNat / 1024 % 4 = v.toNat ∧
      w.toNat / 4096 % 4 = u.toNat ↔ HasFields w op 0 0 v u := by
  have hm : IsMask 0xFFFFC3FF true true false false := by decide
  rw [MapRow.selects, and_mask_eq_iff hop hm, hasFields_iff_fields, ← symField_toNat, ← sym2Field_toNat,
    ← BitVec.toNat_eq, ← BitVec.toNat_eq]
  grind

end

/-- A command's row and operands select one word, the command's own. -/
theorem selects_iff_encode {i : Instr} {r : MapRow} (h : mapRow i = some r) (w : CmdWord) :
    r.selects w ∧ operandFields i w ↔ encode i = w := by
  cases i with
  | get a | tosym a | fromsym a | fillz a =>
    cases h
    exact (selects_a_iff (by decide) w a).trans (hasFields_iff (by decide) ..)
  | put a v =>
    cases h
    exact (selects_aSym_iff (by decide) w a v).trans (hasFields_iff (by decide) ..)
  | copy a b | equ a b =>
    cases h
    exact (selects_ab_iff (by decide) w a b).trans (hasFields_iff (by decide) ..)
  | add v u | sub v u =>
    cases h
    exact (selects_symSym_iff (by decide) w v u).trans (hasFields_iff (by decide) ..)
  | w2s | s2w | setxa | setxs | setya | setys | setxam | setxsm | setyam | setysm | adds | sqzow | sqeow | clrerr =>
    cases h
    exact (and_iff_left trivial).trans ((selects_plain_iff (by decide) w).trans (hasFields_iff (by decide) ..))
  | _ => cases h

/-- The commands are the instructions with a row. -/
theorem wf_iff_mapRow (i : Instr) : i.wf = true ↔ ∃ r, mapRow i = some r := by
  cases i <;> simp [Instr.wf, Instr.expand, mapRow]

end Sys2Proof.Machine

/-!
SUPPORT. The write of a command word (30_encoding.md R111 steps 1 and 2), and what a command that ends without an error
leaves in the error registers.
-/

namespace Sys2Proof.Machine

open Sys2Proof

theorem step_cmdWrite {s : State} {rest : List HostAction} {w : CmdWord} (h : s.inbox = .wr 5 w :: rest) :
    step s = onCmdWrite w (withInbox s rest) := by
  rw [step_act h, hostAct, if_pos (show 5 = cmdReg from rfl)]

theorem onCmdWrite_command {w : CmdWord} {i : Instr} {s : State} (hs : NoError s) (hw : decode w = .ok i) :
    onCmdWrite w s = exec i s := by
  rw [onCmdWrite, if_neg (not_not_intro hs), hw]

theorem decodeTableWord_eq_some_iff (nbits w : Nat) (i : Instr) :
    decodeTableWord nbits w = some i ↔ decode (tableWord nbits w) = .ok i := by
  unfold decodeTableWord
  cases decode (tableWord nbits w) <;> simp

/-- The next step after a word is presented runs that word on the state as it was. -/
theorem step_withFetchWord (s : State) (nbits w : Nat) :
    step (s.withFetchWord nbits w) = onCmdWrite (tableWord nbits w) s := step_cmdWrite rfl

/-- An instruction that leaves no error latched ran to its end, or is CLRERR. -/
theorem effect_of_noError {i : Instr} {s t : State} (hi : i ≠ .clrerr) (h : exec i s = .next t) (ht : NoError t) :
    Effect i s t := by
  rcases exec_next_cases h with he | ⟨e, u, rfl, -⟩ | ⟨hc, -⟩
  · exact he
  · exact absurd ht (not_noError_takeError e u)
  · exact absurd hc hi

end Sys2Proof.Machine

/-!
The statements about the command word (30_encoding.md): the decoder, the encoder and the opcode map, and the step that
runs a word or refuses it.
-/

namespace Sys2Proof.Machine

open Sys2Proof

/-- Settles O1: a name has the word of its expansion, which is a command, and the decoder answers each command on its
own word. -/
theorem decodeUndoesEncode : Obligations.DecodeUndoesEncode := by
  intro i
  refine ⟨?_, decode_encode_command⟩
  rw [← encode_expand]
  exact decode_encode_command (Instr.expand_wf i)

/-- Settles O2: each operand form leaves no field of the word open. -/
theorem encodeUndoesDecode : Obligations.EncodeUndoesDecode := fun _ _ => encode_of_decode

/-- Settles O3: the decoder answers a command on its own word alone, and that is the word its row and operands select. -/
theorem decodeAgreesWithOpcodeMap : Obligations.DecodeAgreesWithOpcodeMap := by
  intro w i
  rw [decode_eq_ok_iff, wf_iff_mapRow]
  constructor
  · rintro ⟨⟨r, hr⟩, hw⟩
    exact ⟨r, hr, (selects_iff_encode hr w).mpr hw⟩
  · rintro ⟨r, hr, hsel⟩
    exact ⟨⟨r, hr⟩, (selects_iff_encode hr w).mp hsel⟩

/-- Settles O24: a command that runs to its end changes storage, `RESULT` and `WDATA` at most. -/
theorem successLeavesErrorRegs : Obligations.SuccessLeavesErrorRegs := by
  intro i s t hi _ h ht
  rw [(effect_of_noError hi h ht).eq_update]
  exact ⟨rfl, rfl, rfl⟩

/-- Settles O5, by the step that writes a command word. -/
theorem stepRunsDecodedInstruction : Obligations.StepRunsDecodedInstruction := by
  refine ⟨fun s rest w i hin hs hw => ?_, fun s nbits w i hs hw => ?_, fun s => step_idle⟩
  · exact (step_cmdWrite hin).trans (onCmdWrite_command hs hw)
  · rw [decodeTableWord_eq_some_iff] at hw
    exact (step_withFetchWord s nbits w).trans (onCmdWrite_command hs hw)

/-- Settles O6: a word that decodes selects a row (O3), so this one is no command, and the decoder's error is latched. -/
theorem nonCommandWordRaisesIllegalCmd : Obligations.NonCommandWordRaisesIllegalCmd := by
  intro s rest w hin hs hrow
  have hw (i : Instr) : decode w ≠ .ok i := by
    intro h
    obtain ⟨r, hr, hsel, -⟩ := (decodeAgreesWithOpcodeMap w i).mp h
    exact hrow i r hr hsel
  refine ⟨_, (step_cmdWrite hin).trans (onCmdWrite_not_command (s := withInbox s rest) hs hw), ?_,
    onlyErrorRegs_takeError _ _⟩
  exact errorLatched_takeError _ s _ rfl

end Sys2Proof.Machine

/-!
SUPPORT. The word-codec commands when the checks of the frame pass: the conditions the statements name are those of the
frame, and each command is then its body. The codec, the codes and the errors in the statements' words.
-/

namespace Sys2Proof.Machine

open Sys2Proof

/-! ### The frame passes (30_encoding.md R111 steps 4 to 6) -/

theorem spanFits_iff_valid (s : State) (sp : SpanSel) (n : Nat) :
    SpanFits s sp n ↔ (operand s sp).valid s.params n = true :=
  ((operand s sp).valid_iff s.params n).symm

theorem boundsError_eq_none {i : Instr} {s : State}
    (hspans : ∀ sp ∈ (useRow i).spans, SpanFits s sp ((useRow i).count s))
    (hcells : (useRow i).cells ≠ .none → CellsFit s ((useRow i).cellCount s)) :
    boundsError (usesOf i) s = none := by
  obtain ⟨-, hsp, hc⟩ := usesOf_agrees i
  rw [boundsError_none_iff, hsp, hc, usesOf_count, usesOf_cellCount]
  exact ⟨fun sp h => (spanFits_iff_valid s sp _).mp (hspans sp h), hcells⟩

/-- Only pairs of different groups that a command uses can clash. -/
theorem overlapError_eq_none {u : Uses} {s : State}
    (h : ∀ a ∈ u.spans, ∀ b ∈ u.spans, a ≠ b → pairClash u s a b = false) : overlapError u s = none := by
  simp only [overlapError_none_iff, clashes_eq_false]
  exact ⟨fun ha hb => h _ ha _ hb (by decide), fun ha hb => h _ ha _ hb (by decide),
    fun ha hb => h _ ha _ hb (by decide)⟩

/-- A command of one span group at most, whose checks of step 5 pass, runs its body: there is no pair to check. -/
theorem framed_single {i : Instr} {s : State} (z : Cmd Unit) (body : Nat → Cmd Unit)
    (hsingle : (useRow i).spans.length ≤ 1) (hn : (useRow i).counted = true → s.n ≠ 0)
    (hspans : ∀ sp ∈ (useRow i).spans, SpanFits s sp ((useRow i).count s))
    (hcells : (useRow i).cells ≠ .none → CellsFit s ((useRow i).cellCount s)) :
    framed (usesOf i) z body s = body ((useRow i).count s) s := by
  obtain ⟨hcounted, hsp, -⟩ := usesOf_agrees i
  have hpairs : overlapError (usesOf i) s = none := by
    refine overlapError_eq_none fun a ha b hb hab => absurd ?_ hab
    rw [hsp] at ha hb
    match (useRow i).spans, hsingle, ha, hb with
    | [c], _, ha, hb => rw [List.mem_singleton.mp ha, List.mem_singleton.mp hb]
  rw [framed_body z body (hcounted ▸ hn) (boundsError_eq_none hspans hcells) hpairs, usesOf_count]

/-! ### The codec, codes and errors as the statements name them -/

/-- The sum of five trits by Horner's scheme, at their weights (40_word_codec.md R131). -/
theorem weigh_five {a : List Sym} (h : a.length = 5) :
    weigh 3 a = (symAtIndex a 0).toInt + 3 * (symAtIndex a 1).toInt + 9 * (symAtIndex a 2).toInt +
      27 * (symAtIndex a 3).toInt + 81 * (symAtIndex a 4).toInt := by
  match a, h with
  | [v0, v1, v2, v3, v4], _ =>
    simp only [weigh, symAtIndex, List.getD_cons_zero, List.getD_cons_succ]
    ring

theorem illegalCode_iff (s : State) (c : SymCode) : IllegalCode s c ↔ uncode s.params.enc c = none :=
  (uncode_none_iff _ c).symm

/-- The symbol of cell `TBOFF + k`, where its code has one. -/
def cellSym (s : State) (k : Nat) : Sym := (uncode s.params.enc (cellCode s (s.tboff.toNat + k))).getD .zero

theorem uncode_cellSym {s : State} {k : Nat} (h : CellLegal s k) :
    uncode s.params.enc (cellCode s (s.tboff.toNat + k)) = some (cellSym s k) := by
  rw [CellLegal, illegalCode_iff] at h
  obtain ⟨v, hv⟩ := Option.ne_none_iff_exists'.mp h
  rw [cellSym, hv, Option.getD_some]

/-- A run of legal cells, read in a state whose memory may have changed: the symbols of the cells. -/
theorem readCells_legal {s : State} (m : Memory 8) {k count : Nat} (h : CellsFit s (k + count))
    (hl : ∀ i, i < count → CellLegal s (k + i)) :
    ∃ vs, readCells s.params.enc count (s.tboff.toNat + k) (withMem s m) = .done vs (withMem s m) ∧
      vs.length = count ∧ (∀ v ∈ vs, inAlphabet s.params.enc v = true) ∧
      ∀ i, i < count → symAtIndex vs i = cellSym s (k + i) := by
  have hcell (i : Nat) (hi : i < count) : uncode s.params.enc (Memory.read s.tbuf (s.tboff.toNat + k + i)) =
      some (cellSym s (k + i)) := by
    rw [Nat.add_assoc]
    exact uncode_cellSym (hl i hi)
  have hfit : s.tboff.toNat + k + count ≤ s.params.tbufCells := by omega
  obtain ⟨vs, hrun, hlen, hvs⟩ := readCells_done count _ (withMem s m) hfit
    fun i hi => ne_of_eq_of_ne (hcell i hi) (Option.some_ne_none _)
  have hsym (i : Nat) (hi : i < count) : symAtIndex vs i = cellSym s (k + i) :=
    Option.some.inj ((hvs i hi).symm.trans (hcell i hi))
  refine ⟨vs, hrun, hlen, fun v hv => ?_, hsym⟩
  obtain ⟨i, hi, rfl⟩ := List.mem_iff_getElem.mp hv
  have := hsym i (hlen ▸ hi)
  rw [symAtIndex, List.getD_eq_getElem?_getD, List.getElem?_eq_getElem hi, Option.getD_some] at this
  rw [this]
  exact inAlphabet_of_uncode (hcell i (hlen ▸ hi))

theorem spanCode_eq (sp : SpanSel) : spanCode sp = BitVec.ofNat 32 (selNumber sp) := by cases sp <;> rfl

/-- `IllegalWord` raised for the word of a symbol (60_exceptions.md R245). -/
theorem illegalWordLatched_takeError {s t : State} {sp : SpanSel} {k : Nat} (h : t.status = s.status) :
    IllegalWordLatched s
      (takeError { kind := .illegalWord, info := spanCode sp, addr := BitVec.ofNat 32 (wordOf s sp k) } t) sp k := by
  rw [IllegalWordLatched, ← spanCode_eq]
  exact errorLatched_takeError _ s t h

theorem wordOf_lt {s : State} {sp : SpanSel} {n k : Nat} (hs : SpanFits s sp n) (hk : k < n) :
    wordOf s sp k < s.params.memWords := (wa_valid ((spanFits_iff_valid s sp n).mp hs) hk).1

/-! ### Each command with its checks passed -/

theorem exec_w2s_checked {s : State} (h : CellsFit s s.params.enc.size) :
    exec .w2s s = finish ((if legal s.params.enc s.wdata then
      writeCells s.tboff.toNat (dec s.params.enc s.wdata)
      else Cmd.raise .illegalWord wdInfo (s.wdata.setWidth 32)) s) :=
  congrArg finish (framed_single (i := .w2s) _ _ (Nat.zero_le 1) nofun nofun fun _ => h)

theorem exec_s2w_checked {s : State} (h : CellsFit s s.params.enc.size) :
    exec .s2w s = finish (Cmd.bind (readCells s.params.enc s.params.enc.size s.tboff.toNat)
      (fun a t => .done () (withWdata t (enc s.params.enc a))) s) :=
  congrArg finish (framed_single (i := .s2w) _ _ (Nat.zero_le 1) nofun nofun fun _ => h)

theorem exec_get_checked {s : State} {a : SpanSel} (h : SpanFits s a 1) :
    exec (.get a) s = finish (Cmd.bind (getSym s.params.enc (operand s a) 0)
      (fun v => setResult ((symCode v).setWidth 32)) s) :=
  congrArg finish
    (framed_single (i := .get a) _ _ (Nat.le_refl 1) nofun (List.forall_mem_singleton.mpr h) (absurd rfl))

theorem exec_put_checked {s : State} {a : SpanSel} {c : SymCode} {v : Sym} (hc : uncode s.params.enc c = some v)
    (h : SpanFits s a 1) : exec (.put a c) s = finish (putSym s.params.enc (operand s a) 0 v s) := by
  rw [exec, execPut, immediate_some hc]
  exact congrArg finish
    (framed_single (i := .put a c) _ _ (Nat.le_refl 1) nofun (List.forall_mem_singleton.mpr h) (absurd rfl))

theorem exec_tosym_checked {s : State} {a : SpanSel} (hn : s.n ≠ 0) (hs : SpanFits s a (countN s))
    (hc : CellsFit s (countN s)) :
    exec (.tosym a) s = finish (traverseRO s.params.enc (operand s a) (countN s)
      (fun k0 syms => writeCells (s.tboff.toNat + k0) syms) s) :=
  congrArg finish
    (framed_single (i := .tosym a) _ _ (Nat.le_refl 1) (fun _ => hn) (List.forall_mem_singleton.mpr hs) fun _ => hc)

theorem exec_fromsym_checked {s : State} {a : SpanSel} (hn : s.n ≠ 0) (hs : SpanFits s a (countN s))
    (hc : CellsFit s (countN s)) :
    exec (.fromsym a) s = finish (traverseRW s.params.enc (operand s a) (countN s)
      (fun k0 syms => readCells s.params.enc syms.length (s.tboff.toNat + k0)) s) :=
  congrArg finish
    (framed_single (i := .fromsym a) _ _ (Nat.le_refl 1) (fun _ => hn) (List.forall_mem_singleton.mpr hs) fun _ => hc)

end Sys2Proof.Machine

/-!
SUPPORT. A span rewritten, symbol by symbol: the one predicate `SpanWritten` that PUT, FROMSYM and COPY establish, part
by part, and that fixes the memory where all words are legal. Then one touched word of `TraverseRO` and of `TraverseRW`.
-/

namespace Sys2Proof.Machine

open Sys2Proof

/-! ### The first symbols of a span rewritten -/

/-- From `m` to `m'` the first `k` symbols of a span have become those of `f`; every other symbol, and every word that
holds none of them, is as before. -/
structure SpanWritten (e : Enc) (o : Operand) (f : Nat → Sym) (k : Nat) (m m' : Memory 8) : Prop where
  inside : ∀ i, i < k → symIn e m' (o.abs e + i) = f i
  outside : ∀ j, ¬(o.abs e ≤ j ∧ j < o.abs e + k) → symIn e m' j = symIn e m j
  words : ∀ a, (∀ i, i < k → a ≠ o.wa e i) → Memory.read m' a = Memory.read m a

/-- No legal word of `m` has become illegal in `m'`. -/
def LegalKept (e : Enc) (m m' : Memory 8) : Prop := ∀ a, legalIn e m a → legalIn e m' a

theorem LegalKept.refl (e : Enc) (m : Memory 8) : LegalKept e m m := fun _ h => h

theorem LegalKept.write {e : Enc} {m m' : Memory 8} (h : LegalKept e m m') {a : Nat} {w : MWord}
    (hw : legal e w = true) : LegalKept e m (Memory.write m' a w) := by
  intro c hc
  rw [legalIn, Memory.read_write]
  split
  · exact hw
  · exact h c hc

section
variable {e : Enc} {o : Operand} {f : Nat → Sym} {k : Nat} {m m' : Memory 8}

theorem spanWritten_zero (e : Enc) (o : Operand) (f : Nat → Sym) (m : Memory 8) : SpanWritten e o f 0 m m :=
  ⟨fun _ h => absurd h (Nat.not_lt_zero _), fun _ _ => rfl, fun _ _ => rfl⟩

/-- A memory is one in which a span was rewritten by the symbols that it held. -/
theorem spanWritten_self (e : Enc) (o : Operand) (k : Nat) (m : Memory 8) :
    SpanWritten e o (fun i => symIn e m (o.abs e + i)) k m m :=
  ⟨fun _ _ => rfl, fun _ _ => rfl, fun _ _ => rfl⟩

theorem SpanWritten.congr {g : Nat → Sym} (h : SpanWritten e o f k m m') (hfg : ∀ i, i < k → f i = g i) :
    SpanWritten e o g k m m' := ⟨fun i hi => (h.inside i hi).trans (hfg i hi), h.outside, h.words⟩

/-- One more symbol (20_memory.md R82). -/
theorem SpanWritten.putIn (h : SpanWritten e o f k m m') (hf : inAlphabet e (f k) = true) :
    SpanWritten e o f (k + 1) m (putIn e m' (o.abs e + k) (f k)) := by
  refine ⟨fun i hi => ?_, fun j hj => ?_, fun a ha => ?_⟩
  · rw [symIn_putIn _ _ _ hf]
    by_cases hik : i = k
    · rw [hik, if_pos rfl]
    · rw [if_neg (by omega), h.inside i (by omega)]
  · rw [symIn_putIn _ _ _ hf, if_neg (by omega), h.outside j (by omega)]
  · rw [read_putIn_ne e m' _ (o.wa_eq e k ▸ ha k (Nat.lt_succ_self k)), h.words a fun i hi => ha i (by omega)]

/-- One more touched word, the part that belongs to the span encoded anew (20_memory.md R85). -/
theorem SpanWritten.writeTouch {hi : Nat} {v : List Sym} (h : SpanWritten e o f k m m') (hlt : o.ix e k < hi)
    (hh : hi ≤ e.size) (hv : v.length = hi - o.ix e k) (hav : ∀ x ∈ v, inAlphabet e x = true)
    (hf : ∀ i, i < hi - o.ix e k → symAtIndex v i = f (k + i)) :
    SpanWritten e o f (k + (hi - o.ix e k)) m (Memory.write m' (o.wa e k)
      (enc e (splice (dec e (Memory.read m' (o.wa e k))) (o.ix e k) hi v))) := by
  refine ⟨fun i hi' => ?_, fun j hj => ?_, fun a ha => ?_⟩
  · rw [symIn_writeTouch hlt hh hv hav]
    by_cases hik : i < k
    · rw [if_neg (by omega), h.inside i hik]
    · rw [if_pos (by omega), show o.abs e + i - (o.abs e + k) = i - k by omega, hf _ (by omega)]
      congr 1
      omega
  · rw [symIn_writeTouch hlt hh hv hav, if_neg (by omega), h.outside j (by omega)]
  · rw [Memory.read_write_ne _ (ha k (by omega)), h.words a fun i hi => ha i (by omega)]

/-- One more full word, copied as a raw pattern (41_bulk_span_ops.md R161). -/
theorem SpanWritten.writeRaw {src : Nat} (h : SpanWritten e o f k m m') (hix : o.ix e k = 0)
    (hf : ∀ i, i < e.size → symIn e m' (src * e.size + i) = f (k + i)) :
    SpanWritten e o f (k + e.size) m (Memory.write m' (o.wa e k) (Memory.read m' src)) := by
  have htouch (j : Nat) := touch_iff (o := o) (k := k) (Nat.le_refl e.size) j
  have hmod (j : Nat) : j % e.size < e.size := Nat.mod_lt j (size_pos e)
  simp only [hix, Nat.zero_le, hmod, and_true, Nat.sub_zero] at htouch
  have hpos := size_pos e
  have habs := o.abs_add e k
  refine ⟨fun i hi => ?_, fun j hj => ?_, fun a ha => ?_⟩
  · rw [symIn_writeRaw]
    by_cases hik : i < k
    · rw [if_neg (by rw [htouch]; omega), h.inside i hik]
    · have hword := (htouch (o.abs e + i)).mpr (by omega)
      have hmod' := (div_mod_eq_iff (e := e) (hmod (o.abs e + i))).mp ⟨hword, rfl⟩
      rw [if_pos hword, hf _ (hmod _)]
      congr 1
      omega
  · rw [symIn_writeRaw, if_neg (by rw [htouch]; omega), h.outside j (by omega)]
  · rw [Memory.read_write_ne _ (ha k (by omega)), h.words a fun i hi => ha i (by omega)]

/-- The new symbols and the old words fix the memory, if the words of the span are legal. -/
theorem SpanWritten.unique {m₁ m₂ : Memory 8} (h₁ : SpanWritten e o f k m m₁) (h₂ : SpanWritten e o f k m m₂)
    (hl : ∀ i, i < k → legalIn e m (o.wa e i)) (hl₁ : LegalKept e m m₁) (hl₂ : LegalKept e m m₂) (a : Nat) :
    Memory.read m₁ a = Memory.read m₂ a := by
  by_cases ha : ∀ i, i < k → a ≠ o.wa e i
  · rw [h₁.words a ha, h₂.words a ha]
  · obtain ⟨i, hi, rfl⟩ : ∃ i, i < k ∧ a = o.wa e i := by simpa using ha
    refine read_eq_of_symIn_eq (hl₁ _ (hl i hi)) (hl₂ _ (hl i hi)) fun x _ => ?_
    generalize o.wa e i * e.size + x = j
    by_cases hj : o.abs e ≤ j ∧ j < o.abs e + k
    · obtain ⟨c, rfl⟩ := Nat.exists_eq_add_of_le hj.1
      rw [h₁.inside c (by omega), h₂.inside c (by omega)]
    · rw [h₁.outside j hj, h₂.outside j hj]

end

/-- What the statements say of a rewritten span (20_memory.md R79). -/
theorem SpanWritten.symbols {s : State} {a : SpanSel} {f : Nat → Sym} {k n : Nat} {m' : Memory 8}
    (h : SpanWritten s.params.enc (operand s a) f k s.mem m') (hkn : k ≤ n) :
    (∀ i, i < k → spanSym (withMem s m') a i = f i) ∧ OtherSymbolsKept s (withMem s m') a n := by
  have habs : absOf (withMem s m') a = absOf s a := by rw [absOf, withMem_operand, withMem_params, absOf]
  refine ⟨fun i hi => ?_, fun j hj => h.outside j fun hjk => hj ?_⟩
  · rw [spanSym, habs]
    exact h.inside i hi
  · have habs' : absOf s a = (operand s a).abs s.params.enc := rfl
    omega

theorem SpanWritten.otherWordsKept {s : State} {a : SpanSel} {f : Nat → Sym} {k : Nat} {m' : Memory 8}
    (h : SpanWritten s.params.enc (operand s a) f k s.mem m') : OtherWordsKept s (withMem s m') a k := h.words

/-! ### Where a touched word begins -/

/-- A traversal that has done the first `k` of `n` symbols is at the start of a word: the words of the symbols before
lie below that of symbol `k`. -/
def AtWordStart (e : Enc) (o : Operand) (n k : Nat) : Prop := k < n → ∀ i, i < k → o.wa e i < o.wa e k

theorem atWordStart_zero (e : Enc) (o : Operand) (n : Nat) : AtWordStart e o n 0 :=
  fun _ _ h => absurd h (Nat.not_lt_zero _)

section
variable {e : Enc} {o : Operand} {n k : Nat}

theorem atWordStart_touch {hi : Nat} (hlt : o.ix e k < hi) (hend : hi = e.size ∨ k + (hi - o.ix e k) = n) :
    AtWordStart e o n (k + (hi - o.ix e k)) := by
  intro hk i hi'
  obtain rfl : hi = e.size := hend.resolve_right (by omega)
  have hlast := wa_of_touch (o := o) (k := k) (j := k + (e.size - o.ix e k) - 1) (Nat.le_refl e.size) (by omega)
    (by omega)
  have hnext := (o.wa_next (e := e) (k := k) _ rfl).1
  have := wa_mono e o (show i ≤ k + (e.size - o.ix e k) - 1 by omega)
  omega

/-- From a word start, the symbols of lower words than that of symbol `j` are those before the start of its word. -/
theorem AtWordStart.lt_iff {hi j i : Nat} (h : AtWordStart e o n k) (hh : hi ≤ e.size) (hkj : k ≤ j)
    (hj : j < k + (hi - o.ix e k)) (hjn : j < n) : o.wa e i < o.wa e j ↔ i < k := by
  rw [wa_of_touch hh hkj hj]
  refine ⟨fun hlt => ?_, h (by omega) i⟩
  by_contra hik
  have := wa_mono e o (Nat.le_of_not_lt hik)
  omega

/-- The symbols of a touched word, decoded, are those of the span. -/
theorem symAtIndex_touch {hi i : Nat} (m : Memory 8) (hh : hi ≤ e.size) (hi' : i < hi - o.ix e k) :
    symAtIndex (slice (dec e (Memory.read m (o.wa e k))) (o.ix e k) hi) i = symIn e m (o.abs e + (k + i)) := by
  obtain ⟨hwa, hix⟩ := o.wa_add (e := e) (k := k) (i := i) (by omega)
  rw [symAtIndex_slice _ hi', symIn, ← o.wa_eq, ← o.ix_eq, hwa, hix]

theorem slice_dec_length {hi : Nat} (w : MWord) (hh : hi ≤ e.size) (lo : Nat) :
    (slice (dec e w) lo hi).length = hi - lo := slice_length (by rwa [dec_length])

end

/-! ### One pass of a traversal (20_memory.md R84, R85) -/

/-- `ix(sp, k)` of a span group (20_memory.md R73). -/
abbrev ixOf (s : State) (sp : SpanSel) (k : Nat) : Nat := (operand s sp).ix s.params.enc k

/-- The touched word of a span group that begins at its symbol `k` and ends before in-word index `hi`. -/
abbrev spanTouch (s : State) (sp : SpanSel) (k hi : Nat) : Touch := ⟨wordOf s sp k, ixOf s sp k, hi, k⟩

theorem wordOf_touch {s : State} {sp : SpanSel} {k hi j : Nat} (hh : hi ≤ s.params.enc.size) (hk : k ≤ j)
    (hj : j < k + (hi - ixOf s sp k)) : wordOf s sp j = wordOf s sp k := wa_of_touch hh hk hj

/-- The symbols of a touched word that ends before symbol `j` lie in a lower word than that. -/
theorem wordOf_lt_of_touch {s : State} {sp : SpanSel} {n k hi i j : Nat} (hlt : ixOf s sp k < hi)
    (hend : hi = s.params.enc.size ∨ k + (hi - ixOf s sp k) = n) (hkj : k + (hi - ixOf s sp k) ≤ j) (hj : j < n)
    (hi' : i < hi - ixOf s sp k) : wordOf s sp (k + i) < wordOf s sp j :=
  Nat.lt_of_lt_of_le (atWordStart_touch hlt hend (Nat.lt_of_le_of_lt hkj hj) (k + i) (Nat.add_lt_add_left hi' k))
    (wa_mono _ _ hkj)

/-- What `TraverseRO` does at one touched word. -/
def readTouch (e : Enc) (o : Operand) (visit : Nat → List Sym → Cmd Unit) (t : Touch) : Cmd Unit :=
  Cmd.bind (decodeAt e o t.addr) fun a => visit t.k0 (slice a t.lo t.hi)

/-- What `TraverseRW` does at one touched word. -/
def rewriteTouch (e : Enc) (o : Operand) (visit : Nat → List Sym → Cmd (List Sym)) (t : Touch) : Cmd Unit :=
  Cmd.bind (decodeAt e o t.addr) fun a =>
    Cmd.bind (visit t.k0 (slice a t.lo t.hi)) fun v => memWrite t.addr (enc e (splice a t.lo t.hi v))

theorem traverseRO_eq (e : Enc) (o : Operand) (n : Nat) (visit : Nat → List Sym → Cmd Unit) :
    traverseRO e o n visit = Cmd.forEach (readTouch e o visit) (touched e o n) := rfl

theorem traverseRW_eq (e : Enc) (o : Operand) (n : Nat) (visit : Nat → List Sym → Cmd (List Sym)) :
    traverseRW e o n visit = Cmd.forEach (rewriteTouch e o visit) (touched e o n) := rfl

section
variable {e : Enc} {o : Operand} {t : Touch} {s : State}

theorem readTouch_legal (visit : Nat → List Sym → Cmd Unit) (h : t.addr < s.params.memWords)
    (hl : legalIn e s.mem t.addr) :
    readTouch e o visit t s = visit t.k0 (slice (dec e (Memory.read s.mem t.addr)) t.lo t.hi) s :=
  Cmd.bind_done (decodeAt_legal h hl)

theorem readTouch_illegal (visit : Nat → List Sym → Cmd Unit) (h : t.addr < s.params.memWords)
    (hl : ¬legalIn e s.mem t.addr) :
    readTouch e o visit t s =
      .raised { kind := .illegalWord, info := spanCode o.sel, addr := BitVec.ofNat 32 t.addr } s :=
  Cmd.bind_raised (decodeAt_illegal h hl)

theorem rewriteTouch_done {visit : Nat → List Sym → Cmd (List Sym)} {v : List Sym} (h : t.addr < s.params.memWords)
    (hl : legalIn e s.mem t.addr)
    (hv : visit t.k0 (slice (dec e (Memory.read s.mem t.addr)) t.lo t.hi) s = .done v s) :
    rewriteTouch e o visit t s = .done () (withMem s (Memory.write s.mem t.addr
      (enc e (splice (dec e (Memory.read s.mem t.addr)) t.lo t.hi v)))) :=
  (Cmd.bind_done (decodeAt_legal h hl)).trans ((Cmd.bind_done hv).trans (memWrite_done h))

theorem rewriteTouch_raised {visit : Nat → List Sym → Cmd (List Sym)} {err : Err} (h : t.addr < s.params.memWords)
    (hl : legalIn e s.mem t.addr)
    (hv : visit t.k0 (slice (dec e (Memory.read s.mem t.addr)) t.lo t.hi) s = .raised err s) :
    rewriteTouch e o visit t s = .raised err s :=
  (Cmd.bind_done (decodeAt_legal h hl)).trans (Cmd.bind_raised hv)

theorem rewriteTouch_illegal (visit : Nat → List Sym → Cmd (List Sym)) (h : t.addr < s.params.memWords)
    (hl : ¬legalIn e s.mem t.addr) :
    rewriteTouch e o visit t s =
      .raised { kind := .illegalWord, info := spanCode o.sel, addr := BitVec.ofNat 32 t.addr } s :=
  Cmd.bind_raised (decodeAt_illegal h hl)

end

end Sys2Proof.Machine

/-!
SUPPORT. TOSYM: a traversal that changes TBUF, followed up to the word of any symbol of the span; so that the whole
span, and a stop at an illegal word, are two uses of one law.
-/

namespace Sys2Proof.Machine

open Sys2Proof

/-! ### A loop over touched words, up to the word of a symbol -/

/-- The law of a loop that changes more than `M` (for one that changes `M` only: `Cmd.forEach_done`,
`Cmd.forEach_raised`). A loop over touches that cover a span from symbol `k`, each pass of which takes `P` of its first
symbol to `P` of the symbol after its last: it comes to the touch of symbol `j`, or with `j = n` to its end. -/
theorem Cmd.forEach_until {e : Enc} {o : Operand} {n : Nat} {body : Touch → Cmd Unit}
    (P : Nat → State → Prop) {j : Nat} (hjn : j ≤ n) :
    ∀ (ts : List Touch) (k : Nat) (s : State), Covers e o n k ts → k ≤ j →
      (∀ k hi s, o.ix e k < hi → hi ≤ e.size → (hi = e.size ∨ k + (hi - o.ix e k) = n) → k + (hi - o.ix e k) ≤ j →
        P k s →
        ∃ t, body { addr := o.wa e k, lo := o.ix e k, hi := hi, k0 := k } s = .done () t ∧ P (k + (hi - o.ix e k)) t) →
      P k s →
      ∃ k' rest t, Cmd.forEach body ts s = Cmd.forEach body rest t ∧ P k' t ∧
        ((rest = [] ∧ k' = n ∧ j = n) ∨
          ∃ hi tail, rest = { addr := o.wa e k', lo := o.ix e k', hi := hi, k0 := k' } :: tail ∧ hi ≤ e.size ∧
            k' + (hi - o.ix e k') ≤ n ∧ k' ≤ j ∧ j < k' + (hi - o.ix e k'))
  | [], k, s, hc, hkj, _, h0 => ⟨k, [], s, rfl, h0, .inl ⟨rfl, hc, Nat.le_antisymm hjn (hc ▸ hkj)⟩⟩
  | t :: rest, k, s, hc, hkj, step, h0 => by
    obtain ⟨hi, rfl, h1, h2, h3, h4, h5⟩ := covers_cons_elim hc
    by_cases h : k + (hi - o.ix e k) ≤ j
    · obtain ⟨s1, e1, p1⟩ := step k hi s h1 h2 h3 h h0
      rw [Cmd.forEach, Cmd.bind_done e1]
      exact Cmd.forEach_until P hjn rest _ s1 h5 h step p1
    · exact ⟨k, _, s, rfl, h0, .inr ⟨hi, rest, rfl, h2, h4, hkj, by omega⟩⟩

/-! ### Cells written with the codes of symbols -/

/-- From `c` to `c'` the first `k` cells from `off` have got the codes of `f`; every other cell is as before. -/
structure CellsWritten (off : Nat) (f : Nat → Sym) (k : Nat) (c c' : Memory 2) : Prop where
  inside : ∀ i, i < k → Memory.read c' (off + i) = symCode (f i)
  outside : ∀ d, ¬(off ≤ d ∧ d < off + k) → Memory.read c' d = Memory.read c d

theorem cellsWritten_zero (off : Nat) (f : Nat → Sym) (c : Memory 2) : CellsWritten off f 0 c c :=
  ⟨fun _ h => absurd h (Nat.not_lt_zero _), fun _ _ => rfl⟩

theorem CellsWritten.putCells {off k : Nat} {f : Nat → Sym} {c c' : Memory 2} (h : CellsWritten off f k c c')
    (vs : List Sym) (hf : ∀ i, i < vs.length → symAtIndex vs i = f (k + i)) :
    CellsWritten off f (k + vs.length) c (putCells c' (off + k) vs) := by
  refine ⟨fun i hi => ?_, fun d hd => ?_⟩
  · rw [read_putCells]
    by_cases hik : i < k
    · rw [if_neg (by omega), h.inside i hik]
    · rw [if_pos (by omega), hf _ (by omega)]
      congr 2
      omega
  · rw [read_putCells, if_neg (by omega), h.outside d (by omega)]

/-! ### TOSYM (40_word_codec.md R139) -/

/-- The body of TOSYM. -/
def tosymTouch (s : State) (a : SpanSel) : Touch → Cmd Unit :=
  readTouch s.params.enc (operand s a) fun k0 syms => writeCells (s.tboff.toNat + k0) syms

/-- TOSYM has done the first `k` symbols of its span, and nothing else. -/
def TosymDone (s : State) (a : SpanSel) (k : Nat) (t : State) : Prop :=
  AtWordStart s.params.enc (operand s a) (countN s) k ∧
    ∃ c, t = withTbuf s c ∧ CellsWritten s.tboff.toNat (spanSym s a) k s.tbuf c

section
variable {s : State} {a : SpanSel} {j : Nat}

/-- One touched word, legal: the cells of its symbols are written. -/
theorem tosymTouch_legal {k hi : Nat} {t : State} (hs : SpanFits s a (countN s)) (hc : CellsFit s (countN s))
    (h : TosymDone s a k t) (hlt : ixOf s a k < hi) (hh : hi ≤ s.params.enc.size)
    (hend : hi = s.params.enc.size ∨ k + (hi - ixOf s a k) = countN s)
    (hn : k + (hi - ixOf s a k) ≤ countN s) (hl : LegalAt s (wordOf s a k)) :
    ∃ u, tosymTouch s a (spanTouch s a k hi) t = .done () u ∧ TosymDone s a (k + (hi - ixOf s a k)) u := by
  obtain ⟨-, c, rfl, hcells⟩ := h
  have hlen := slice_dec_length (memByte s (wordOf s a k)) hh (ixOf s a k)
  have hw : CellsWritten s.tboff.toNat (spanSym s a) _ s.tbuf _ :=
    hcells.putCells (slice (dec s.params.enc (memByte s (wordOf s a k))) (ixOf s a k) hi)
      fun i hi' => symAtIndex_touch s.mem hh (hlen ▸ hi')
  rw [hlen] at hw
  refine ⟨_, ?_, atWordStart_touch hlt hend, _, rfl, hw⟩
  refine (readTouch_legal (s := withTbuf s c) _ (wordOf_lt hs (show k < countN s by omega)) hl).trans ?_
  refine writeCells_done _ _ (withTbuf s c) ?_
  show s.tboff.toNat + k + (slice (dec s.params.enc (memByte s (wordOf s a k))) (ixOf s a k) hi).length ≤
    s.params.tbufCells
  omega

/-- TOSYM, as far as all words before that of symbol `j` being legal lets it come. -/
theorem tosym_until (hs : SpanFits s a (countN s)) (hc : CellsFit s (countN s)) (hj : j ≤ countN s)
    (hl : ∀ k, k < countN s → (j < countN s → wordOf s a k < wordOf s a j) → LegalAt s (wordOf s a k)) :
    ∃ k rest t, traverseRO s.params.enc (operand s a) (countN s)
        (fun k0 syms => writeCells (s.tboff.toNat + k0) syms) s = Cmd.forEach (tosymTouch s a) rest t ∧
      TosymDone s a k t ∧
      ((rest = [] ∧ k = countN s ∧ j = countN s) ∨
        ∃ hi tail, rest = spanTouch s a k hi :: tail ∧ hi ≤ s.params.enc.size ∧
          k + (hi - ixOf s a k) ≤ countN s ∧ k ≤ j ∧ j < k + (hi - ixOf s a k)) := by
  refine Cmd.forEach_until (TosymDone s a) hj _ 0 s (covers_touched _ _ _) (Nat.zero_le j) ?_
    ⟨atWordStart_zero _ _ _, s.tbuf, rfl, cellsWritten_zero _ _ _⟩
  intro k hi t (hlt : ixOf s a k < hi) hh hend (hkj : k + (hi - ixOf s a k) ≤ j) hk
  exact tosymTouch_legal hs hc hk hlt hh hend (by omega) (hl k (by omega) fun hjn =>
    wordOf_lt_of_touch (i := 0) hlt hend hkj hjn (Nat.sub_pos_of_lt hlt))

/-- With all words legal TOSYM changes the cells of the span's symbols and nothing else. -/
theorem exec_tosym_done (hn : s.n ≠ 0) (hs : SpanFits s a (countN s)) (hc : CellsFit s (countN s))
    (hl : LegalSpan s a (countN s)) :
    ∃ c, exec (.tosym a) s = .next (withTbuf s c) ∧
      CellsWritten s.tboff.toNat (spanSym s a) (countN s) s.tbuf c := by
  obtain ⟨k, rest, t, hrun, ⟨-, c, rfl, hcells⟩, ⟨rfl, rfl, -⟩ | ⟨hi, tail, -, -, hkn, -, hj⟩⟩ :=
    tosym_until hs hc (Nat.le_refl (countN s)) fun k hk _ => hl k hk
  · exact ⟨c, by rw [exec_tosym_checked hn hs hc, hrun]; rfl, hcells⟩
  · omega

/-- At an illegal word TOSYM raises, with the cells of the symbols before that word written. -/
theorem exec_tosym_illegal (hn : s.n ≠ 0) (hs : SpanFits s a (countN s)) (hc : CellsFit s (countN s))
    (hj : j < countN s) (hx : ¬LegalAt s (wordOf s a j))
    (hl : ∀ k, k < countN s → wordOf s a k < wordOf s a j → LegalAt s (wordOf s a k)) :
    ∃ k c, exec (.tosym a) s = .next (takeError
        { kind := .illegalWord, info := spanCode a, addr := BitVec.ofNat 32 (wordOf s a j) } (withTbuf s c)) ∧
      CellsWritten s.tboff.toNat (spanSym s a) k s.tbuf c ∧ k ≤ j ∧ ∀ i, wordOf s a i < wordOf s a j ↔ i < k := by
  obtain ⟨k, rest, t, hrun, ⟨hstart, c, rfl, hcells⟩, ⟨-, -, rfl⟩ | ⟨hi, tail, rfl, hh, hkn, hkj, hjk⟩⟩ :=
    tosym_until hs hc (Nat.le_of_lt hj) fun k hk hlt => hl k hk (hlt hj)
  · omega
  · have hword := wordOf_touch hh hkj hjk
    rw [hword] at hx ⊢
    have hraise : tosymTouch s a (spanTouch s a k hi) (withTbuf s c) = _ :=
      readTouch_illegal _ (wordOf_lt hs (show k < countN s by omega)) hx
    refine ⟨k, c, ?_, hcells, hkj, fun i => hword ▸ hstart.lt_iff hh hkj hjk hj⟩
    rw [exec_tosym_checked hn hs hc, hrun, Cmd.forEach, Cmd.bind_raised hraise]
    rfl

end

end Sys2Proof.Machine

/-!
SUPPORT. FROMSYM: each touched word of the span is rewritten with the symbols of its cells; at the first word that is
illegal, or has an illegal cell, the words before it are written.
-/

namespace Sys2Proof.Machine

open Sys2Proof

/-- The body of FROMSYM (40_word_codec.md R140). -/
def fromsymTouch (s : State) (a : SpanSel) : Touch → Cmd Unit :=
  rewriteTouch s.params.enc (operand s a) fun k0 syms => readCells s.params.enc syms.length (s.tboff.toNat + k0)

/-- FROMSYM has done the first `k` symbols of its span, at the start of a word; legal words are legal still. -/
structure FromsymDone (s : State) (a : SpanSel) (k : Nat) (m : Memory 8) : Prop where
  start : AtWordStart s.params.enc (operand s a) (countN s) k
  written : SpanWritten s.params.enc (operand s a) (cellSym s) k s.mem m
  legal : LegalKept s.params.enc s.mem m

/-- FROMSYM has stopped at the word of symbol `j`: it has done the symbols of lower words, which are the first `k`. -/
def FromsymStopped (s : State) (a : SpanSel) (j : Nat) (m : Memory 8) : Prop :=
  ∃ k, SpanWritten s.params.enc (operand s a) (cellSym s) k s.mem m ∧ k ≤ j ∧
    ∀ i, wordOf s a i < wordOf s a j ↔ i < k

theorem fromsymDone_zero (s : State) (a : SpanSel) : FromsymDone s a 0 s.mem :=
  ⟨atWordStart_zero _ _ _, spanWritten_zero _ _ _ _, .refl _ _⟩

section
variable {s : State} {a : SpanSel} {k hi : Nat} {m : Memory 8}

/-- The current word is not yet written. -/
theorem FromsymDone.current (h : FromsymDone s a k m) (hk : k < countN s) :
    Memory.read m (wordOf s a k) = memByte s (wordOf s a k) :=
  h.written.words _ fun i hi => Nat.ne_of_gt (h.start hk i hi)

/-- One touched word, legal, with legal cells. -/
theorem fromsymTouch_legal (hs : SpanFits s a (countN s)) (hc : CellsFit s (countN s)) (h : FromsymDone s a k m)
    (hlt : ixOf s a k < hi) (hh : hi ≤ s.params.enc.size)
    (hend : hi = s.params.enc.size ∨ k + (hi - ixOf s a k) = countN s) (hn : k + (hi - ixOf s a k) ≤ countN s)
    (hl : LegalAt s (wordOf s a k)) (hcells : ∀ i, i < hi - ixOf s a k → CellLegal s (k + i)) :
    ∃ m', fromsymTouch s a (spanTouch s a k hi) (withMem s m) = .done () (withMem s m') ∧
      FromsymDone s a (k + (hi - ixOf s a k)) m' := by
  obtain ⟨vs, hrun, hlen, halph, hvs⟩ := readCells_legal m (by omega) hcells
  refine ⟨_, rewriteTouch_done (s := withMem s m) (wordOf_lt hs (show k < countN s by omega)) (h.legal _ hl) ?_,
    atWordStart_touch hlt hend, h.written.writeTouch hlt hh hlen halph hvs, h.legal.write (legal_enc ?_)⟩
  · rw [slice_dec_length _ hh]
    exact hrun
  · rw [splice_length (Nat.le_of_lt hlt) (by rwa [dec_length]) hlen, dec_length]

/-- With all words and cells legal FROMSYM writes the symbols of the cells to the span. -/
theorem exec_fromsym_done (hn : s.n ≠ 0) (hs : SpanFits s a (countN s)) (hc : CellsFit s (countN s))
    (hl : LegalSpan s a (countN s)) (hcells : ∀ k, k < countN s → CellLegal s k) :
    ∃ m, exec (.fromsym a) s = .next (withMem s m) ∧
      SpanWritten s.params.enc (operand s a) (cellSym s) (countN s) s.mem m ∧ LegalKept s.params.enc s.mem m := by
  obtain ⟨m, hrun, hm⟩ := Cmd.forEach_done (body := fromsymTouch s a) (s := s) (FromsymDone s a) _ 0 s.mem
    (covers_touched _ (operand s a) (countN s))
    (fun k hi m (hlt : ixOf s a k < hi) hh hend (hk : k + (hi - ixOf s a k) ≤ countN s) h =>
      fromsymTouch_legal hs hc h hlt hh hend hk (hl k (by omega)) fun i _ => hcells _ (by omega))
    (fromsymDone_zero s a)
  refine ⟨m, ?_, hm.written, hm.legal⟩
  rw [exec_fromsym_checked hn hs hc, traverseRW_eq]
  exact congrArg finish hrun

/-- FROMSYM ends at the word of symbol `j`, with the words before it written, if that word is the first not wholly good
and its pass raises an error without effect. -/
theorem exec_fromsym_raised {j : Nat} {err : Err} (hn : s.n ≠ 0) (hs : SpanFits s a (countN s))
    (hc : CellsFit s (countN s)) (hj : j < countN s)
    (hgood : ∀ k, k < countN s → wordOf s a k < wordOf s a j → LegalAt s (wordOf s a k) ∧ CellLegal s k)
    (hlast : ∀ k hi m, hi ≤ s.params.enc.size → k + (hi - ixOf s a k) ≤ countN s → k ≤ j →
      j < k + (hi - ixOf s a k) → FromsymDone s a k m →
      fromsymTouch s a (spanTouch s a k hi) (withMem s m) = .raised err (withMem s m)) :
    ∃ m, exec (.fromsym a) s = .next (takeError err (withMem s m)) ∧ FromsymStopped s a j m := by
  obtain ⟨m, hrun, hm⟩ := Cmd.forEach_raised (body := fromsymTouch s a) (s := s) (err := err) (FromsymDone s a) j
    (FromsymStopped s a j) _ 0 s.mem (covers_touched _ (operand s a) (countN s)) (Nat.zero_le j) hj
    (fun k hi m (hlt : ixOf s a k < hi) hh hend (hkj : k + (hi - ixOf s a k) ≤ j) h =>
      have hbefore (i : Nat) (hi' : i < hi - ixOf s a k) :=
        hgood (k + i) (by omega) (wordOf_lt_of_touch hlt hend hkj hj hi')
      fromsymTouch_legal hs hc h hlt hh hend (by omega) (hbefore 0 (by omega)).1 fun i hi' => (hbefore i hi').2)
    (fun k hi m _ hh _ hk hkj hjk h =>
      ⟨m, hlast k hi m hh hk hkj hjk h, k, h.written, hkj, fun i => h.start.lt_iff hh hkj hjk hj⟩)
    (fromsymDone_zero s a)
  refine ⟨m, ?_, hm⟩
  rw [exec_fromsym_checked hn hs hc, traverseRW_eq]
  exact congrArg finish hrun

/-- What the statements say of a FROMSYM that has stopped (60_exceptions.md R248). -/
theorem FromsymStopped.effect {j : Nat} (h : FromsymStopped s a j m) (hj : j < countN s)
    (hcells : ∀ k, k < countN s → wordOf s a k < wordOf s a j → CellLegal s k) :
    (∀ k, k < countN s → wordOf s a k < wordOf s a j →
      uncode s.params.enc (cellCode s (s.tboff.toNat + k)) = some (spanSym (withMem s m) a k)) ∧
      OtherSymbolsKept s (withMem s m) a (countN s) ∧ LaterWordsKept s (withMem s m) a a (countN s) j := by
  obtain ⟨k, hw, hkj, hbefore⟩ := h
  obtain ⟨hin, hother⟩ := hw.symbols (show k ≤ countN s by omega)
  refine ⟨fun i hi hlt => ?_, hother, fun c hc => hw.words c fun i hi => ?_⟩
  · rw [hin i ((hbefore i).mp hlt)]
    exact uncode_cellSym (hcells i hi hlt)
  · exact hc i (by omega) ((hbefore i).mpr hi)

/-- The pass of an illegal word (60_exceptions.md R245). -/
theorem fromsymTouch_illegalWord (hs : SpanFits s a (countN s)) (h : FromsymDone s a k m) (hk : k < countN s)
    (hx : ¬LegalAt s (wordOf s a k)) :
    fromsymTouch s a (spanTouch s a k hi) (withMem s m) =
      .raised ⟨.illegalWord, spanCode a, BitVec.ofNat 32 (wordOf s a k)⟩ (withMem s m) := by
  refine rewriteTouch_illegal (s := withMem s m) _ (wordOf_lt hs hk) ?_
  show ¬legal s.params.enc (Memory.read m (wordOf s a k)) = true
  rwa [h.current hk]

/-- The pass of a legal word whose first illegal cell is that of symbol `j` (60_exceptions.md R242 (b)). -/
theorem fromsymTouch_illegalCell {j : Nat} (hs : SpanFits s a (countN s)) (hc : CellsFit s (countN s))
    (h : FromsymDone s a k m) (hh : hi ≤ s.params.enc.size) (hn : k + (hi - ixOf s a k) ≤ countN s) (hkj : k ≤ j)
    (hjk : j < k + (hi - ixOf s a k)) (hl : LegalAt s (wordOf s a k)) (hx : ¬CellLegal s j)
    (hcells : ∀ i, i < j → CellLegal s i) :
    fromsymTouch s a (spanTouch s a k hi) (withMem s m) =
      .raised ⟨.illegalSymbol, tbufCode, BitVec.ofNat 32 (s.tboff.toNat + j)⟩ (withMem s m) := by
  obtain ⟨x, rfl⟩ := Nat.exists_eq_add_of_le hkj
  simp only [CellLegal, illegalCode_iff, not_not, ← Nat.add_assoc] at hx
  have hcell (i : Nat) (hi : i < x) : uncode s.params.enc (Memory.read s.tbuf (s.tboff.toNat + k + i)) ≠ none := by
    have := hcells (k + i) (by omega)
    rwa [CellLegal, illegalCode_iff, ← Nat.add_assoc] at this
  refine rewriteTouch_raised (s := withMem s m) (wordOf_lt hs (show k < countN s by omega)) (h.legal _ hl) ?_
  rw [slice_dec_length _ hh, ← Nat.add_assoc]
  exact readCells_raised _ _ x (withMem s m) (show s.tboff.toNat + k + (hi - ixOf s a k) ≤ s.params.tbufCells by omega)
    (show x < hi - ixOf s a k by omega) hcell hx

end

end Sys2Proof.Machine

/-!
SUPPORT. COPY between spans that lie apart: the fast path is a loop over the touched words of the destination, the slow
path one over its symbols, and either rewrites the destination with the symbols of the source.
-/

namespace Sys2Proof.Machine

open Sys2Proof

/-! ### Sequences of loops -/

theorem Cmd.bind_assoc {α β γ : Type} (m : Cmd α) (k : α → Cmd β) (l : β → Cmd γ) :
    Cmd.bind (Cmd.bind m k) l = Cmd.bind m fun x => Cmd.bind (k x) l := by
  funext s
  rcases Cmd.bind_cases m k s with ⟨a, t, h, hb⟩ | ⟨e, t, h, hb⟩ | ⟨f, h, hb⟩
  · rw [Cmd.bind_done h, Cmd.bind, hb, Cmd.bind]
  · rw [Cmd.bind_raised h, Cmd.bind_raised hb]
  · rw [Cmd.bind_absent h, Cmd.bind_absent hb]

theorem Cmd.bind_ret (m : Cmd Unit) : (Cmd.bind m fun _ => Cmd.ret ()) = m := by
  funext s
  cases h : m s with
  | done a t => exact Cmd.bind_done h
  | raised e t => exact Cmd.bind_raised h
  | absent f => exact Cmd.bind_absent h

theorem Cmd.forEach_append {α : Type} (body : α → Cmd Unit) (l l' : List α) :
    Cmd.forEach body (l ++ l') = Cmd.bind (Cmd.forEach body l) fun _ => Cmd.forEach body l' := by
  induction l with
  | nil => rfl
  | cons t rest ih => rw [List.cons_append, Cmd.forEach, ih, Cmd.forEach, Cmd.bind_assoc]

theorem Cmd.forEach_singleton {α : Type} (body : α → Cmd Unit) (t : α) : Cmd.forEach body [t] = body t :=
  Cmd.bind_ret (body t)

theorem Cmd.forEach_range' {α : Type} (body : α → Cmd Unit) (g : Nat → α) (count k : Nat) :
    Cmd.forEach body ((List.range' k count).map g) = Cmd.forUp (fun j => body (g j)) count k := by
  induction count generalizing k with
  | zero => rfl
  | succ c ih => rw [List.range'_succ, List.map_cons, Cmd.forEach, ih, Cmd.forUp]

/-- At most one pass. -/
theorem Cmd.forEach_if {α : Type} (body : α → Cmd Unit) (c : Prop) [Decidable c] (t : α) :
    Cmd.forEach body (if c then [t] else []) = if c then body t else Cmd.ret () := by
  split
  · exact Cmd.forEach_singleton body t
  · rfl

/-! ### The fast path (41_bulk_span_ops.md R160, R161) -/

/-- What the fast path of COPY does at one touched word of the destination `b`. -/
def copyTouch (e : Enc) (a b : Operand) (t : Touch) : Cmd Unit :=
  if t.hi - t.lo = e.size then copyWord (a.wa e t.k0) t.addr
  else copyEdge e a b (a.wa e t.k0) t.addr t.lo t.hi

theorem copyTouch_full (e : Enc) (a b : Operand) (addr k0 : Nat) :
    copyTouch e a b { addr := addr, lo := 0, hi := e.size, k0 := k0 } = copyWord (a.wa e k0) addr := if_pos rfl

theorem copyTouch_edge {e : Enc} {lo hi : Nat} (a b : Operand) (addr k0 : Nat) (h : hi - lo ≠ e.size) :
    copyTouch e a b { addr := addr, lo := lo, hi := hi, k0 := k0 } = copyEdge e a b (a.wa e k0) addr lo hi := if_neg h

/-- The edge segments are shorter than a word. -/
theorem segments_edge_lt (e : Enc) (o : Operand) (n : Nat) :
    (segments e o n).lead < e.size ∧ (segments e o n).trail < e.size := by
  refine ⟨?_, Nat.mod_lt _ (size_pos e)⟩
  have := size_pos e
  show leadLength e o n < e.size
  rcases leadLength_cases e o n with ⟨-, h⟩ | ⟨h0, h⟩ <;> omega

/-- On the fast path the source and the destination have their segments side by side, so the three parts of COPY are
one loop over the touched words of the destination. -/
theorem copyFast_eq_forEach {e : Enc} {a b : Operand} (h : a.off % e.size = b.off % e.size) (n : Nat) :
    copyFast e n a b = Cmd.forEach (copyTouch e a b) (touched e b n) := by
  obtain ⟨hfirst, hlead, hfull, htrail⟩ := segments_same h n
  obtain ⟨hwl, hw0, -⟩ := segments_wa e a n
  obtain ⟨hltlead, hlttrail⟩ := segments_edge_lt e a n
  unfold copyFast touched
  simp only [Cmd.forEach_append, Cmd.forEach_if, Cmd.bind_assoc, fullTouches, List.range_eq_range', Cmd.forEach_range',
    hfirst, hlead, hfull, htrail, hwl, hw0]
  have hl : (segments e a n).first + (segments e a n).lead - (segments e a n).first ≠ e.size := by omega
  have ht : (segments e a n).trail - 0 ≠ e.size := by omega
  rw [copyTouch_edge _ _ _ _ hl, copyTouch_edge _ _ _ _ ht]
  simp only [copyTouch_full]

/-- With the same phase, symbol `k` stands at the same index in both spans. -/
theorem SamePhase.ixOf_eq {s : State} {a b : SpanSel} (h : SamePhase s a b) (k : Nat) : ixOf s a k = ixOf s b k :=
  Nat.ModEq.add_right k h

/-- COPY has done the first `k` symbols of its destination; legal words are legal still. -/
structure CopyDone (s : State) (a b : SpanSel) (k : Nat) (m : Memory 8) : Prop where
  written : SpanWritten s.params.enc (operand s b) (spanSym s a) k s.mem m
  legal : LegalKept s.params.enc s.mem m

theorem copyDone_zero (s : State) (a b : SpanSel) : CopyDone s a b 0 s.mem :=
  ⟨spanWritten_zero _ _ _ _, .refl _ _⟩

section
variable {s : State} {a b : SpanSel} {n : Nat}

/-- The symbols of the source are as they were, as the destination lies apart. -/
theorem CopyDone.source {k i : Nat} {m : Memory 8} (h : CopyDone s a b k m) (hap : Apart s a b n) (hk : k ≤ n)
    (hi : i < n) : symIn s.params.enc m ((operand s a).abs s.params.enc + i) = spanSym s a i := by
  refine h.written.outside _ ?_
  have ha : absOf s a = (operand s a).abs s.params.enc := rfl
  have hb : absOf s b = (operand s b).abs s.params.enc := rfl
  omega

section
variable (hsa : SpanFits s a n) (hsb : SpanFits s b n) (hap : Apart s a b n) (hla : LegalSpan s a n)
include hsa hsb hap hla

/-- A full word of the destination: the raw pattern of the source. -/
theorem copyWord_legal {k : Nat} {m : Memory 8} (hp : SamePhase s a b) (h : CopyDone s a b k m) (hix : ixOf s b k = 0)
    (hn : k + s.params.enc.size ≤ n) :
    ∃ m', copyWord (wordOf s a k) (wordOf s b k) (withMem s m) = .done () (withMem s m') ∧
      CopyDone s a b (k + s.params.enc.size) m' := by
  have hk : k < n := by have := size_pos s.params.enc; omega
  have hbase : wordOf s a k * s.params.enc.size = (operand s a).abs s.params.enc + k := by
    have habs := (operand s a).abs_add s.params.enc k
    have hzero : (operand s a).ix s.params.enc k = 0 := (hp.ixOf_eq k).trans hix
    rwa [hzero, Nat.add_zero] at habs
  have hread : memRead (wordOf s a k) (withMem s m) = .done (Memory.read m (wordOf s a k)) (withMem s m) :=
    memRead_done (wordOf_lt hsa hk)
  refine ⟨_, (Cmd.bind_done hread).trans (memWrite_done (s := withMem s m) (wordOf_lt hsb hk)),
    h.written.writeRaw hix fun i hi => ?_, h.legal.write (h.legal _ (hla k hk))⟩
  rw [hbase, Nat.add_assoc]
  exact h.source hap (by omega) (by omega)

variable (hlb : LegalSpan s b n)
include hlb

/-- An edge word of the destination: the symbols of the source in the part that belongs to the span. -/
theorem copyEdge_legal {k hi : Nat} {m : Memory 8} (hp : SamePhase s a b) (h : CopyDone s a b k m)
    (hlt : ixOf s b k < hi) (hh : hi ≤ s.params.enc.size) (hn : k + (hi - ixOf s b k) ≤ n) :
    ∃ m', copyEdge s.params.enc (operand s a) (operand s b) (wordOf s a k) (wordOf s b k) (ixOf s b k) hi
      (withMem s m) = .done () (withMem s m') ∧ CopyDone s a b (k + (hi - ixOf s b k)) m' := by
  have hk : k < n := by omega
  have hlen := slice_dec_length (Memory.read m (wordOf s a k)) hh (ixOf s b k)
  have hsym (i : Nat) (hi' : i < hi - ixOf s b k) :
      symAtIndex (slice (dec s.params.enc (Memory.read m (wordOf s a k))) (ixOf s b k) hi) i =
        spanSym s a (k + i) := by
    rw [← hp.ixOf_eq k] at hi' hn ⊢
    exact (symAtIndex_touch m hh hi').trans (h.source hap (by omega) (by omega))
  have hdeca := decodeAt_legal (s := withMem s m) (o := operand s a) (wordOf_lt hsa hk) (h.legal _ (hla k hk))
  have hdecb := decodeAt_legal (s := withMem s m) (o := operand s b) (wordOf_lt hsb hk) (h.legal _ (hlb k hk))
  refine ⟨_, (Cmd.bind_done hdeca).trans ((Cmd.bind_done hdecb).trans
      (memWrite_done (s := withMem s m) (wordOf_lt hsb hk))),
    h.written.writeTouch hlt hh hlen (inAlphabet_slice inAlphabet_dec _ _) hsym, h.legal.write (legal_enc ?_)⟩
  exact (splice_length (Nat.le_of_lt hlt) (by rwa [dec_length]) hlen).trans (dec_length _ _)

/-- One touched word of the destination. -/
theorem copyTouch_legal {k hi : Nat} {m : Memory 8} (hp : SamePhase s a b) (h : CopyDone s a b k m)
    (hlt : ixOf s b k < hi) (hh : hi ≤ s.params.enc.size) (hn : k + (hi - ixOf s b k) ≤ n) :
    ∃ m', copyTouch s.params.enc (operand s a) (operand s b) (spanTouch s b k hi) (withMem s m) =
      .done () (withMem s m') ∧ CopyDone s a b (k + (hi - ixOf s b k)) m' := by
  by_cases hfull : hi - ixOf s b k = s.params.enc.size
  · have hix : ixOf s b k = 0 := by omega
    rw [copyTouch, if_pos hfull]
    rw [hfull] at hn ⊢
    exact copyWord_legal hsa hsb hap hla hp h hix hn
  · rw [copyTouch, if_neg hfull]
    exact copyEdge_legal hsa hsb hap hla hlb hp h hlt hh hn

theorem copyFast_done (hp : SamePhase s a b) :
    ∃ m, copyFast s.params.enc n (operand s a) (operand s b) s = .done () (withMem s m) ∧ CopyDone s a b n m := by
  rw [copyFast_eq_forEach hp]
  exact Cmd.forEach_done (s := s) (CopyDone s a b) _ 0 s.mem (covers_touched _ (operand s b) n)
    (fun k hi m hlt hh _ hn h => copyTouch_legal hsa hsb hap hla hlb hp h hlt hh hn) (copyDone_zero s a b)

theorem copySlow_done :
    ∃ m, copySlow s.params.enc n (operand s a) (operand s b) s = .done () (withMem s m) ∧ CopyDone s a b n m := by
  have step (k : Nat) (m : Memory 8) (hk : k < n) (h : CopyDone s a b k m) :
      ∃ m', Cmd.bind (getSym s.params.enc (operand s a) k) (putSym s.params.enc (operand s b) k) (withMem s m) =
        .done () (withMem s m') ∧ CopyDone s a b (k + 1) m' := by
    have hget : getSym s.params.enc (operand s a) k (withMem s m) = .done (spanSym s a k) (withMem s m) := by
      rw [← h.source hap (Nat.le_of_lt hk) hk]
      exact getSym_legal (s := withMem s m) (wordOf_lt hsa hk) (h.legal _ (hla k hk))
    have hlmb := h.legal _ (hlb k hk)
    refine ⟨_, (Cmd.bind_done hget).trans (putSym_legal (s := withMem s m) _ (wordOf_lt hsb hk) hlmb),
      h.written.putIn (inAlphabet_symIn _ _ _), fun c hc => ?_⟩
    rw [wordOf, Operand.wa_eq] at hlmb
    exact (legalIn_putIn m _ c _ hlmb).mpr (h.legal c hc)
  obtain ⟨m, hrun, hm⟩ := Cmd.forUp_done (s := s) (CopyDone s a b) n 0 s.mem
    (fun k m _ hk => step k m (by omega)) (copyDone_zero s a b)
  exact ⟨m, hrun, Nat.zero_add n ▸ hm⟩

/-- On either path COPY between spans apart, of legal words, rewrites the destination with the symbols of the source. -/
theorem copyProc_done :
    ∃ m, copyProc s.params.enc n (operand s a) (operand s b) s = .done () (withMem s m) ∧ CopyDone s a b n m := by
  unfold copyProc
  split
  case isTrue hf => exact copyFast_done hsa hsb hap hla hlb (of_decide_eq_true hf)
  case isFalse => exact copySlow_done hsa hsb hap hla hlb

end

/-- COPY with its checks passed: the spans inside their arrays, and identical or apart (20_memory.md R77). -/
theorem exec_copy_checked (hn : s.n ≠ 0) (hsa : SpanFits s a (countN s)) (hsb : SpanFits s b (countN s))
    (hp : SameSymbols s a b ∨ Apart s a b (countN s)) :
    exec (.copy a b) s = finish (copyProc s.params.enc (countN s) (operand s a) (operand s b) s) := by
  have hbounds : boundsError (usesOf (.copy a b)) s = none := by
    refine boundsError_eq_none ?_ (absurd rfl)
    exact List.forall_mem_cons.mpr ⟨hsa, List.forall_mem_singleton.mpr hsb⟩
  have hpairs : overlapError (usesOf (.copy a b)) s = none := by
    refine overlapError_eq_none fun c hc d hd hcd => ?_
    rw [← Bool.not_eq_true, pairClash_iff (i := .copy a b) s rfl hcd hc hd, not_not]
    rcases PairListed.of_operands hcd hc hd with h | h <;> cases List.mem_singleton.mp h
    · exact hp.symm.imp_right fun h => .inl ⟨.inl (.head _), h⟩
    · exact hp.symm.imp Or.symm fun h => .inl ⟨.inr (.head _), h.symm⟩
  exact congrArg finish (framed_body _ _ (fun _ => hn) hbounds hpairs)

theorem exec_copy_done (hn : s.n ≠ 0) (hsa : SpanFits s a (countN s)) (hsb : SpanFits s b (countN s))
    (hap : Apart s a b (countN s)) (hla : LegalSpan s a (countN s)) (hlb : LegalSpan s b (countN s)) :
    ∃ m, exec (.copy a b) s = .next (withMem s m) ∧ CopyDone s a b (countN s) m := by
  obtain ⟨m, hrun, hm⟩ := copyProc_done hsa hsb hap hla hlb
  exact ⟨m, by rw [exec_copy_checked hn hsa hsb (.inr hap), hrun, finish_done], hm⟩

/-! ### TOSYM, then FROMSYM (40_word_codec.md R142) -/

/-- After TOSYM the cells are legal, and hold the symbols of its span. -/
theorem CellsWritten.cellSym {f : Nat → Sym} {c : Memory 2} (h : CellsWritten s.tboff.toNat f n s.tbuf c)
    (hf : ∀ i, inAlphabet s.params.enc (f i) = true) {i : Nat} (hi : i < n) :
    CellLegal (withTbuf s c) i ∧ cellSym (withTbuf s c) i = f i := by
  have hcell : uncode s.params.enc (cellCode (withTbuf s c) (s.tboff.toNat + i)) = some (f i) := by
    rw [cellCode, withTbuf_tbuf, h.inside i hi, uncode_symCode (hf i)]
  refine ⟨?_, congrArg (fun v => Option.getD v Sym.zero) hcell⟩
  rw [CellLegal, illegalCode_iff, withTbuf_tboff, withTbuf_params, hcell]
  exact Option.some_ne_none _

/-- TOSYM followed by FROMSYM does what COPY does, but needs no disjoint spans. -/
theorem exec_tosym_fromsym {t u : State} (hn : s.n ≠ 0) (hsa : SpanFits s a (countN s))
    (hsb : SpanFits s b (countN s)) (hc : CellsFit s (countN s)) (hla : LegalSpan s a (countN s))
    (hlb : LegalSpan s b (countN s)) (ht : exec (.tosym a) s = .next t) (hu : exec (.fromsym b) t = .next u) :
    CopyDone s a b (countN s) u.mem := by
  obtain ⟨c, hrun, hcells⟩ := exec_tosym_done hn hsa hc hla
  cases hrun.symm.trans ht
  have hsyms (i : Nat) (hi : i < countN s) := hcells.cellSym (fun _ => inAlphabet_symIn _ _ _) hi
  obtain ⟨m, hrun', hw, hl⟩ := exec_fromsym_done (s := withTbuf s c) hn hsb hc hlb fun i hi => (hsyms i hi).1
  cases hrun'.symm.trans hu
  rw [withTbuf_operand] at hw
  exact ⟨hw.congr fun i hi => (hsyms i hi).2, hl⟩

/-- A destination rewritten with the symbols of the source, its words legal, is one memory. -/
theorem CopyDone.unique {k : Nat} {m₁ m₂ : Memory 8} (h₁ : CopyDone s a b k m₁) (h₂ : CopyDone s a b k m₂)
    (hlb : LegalSpan s b k) (c : Nat) : Memory.read m₁ c = Memory.read m₂ c :=
  h₁.written.unique h₂.written hlb h₁.legal h₂.legal c

/-- A span copied onto itself is the memory as it was. -/
theorem copyDone_self (s : State) (a : SpanSel) (k : Nat) : CopyDone s a a k s.mem :=
  ⟨spanWritten_self _ _ _ _, .refl _ _⟩

end

end Sys2Proof.Machine

/-!
The statements about the word codec and symbol access (40_word_codec.md): the codec, the commands of one word or one
symbol, the traversals TOSYM and FROMSYM, and that one after the other they are COPY.
-/

namespace Sys2Proof.Machine

open Sys2Proof

/-- Settles O29, by the laws of the codec. -/
theorem codecRoundTrip : Obligations.CodecRoundTrip := by
  intro e
  refine ⟨fun w hw => ⟨enc_dec hw, dec_length e w, inAlphabet_dec⟩, fun a hl ha => ⟨legal_enc hl, dec_enc hl ha⟩,
    fun w i j v _ hi hv => ?_⟩
  rw [dec_enc (by simp) (inAlphabet_set inAlphabet_dec hv i), symAtIndex_set _ _ _ (by simpa using hi)]

/-- Settles O30: a BIN8 word is the list of its bits, and a legal TER5 word is the encoding of its trits. -/
theorem wordsHoldTheirPlaceValues : Obligations.WordsHoldTheirPlaceValues := by
  refine ⟨fun w i hi => ?_, fun w => ⟨by simp [legal], fun hw => ?_⟩⟩
  · simp [symAtIndex, dec, bitSym, List.getD_eq_getElem?_getD, hi]
  · have hlen : (dec .ter5 w).length = 5 := dec_length .ter5 w
    rw [← weigh_five hlen, ← toInt_enc_ter5 hlen, enc_dec hw]

/-- Settles O33: SIZE cells get the codes, or the check of the pattern stands before the first write. -/
theorem w2sWritesCells : Obligations.W2sWritesCells := by
  intro s hfit
  rw [exec_w2s_checked hfit]
  refine ⟨fun hl => ?_, fun hl => ?_⟩
  · have hread := read_putCells s.tbuf s.tboff.toNat (vs := dec s.params.enc s.wdata)
    rw [if_pos hl, writeCells_done _ _ s (by rwa [dec_length])]
    rw [dec_length] at hread
    refine ⟨_, rfl, rfl, fun k hk => ?_, fun c hc => ?_⟩
    · refine (hread _).trans ?_
      rw [if_pos (by omega), Nat.add_sub_cancel_left]
    · exact (hread c).trans (if_neg hc)
  · rw [if_neg (by simp [hl]), BitVec.ofNat_toNat]
    exact ⟨_, rfl, errorLatched_takeError _ s s rfl, onlyErrorRegs_takeError _ s⟩

/-- Settles O34: the cells read as symbols are a whole word, or the lowest illegal one ends it before `WDATA` is
written. -/
theorem s2wReadsCells : Obligations.S2wReadsCells := by
  intro s hfit
  rw [exec_s2w_checked hfit]
  refine ⟨fun hl => ?_, fun j hj hx hl => ?_⟩
  · obtain ⟨vs, hrun, hlen, halph, hvs⟩ := readCells_legal (s := s) s.mem (k := 0) (by rwa [Nat.zero_add])
      fun i hi => by rw [Nat.zero_add]; exact hl i hi
    simp only [Nat.add_zero, Nat.zero_add, withMem_self] at hrun hvs
    rw [Cmd.bind_done hrun]
    refine ⟨_, rfl, rfl, legal_enc hlen, fun k hk => (uncode_cellSym (hl k hk)).trans ?_⟩
    rw [withWdata_wdata, dec_enc hlen halph, hvs k hk]
  · simp only [CellLegal, illegalCode_iff, not_not] at hx hl
    rw [Cmd.bind_raised (readCells_raised _ _ j s hfit hj hl hx)]
    exact ⟨_, rfl, errorLatched_takeError _ s s rfl, onlyErrorRegs_takeError _ s⟩

/-- Settles O35, by what `GetSym` answers on a legal word. -/
theorem getReadsOneSymbol : Obligations.GetReadsOneSymbol := by
  intro s a hs hl
  rw [exec_get_checked hs, Cmd.bind_done (getSym_legal (wordOf_lt hs Nat.zero_lt_one) hl), BitVec.ofNat_toNat]
  rfl

/-- Settles O37: both commands decode the word before they do anything else. -/
theorem getPutIllegalWord : Obligations.GetPutIllegalWord := by
  rintro s a i (rfl | ⟨c, rfl, hc⟩) hs hl
  · rw [exec_get_checked hs, Cmd.bind_raised (getSym_illegal (wordOf_lt hs Nat.zero_lt_one) hl)]
    exact ⟨_, rfl, illegalWordLatched_takeError rfl, onlyErrorRegs_takeError _ s⟩
  · obtain ⟨v, hv⟩ := Option.ne_none_iff_exists'.mp (mt (illegalCode_iff s c).mpr hc)
    rw [exec_put_checked hv hs, putSym_illegal v (wordOf_lt hs Nat.zero_lt_one) hl]
    exact ⟨_, rfl, illegalWordLatched_takeError rfl, onlyErrorRegs_takeError _ s⟩

/-- Settles O36: PUT is one symbol of a span rewritten. -/
theorem putWritesOneSymbol : Obligations.PutWritesOneSymbol := by
  intro s a c v hv hs hl
  have hw : SpanWritten s.params.enc (operand s a) (fun _ => v) 1 s.mem _ :=
    (spanWritten_zero _ _ _ s.mem).putIn (inAlphabet_of_uncode hv)
  obtain ⟨hin, hother⟩ := hw.symbols (Nat.le_refl 1)
  rw [exec_put_checked hv hs, putSym_legal v (wordOf_lt hs Nat.zero_lt_one) hl]
  exact ⟨_, rfl, hin 0 Nat.zero_lt_one, hother, hw.otherWordsKept, rfl⟩

/-- Settles O38, by the traversal of a span of legal words. -/
theorem tosymMaterializesSpan : Obligations.TosymMaterializesSpan := by
  intro s a hn hs hc hl
  obtain ⟨c, hrun, hcells⟩ := exec_tosym_done hn hs hc hl
  exact ⟨_, hrun, rfl, hcells.inside, hcells.outside⟩

/-- Settles O39: the symbols of lower words are those before the start of the illegal word, where the
traversal stops. -/
theorem tosymStopsAtIllegalWord : Obligations.TosymStopsAtIllegalWord := by
  intro s a j hn hs hc hj hx hl
  obtain ⟨k, c, hrun, hcells, hkj, hbefore⟩ := exec_tosym_illegal hn hs hc hj hx hl
  simp only [hbefore]
  refine ⟨_, hrun, illegalWordLatched_takeError rfl, rfl, fun i _ hi => hcells.inside i hi, fun d hd => ?_⟩
  refine hcells.outside d fun ⟨hlo, hhi⟩ => ?_
  obtain ⟨i, rfl⟩ := Nat.exists_eq_add_of_le hlo
  exact hd i (by omega) (by omega) rfl

/-- Settles O40, by the traversal of a span of legal words over legal cells. -/
theorem fromsymWritesSpan : Obligations.FromsymWritesSpan := by
  intro s a hn hs hc hl hcells
  obtain ⟨m, hrun, hw, -⟩ := exec_fromsym_done hn hs hc hl hcells
  obtain ⟨hin, hother⟩ := hw.symbols (Nat.le_refl _)
  refine ⟨_, hrun, rfl, fun k hk => ?_, hother, hw.otherWordsKept⟩
  rw [hin k hk]
  exact uncode_cellSym (hcells k hk)

/-- Settles O41: the first word not wholly good is illegal, or legal with an illegal cell; its pass raises without
effect. -/
theorem fromsymStopsPartWay : Obligations.FromsymStopsPartWay := by
  intro s a j hn hs hc hj hgood hx
  have hcellsBefore (k : Nat) (hk : k < countN s) (hlt : wordOf s a k < wordOf s a j) := (hgood k hk hlt).2
  by_cases hw : LegalAt s (wordOf s a j)
  · obtain ⟨-, hcell, hcells⟩ := hx.resolve_right (not_not_intro hw)
    obtain ⟨m, hrun, hm⟩ := exec_fromsym_raised hn hs hc hj hgood
      fun k hi m hh hk hkj hjk h =>
        fromsymTouch_illegalCell hs hc h hh hk hkj hjk (wordOf_touch hh hkj hjk ▸ hw) hcell hcells
    exact ⟨_, hrun, onlyErrorRegsAndMem_takeError _ s m, fun _ => errorLatched_takeError _ s _ rfl,
      fun h => absurd hw h, hm.effect hj hcellsBefore⟩
  · obtain ⟨m, hrun, hm⟩ := exec_fromsym_raised hn hs hc hj hgood
      fun k hi m hh hk hkj hjk h => by
        have hword := wordOf_touch hh hkj hjk
        rw [fromsymTouch_illegalWord hs h (by omega) (hword ▸ hw), ← hword]
    exact ⟨_, hrun, onlyErrorRegsAndMem_takeError _ s m, fun h => absurd h hw,
      fun _ => illegalWordLatched_takeError rfl, hm.effect hj hcellsBefore⟩

/-- Settles O49: COPY and FROMSYM after TOSYM rewrite the destination with the same symbols, and a span rewritten with
its own symbols is the memory as it was. -/
theorem copyIsTosymThenFromsym : Obligations.CopyIsTosymThenFromsym := by
  refine ⟨fun s t u v a b hn hsa hsb hc hap hla hlb ht hu hv => ?_, fun s t u a hn hsa hc hla ht hu => ?_⟩
  · obtain ⟨m, hrun, hcopy⟩ := exec_copy_done hn hsa hsb hap hla hlb
    cases hrun.symm.trans hv
    exact (exec_tosym_fromsym hn hsa hsb hc hla hlb ht hu).unique hcopy hlb
  · exact (exec_tosym_fromsym hn hsa hsa hc hla hla ht hu).unique (copyDone_self s a _) hla

end Sys2Proof.Machine

/-!
SUPPORT. The touched words of a span group, one bundle of facts per touch: which are full words and which are edges,
loops over them, and how the touched words of two spans of a pair lie to each other.
-/

namespace Sys2Proof.Machine

open Sys2Proof

/-! ### One touched word -/

/-- `spanTouch s sp k hi` is a touched word of the first `n` symbols of a span, its symbols those from `k` on
(20_memory.md R83). -/
structure IsTouch (s : State) (sp : SpanSel) (n k hi : Nat) : Prop where
  start : AtWordStart s.params.enc (operand s sp) n k
  lt : ixOf s sp k < hi
  le : hi ≤ s.params.enc.size
  ends : hi = s.params.enc.size ∨ k + (hi - ixOf s sp k) = n
  fits : k + (hi - ixOf s sp k) ≤ n

/-- The place of symbol `k` of a span group as an absolute symbol address (20_memory.md R73). -/
theorem wordOf_mul_add_ixOf (s : State) (sp : SpanSel) (k : Nat) :
    wordOf s sp k * s.params.enc.size + ixOf s sp k = absOf s sp + k := (operand s sp).abs_add s.params.enc k

theorem ixOf_lt (s : State) (sp : SpanSel) (k : Nat) : ixOf s sp k < s.params.enc.size :=
  Nat.mod_lt _ (size_pos s.params.enc)

section
variable {s : State} {sp : SpanSel} {n k hi i j : Nat}

/-- The word of a symbol is a full word iff all of it lies among the symbols of the span. -/
theorem wordInside_iff (s : State) (sp : SpanSel) (n k : Nat) :
    WordInside s sp n k ↔ absOf s sp ≤ wordOf s sp k * s.params.enc.size ∧
      wordOf s sp k * s.params.enc.size + s.params.enc.size ≤ absOf s sp + n := by
  have habs := wordOf_mul_add_ixOf s sp k
  show ixOf s sp k ≤ k ∧ k - ixOf s sp k + s.params.enc.size ≤ n ↔ _
  omega

theorem IsTouch.first_lt (h : IsTouch s sp n k hi) : k < n := by
  have := h.lt
  have := h.fits
  omega

theorem IsTouch.word (h : IsTouch s sp n k hi) (hki : k ≤ i) (hi' : i < k + (hi - ixOf s sp k)) :
    wordOf s sp i = wordOf s sp k := wordOf_touch h.le hki hi'

theorem IsTouch.next (h : IsTouch s sp n k hi) :
    AtWordStart s.params.enc (operand s sp) n (k + (hi - ixOf s sp k)) := atWordStart_touch h.lt h.ends

theorem IsTouch.ixOf_eq_zero (h : IsTouch s sp n k hi) (hfull : hi - ixOf s sp k = s.params.enc.size) :
    ixOf s sp k = 0 := by
  have := h.lt
  have := h.le
  omega

/-- The touched word is a full word iff the touch is a whole word long. -/
theorem IsTouch.inside_iff (h : IsTouch s sp n k hi) : WordInside s sp n k ↔ hi - ixOf s sp k = s.params.enc.size := by
  obtain ⟨hstart, hlt, hle, hends, hfits⟩ := h
  have habs := wordOf_mul_add_ixOf s sp k
  have habs' := wordOf_mul_add_ixOf s sp (k - ixOf s sp k)
  have hix' := ixOf_lt s sp (k - ixOf s sp k)
  rw [wordInside_iff]
  constructor
  · rintro ⟨hlo, hhi⟩
    have hzero : ixOf s sp k = 0 := by
      by_contra hne
      have hbefore : wordOf s sp (k - ixOf s sp k) + 1 ≤ wordOf s sp k := hstart (by omega) _ (by omega)
      have := Nat.mul_le_mul_right s.params.enc.size hbefore
      rw [Nat.add_mul] at this
      omega
    omega
  · omega

/-- Two symbols of one word both stand in a full word, or both in an edge word. -/
theorem wordInside_congr (h : wordOf s sp i = wordOf s sp j) : WordInside s sp n i ↔ WordInside s sp n j := by
  rw [wordInside_iff, wordInside_iff, h]

end

/-! ### Loops over the touched words of a span -/

section
variable {s : State} {sp : SpanSel} {n j : Nat} {body : Touch → Cmd Unit} (P : Nat → Memory 8 → Prop)

/-- `Cmd.forEach_done` over `Touched(sp, n)`. -/
theorem Cmd.forEach_touched_done
    (hstep : ∀ k hi m, IsTouch s sp n k hi → P k m →
      ∃ m', body (spanTouch s sp k hi) (withMem s m) = .done () (withMem s m') ∧ P (k + (hi - ixOf s sp k)) m')
    (h0 : P 0 s.mem) :
    ∃ m, Cmd.forEach body (touched s.params.enc (operand s sp) n) s = .done () (withMem s m) ∧ P n m := by
  obtain ⟨m, hrun, -, hm⟩ := Cmd.forEach_done (s := s) (body := body)
    (fun k m => AtWordStart s.params.enc (operand s sp) n k ∧ P k m) _ 0 s.mem (covers_touched _ (operand s sp) n)
    (fun k hi m hlt hle hends hfits ⟨hstart, hk⟩ =>
      have ht : IsTouch s sp n k hi := ⟨hstart, hlt, hle, hends, hfits⟩
      let ⟨m', hpass, hm'⟩ := hstep k hi m ht hk
      ⟨m', hpass, ht.next, hm'⟩)
    ⟨atWordStart_zero _ _ _, h0⟩
  exact ⟨m, hrun, hm⟩

/-- `Cmd.forEach_raised` over `Touched(sp, n)`, where the pass at the word of symbol `j` raises without effect. -/
theorem Cmd.forEach_touched_raised {err : Err} (hj : j < n)
    (hstep : ∀ k hi m, IsTouch s sp n k hi → wordOf s sp k < wordOf s sp j → P k m →
      ∃ m', body (spanTouch s sp k hi) (withMem s m) = .done () (withMem s m') ∧ P (k + (hi - ixOf s sp k)) m')
    (hlast : ∀ k hi m, IsTouch s sp n k hi → wordOf s sp k = wordOf s sp j → P k m →
      body (spanTouch s sp k hi) (withMem s m) = .raised err (withMem s m))
    (h0 : P 0 s.mem) :
    ∃ m k, Cmd.forEach body (touched s.params.enc (operand s sp) n) s = .raised err (withMem s m) ∧ P k m ∧ k ≤ n ∧
      ∀ i, wordOf s sp i < wordOf s sp j ↔ i < k := by
  obtain ⟨m, hrun, k, hm, hk, hbefore⟩ := Cmd.forEach_raised (s := s) (body := body) (err := err)
    (fun k m => AtWordStart s.params.enc (operand s sp) n k ∧ P k m) j
    (fun m => ∃ k, P k m ∧ k ≤ n ∧ ∀ i, wordOf s sp i < wordOf s sp j ↔ i < k) _ 0 s.mem
    (covers_touched _ (operand s sp) n) (Nat.zero_le j) hj
    (fun k hi m hlt hle hends hkj ⟨hstart, hk⟩ =>
      have ht : IsTouch s sp n k hi := ⟨hstart, hlt, hle, hends, Nat.le_trans hkj (Nat.le_of_lt hj)⟩
      let ⟨m', hpass, hm'⟩ := hstep k hi m ht (wordOf_lt_of_touch (i := 0) hlt hends hkj hj (Nat.sub_pos_of_lt hlt)) hk
      ⟨m', hpass, ht.next, hm'⟩)
    (fun k hi m hlt hle hends hfits hkj hjk ⟨hstart, hk⟩ =>
      have ht : IsTouch s sp n k hi := ⟨hstart, hlt, hle, hends, hfits⟩
      ⟨m, hlast k hi m ht (ht.word hkj hjk).symm hk, k, hk, Nat.le_of_lt ht.first_lt,
        fun i => hstart.lt_iff hle hkj hjk hj⟩)
    ⟨atWordStart_zero _ _ _, h0⟩
  exact ⟨m, k, hrun, hm, hk, hbefore⟩

end

/-! ### The touched words of two spans -/

section
variable {s : State} {a b : SpanSel} {n i k hi : Nat}

/-- The word of a symbol, counted from the word of symbol 0. -/
theorem wordOf_eq_add (s : State) (sp : SpanSel) (k : Nat) :
    wordOf s sp k = wordOf s sp 0 + (ixOf s sp 0 + k) / s.params.enc.size := by
  show _ + ((spanRegs s sp).off.toNat + k) / _ = _ + ((spanRegs s sp).off.toNat + 0) / _ +
    (((spanRegs s sp).off.toNat + 0) % _ + k) / _
  conv_lhs => rw [← Nat.div_add_mod (spanRegs s sp).off.toNat s.params.enc.size, Nat.add_assoc,
    Nat.mul_add_div (size_pos _)]
  rw [Nat.add_zero, Nat.add_assoc]

/-- With the same phase the words of the two spans follow each other alike. -/
theorem SamePhase.wordOf_lt_iff (h : SamePhase s a b) (i k : Nat) :
    wordOf s a i < wordOf s a k ↔ wordOf s b i < wordOf s b k := by
  rw [wordOf_eq_add s a i, wordOf_eq_add s a k, wordOf_eq_add s b i, wordOf_eq_add s b k, h.ixOf_eq 0]
  omega

theorem SamePhase.wordOf_eq_iff (h : SamePhase s a b) (i k : Nat) :
    wordOf s a i = wordOf s a k ↔ wordOf s b i = wordOf s b k := by
  rw [wordOf_eq_add s a i, wordOf_eq_add s a k, wordOf_eq_add s b i, wordOf_eq_add s b k, h.ixOf_eq 0]
  omega

theorem SamePhase.wordInside_iff (h : SamePhase s a b) (n k : Nat) : WordInside s a n k ↔ WordInside s b n k := by
  have hix : (operand s a).ix s.params.enc k = (operand s b).ix s.params.enc k := h.ixOf_eq k
  rw [WordInside, WordInside, hix]

/-- With the same phase a touched word of one span stands beside a touched word of the other. -/
theorem IsTouch.other (h : IsTouch s b n k hi) (hp : SamePhase s a b) : IsTouch s a n k hi :=
  have hix := hp.ixOf_eq k
  ⟨fun hk i hi => (hp.wordOf_lt_iff i k).mpr (h.start hk i hi), hix ▸ h.lt, h.le, hix ▸ h.ends, hix ▸ h.fits⟩

theorem SameSymbols.wordOf_eq (h : SameSymbols s a b) (k : Nat) : wordOf s a k = wordOf s b k := by
  have habs : (operand s a).abs s.params.enc = (operand s b).abs s.params.enc := h
  rw [wordOf, wordOf, Operand.wa_eq, Operand.wa_eq, habs]

theorem SameSymbols.ixOf_eq (h : SameSymbols s a b) (k : Nat) : ixOf s a k = ixOf s b k := by
  have habs : (operand s a).abs s.params.enc = (operand s b).abs s.params.enc := h
  rw [ixOf, ixOf, Operand.ix_eq, Operand.ix_eq, habs]

theorem SameSymbols.samePhase (h : SameSymbols s a b) : SamePhase s a b := h.ixOf_eq 0

/-- A full word of one span holds no symbol of a span that lies apart. -/
theorem Apart.wordOf_ne (h : Apart s a b n) (hk : WordInside s a n k) (hi : i < n) : wordOf s a k ≠ wordOf s b i := by
  intro heq
  have hb := wordOf_mul_add_ixOf s b i
  have hix := ixOf_lt s b i
  rw [wordInside_iff, heq] at hk
  omega

theorem Apart.symm (h : Apart s a b n) : Apart s b a n := Or.symm h

end

end Sys2Proof.Machine

/-!
SUPPORT. A span rewritten word by word where full words are overwritten unread, so that they may hold illegal patterns
before and after: `Rewritten`, which the fast path of COPY and FILLZ establish touch by touch, and what the statements
say of it, at the end of the span and at an illegal edge word. Then the error of an illegal word.
-/

namespace Sys2Proof.Machine

open Sys2Proof

/-! ### The first symbols of a span rewritten, its full words with given patterns -/

/-- From `s` to the memory `m` the first `k` of `n` symbols of a span have become those of `f`, the full words among
them the patterns of `raw`; every other symbol, every other word, and the legality of all but these full words is as
before. -/
structure Rewritten (s : State) (sp : SpanSel) (n : Nat) (f : Nat → Sym) (raw : Nat → MWord) (k : Nat)
    (m : Memory 8) : Prop where
  written : SpanWritten s.params.enc (operand s sp) f k s.mem m
  full : ∀ i, i < k → WordInside s sp n i → Memory.read m (wordOf s sp i) = raw i
  legality : ∀ c, (∀ i, i < k → WordInside s sp n i → c ≠ wordOf s sp i) →
    (legalIn s.params.enc m c ↔ LegalAt s c)

theorem rewritten_zero (s : State) (sp : SpanSel) (n : Nat) (f : Nat → Sym) (raw : Nat → MWord) :
    Rewritten s sp n f raw 0 s.mem :=
  ⟨spanWritten_zero _ _ _ _, fun _ h => absurd h (Nat.not_lt_zero _), fun _ _ => Iff.rfl⟩

section
variable {s : State} {sp : SpanSel} {n k hi : Nat} {f : Nat → Sym} {raw : Nat → MWord} {m : Memory 8}

/-- One more touched word: a full word with its pattern, or an edge word, legal before and after. -/
theorem Rewritten.write {w : MWord} (h : Rewritten s sp n f raw k m) (ht : IsTouch s sp n k hi)
    (hw : SpanWritten s.params.enc (operand s sp) f (k + (hi - ixOf s sp k)) s.mem
      (Memory.write m (wordOf s sp k) w))
    (hfull : WordInside s sp n k → ∀ i, wordOf s sp i = wordOf s sp k → raw i = w)
    (hedge : ¬WordInside s sp n k → LegalAt s (wordOf s sp k) ∧ legal s.params.enc w = true) :
    Rewritten s sp n f raw (k + (hi - ixOf s sp k)) (Memory.write m (wordOf s sp k) w) := by
  refine ⟨hw, fun i hi' hin => ?_, fun c hc => ?_⟩
  · by_cases hik : i < k
    · have hword : wordOf s sp i < wordOf s sp k := ht.start ht.first_lt i hik
      rw [Memory.read_write_ne _ (Nat.ne_of_lt hword), h.full i hik hin]
    · have hword := ht.word (Nat.le_of_not_lt hik) hi'
      rw [hword, Memory.read_write_same, hfull ((wordInside_congr hword).mp hin) i hword]
  · by_cases hck : c = wordOf s sp k
    · obtain ⟨hlegal, hlegal'⟩ := hedge fun hin =>
        hc k (Nat.lt_add_of_pos_right (Nat.sub_pos_of_lt ht.lt)) hin hck
      subst hck
      rw [legalIn, Memory.read_write_same]
      exact iff_of_true hlegal' hlegal
    · rw [legalIn, Memory.read_write_ne _ hck]
      exact h.legality c fun i hi' => hc i (Nat.lt_add_right _ hi')

/-- An edge word of the span is legal iff it was, as it is no full word. -/
theorem Rewritten.legal_edge (h : Rewritten s sp n f raw k m) {j : Nat} (hj : ¬WordInside s sp n j) :
    legalIn s.params.enc m (wordOf s sp j) ↔ LegalAt s (wordOf s sp j) :=
  h.legality _ fun _ _ hin hword => hj ((wordInside_congr hword).mpr hin)

/-- What the statements say of a span rewritten to its end. -/
theorem Rewritten.effect (h : Rewritten s sp n f raw n m) :
    (∀ i, i < n → spanSym (withMem s m) sp i = f i) ∧
      (∀ i, i < n → WordInside s sp n i → memByte (withMem s m) (wordOf s sp i) = raw i) ∧
      OtherSymbolsKept s (withMem s m) sp n ∧ OtherWordsKept s (withMem s m) sp n :=
  have ⟨hin, hother⟩ := h.written.symbols (Nat.le_refl n)
  ⟨hin, h.full, hother, h.written.otherWordsKept⟩

/-- What they say of one rewritten up to the word of symbol `j` (60_exceptions.md R248). -/
theorem Rewritten.effect_before (h : Rewritten s sp n f raw k m) (hk : k ≤ n) {j : Nat}
    (hbefore : ∀ i, wordOf s sp i < wordOf s sp j ↔ i < k) :
    (∀ i, i < n → wordOf s sp i < wordOf s sp j → spanSym (withMem s m) sp i = f i ∧
      (WordInside s sp n i → memByte (withMem s m) (wordOf s sp i) = raw i)) ∧
      OtherSymbolsKept s (withMem s m) sp n ∧ LaterWordsKept s (withMem s m) sp sp n j := by
  obtain ⟨hin, hother⟩ := h.written.symbols hk
  refine ⟨fun i _ hlt => ?_, hother, fun c hc => h.written.words c fun i hi => ?_⟩
  · exact ⟨hin i ((hbefore i).mp hlt), h.full i ((hbefore i).mp hlt)⟩
  · exact hc i (Nat.lt_of_lt_of_le hi hk) ((hbefore i).mpr hi)

/-- With legal patterns in the full words, legal words are legal still. -/
theorem Rewritten.legalKept (h : Rewritten s sp n f raw k m) (hraw : ∀ i, i < k → legal s.params.enc (raw i) = true) :
    LegalKept s.params.enc s.mem m := by
  intro c hc
  by_cases hfull : ∃ i, i < k ∧ WordInside s sp n i ∧ c = wordOf s sp i
  · obtain ⟨i, hi, hin, rfl⟩ := hfull
    rw [legalIn, h.full i hi hin]
    exact hraw i hi
  · exact (h.legality c fun i hi hin hword => hfull ⟨i, hi, hin, hword⟩).mpr hc

end

/-! ### The error of an illegal word (60_exceptions.md R245) -/

/-- The error of the word that holds symbol `k` of a span. -/
def illegalWordErr (s : State) (sp : SpanSel) (k : Nat) : Err :=
  { kind := .illegalWord, info := spanCode sp, addr := BitVec.ofNat 32 (wordOf s sp k) }

/-- The error of the words that hold symbol `k` of two spans, the first read before the second, one of them illegal. -/
def firstIllegalErr (s : State) (a b : SpanSel) (k : Nat) : Err :=
  if LegalAt s (wordOf s a k) then illegalWordErr s b k else illegalWordErr s a k

theorem firstIllegalLatched_takeError {s t : State} {a b : SpanSel} {k : Nat} (h : t.status = s.status) :
    FirstIllegalLatched s (takeError (firstIllegalErr s a b k) t) a b k := by
  refine ⟨fun hx => ?_, fun hl => ?_⟩
  · rw [firstIllegalErr, if_neg hx]
    exact illegalWordLatched_takeError h
  · rw [firstIllegalErr, if_pos hl]
    exact illegalWordLatched_takeError h

theorem firstIllegalErr_congr {s : State} {a b : SpanSel} {i j : Nat} (ha : wordOf s a i = wordOf s a j)
    (hb : wordOf s b i = wordOf s b j) : firstIllegalErr s a b i = firstIllegalErr s a b j := by
  rw [firstIllegalErr, firstIllegalErr, illegalWordErr, illegalWordErr, illegalWordErr, illegalWordErr, ha, hb]

/-- Two accesses, to the words of symbol `k` of two spans: the one to the first illegal word raises. -/
theorem bind_firstIllegal {α β : Type} {s t : State} {a b : SpanSel} {k : Nat} {first : Cmd α} {rest : α → Cmd β}
    (ha : ¬LegalAt s (wordOf s a k) → first t = .raised (illegalWordErr s a k) t)
    (hb : LegalAt s (wordOf s a k) → ∃ x, first t = .done x t ∧ rest x t = .raised (illegalWordErr s b k) t) :
    Cmd.bind first rest t = .raised (firstIllegalErr s a b k) t := by
  by_cases hl : LegalAt s (wordOf s a k)
  · obtain ⟨x, hx, hrest⟩ := hb hl
    rw [Cmd.bind_done hx, hrest, firstIllegalErr, if_pos hl]
  · rw [Cmd.bind_raised (ha hl), firstIllegalErr, if_neg hl]

/-- Both words of a pair decoded, where one is illegal: nothing else is done. -/
theorem bind_decodeAt_firstIllegal {β : Type} {s : State} {m : Memory 8} {a b : SpanSel} {n k : Nat}
    {rest : List Sym → List Sym → Cmd β} (hsa : SpanFits s a n) (hsb : SpanFits s b n) (hk : k < n)
    (ha : legalIn s.params.enc m (wordOf s a k) ↔ LegalAt s (wordOf s a k))
    (hb : legalIn s.params.enc m (wordOf s b k) ↔ LegalAt s (wordOf s b k)) (hx : ¬BothLegalAt s a b k) :
    Cmd.bind (decodeAt s.params.enc (operand s a) (wordOf s a k))
      (fun u => Cmd.bind (decodeAt s.params.enc (operand s b) (wordOf s b k)) (rest u)) (withMem s m) =
      .raised (firstIllegalErr s a b k) (withMem s m) :=
  bind_firstIllegal (fun hxa => decodeAt_illegal (s := withMem s m) (wordOf_lt hsa hk) (mt ha.mp hxa)) fun hla =>
    ⟨_, decodeAt_legal (s := withMem s m) (wordOf_lt hsa hk) (ha.mpr hla),
      Cmd.bind_raised (decodeAt_illegal (s := withMem s m) (wordOf_lt hsb hk) (mt hb.mp fun hlb => hx ⟨hla, hlb⟩))⟩

/-- Both words of a pair decoded, where both are legal. -/
theorem bind_decodeAt_legal {β : Type} {s : State} {m : Memory 8} {a b : SpanSel} {n k : Nat}
    (rest : List Sym → List Sym → Cmd β) (hsa : SpanFits s a n) (hsb : SpanFits s b n) (hk : k < n)
    (ha : legalIn s.params.enc m (wordOf s a k)) (hb : legalIn s.params.enc m (wordOf s b k)) :
    Cmd.bind (decodeAt s.params.enc (operand s a) (wordOf s a k))
      (fun u => Cmd.bind (decodeAt s.params.enc (operand s b) (wordOf s b k)) (rest u)) (withMem s m) =
      rest (dec s.params.enc (Memory.read m (wordOf s a k))) (dec s.params.enc (Memory.read m (wordOf s b k)))
        (withMem s m) :=
  (Cmd.bind_done (decodeAt_legal (s := withMem s m) (wordOf_lt hsa hk) ha)).trans
    (Cmd.bind_done (decodeAt_legal (s := withMem s m) (wordOf_lt hsb hk) hb))

/-- Symbol `k` of the first span read, then the second span accessed, where one word is illegal. -/
theorem bind_getSym_firstIllegal {β : Type} {s : State} {m : Memory 8} {a b : SpanSel} {n k : Nat}
    {rest : Sym → Cmd β} (hsa : SpanFits s a n) (hk : k < n)
    (ha : legalIn s.params.enc m (wordOf s a k) ↔ LegalAt s (wordOf s a k))
    (hrest : ∀ v, LegalAt s (wordOf s a k) → rest v (withMem s m) = .raised (illegalWordErr s b k) (withMem s m)) :
    Cmd.bind (getSym s.params.enc (operand s a) k) rest (withMem s m) =
      .raised (firstIllegalErr s a b k) (withMem s m) :=
  bind_firstIllegal (fun hxa => getSym_illegal (s := withMem s m) (wordOf_lt hsa hk) (mt ha.mp hxa)) fun hla =>
    ⟨_, getSym_legal (s := withMem s m) (wordOf_lt hsa hk) (ha.mpr hla), hrest _ hla⟩

end Sys2Proof.Machine

/-!
SUPPORT. FILLZ: each touched word of the span gets zeroes in the part that belongs to the span; for a full word that is
the zero word, which FILLZ writes without reading what was there.
-/

namespace Sys2Proof.Machine

open Sys2Proof

/-- FILLZ has done the first `k` of `n` symbols of its span. -/
abbrev Filled (s : State) (a : SpanSel) (n k : Nat) (m : Memory 8) : Prop :=
  Rewritten s a n (fun _ => .zero) (fun _ => zeroWord) k m

/-- A word with its part in the span zeroed, as `FillzProc` encodes it (41_bulk_span_ops.md R163). -/
def zeroedWord (e : Enc) (w : MWord) (lo hi : Nat) : MWord :=
  enc e (splice (dec e w) lo hi (List.replicate (hi - lo) .zero))

/-- A whole word zeroed is the zero word. -/
theorem zeroedWord_full {e : Enc} {lo hi : Nat} (w : MWord) (hh : hi ≤ e.size) (hfull : hi - lo = e.size) :
    zeroedWord e w lo hi = zeroWord := by
  have := size_pos e
  obtain rfl : lo = 0 := by omega
  obtain rfl : hi = e.size := by omega
  rw [zeroedWord, Nat.sub_zero, ← dec_zeroWord, splice, List.take_zero, List.nil_append,
    List.drop_of_length_le (Nat.le_of_eq (dec_length e w)), List.append_nil, enc_dec (legal_zeroWord e)]

theorem legal_zeroedWord {e : Enc} {lo hi : Nat} (w : MWord) (hl : lo ≤ hi) (hh : hi ≤ e.size) :
    legal e (zeroedWord e w lo hi) = true :=
  legal_enc ((splice_length hl (by rwa [dec_length]) List.length_replicate).trans (dec_length e w))

theorem fillWord_full {e : Enc} {o : Operand} {t : Touch} {s : State} (h : t.addr < s.params.memWords)
    (hfull : t.hi - t.lo = e.size) :
    fillWord e o t s = .done () (withMem s (Memory.write s.mem t.addr zeroWord)) := by
  rw [fillWord, if_pos hfull, memWrite_done h]

theorem fillWord_edge {e : Enc} {o : Operand} {t : Touch} {s : State} (h : t.addr < s.params.memWords)
    (hedge : t.hi - t.lo ≠ e.size) (hl : legalIn e s.mem t.addr) :
    fillWord e o t s = .done () (withMem s
      (Memory.write s.mem t.addr (zeroedWord e (Memory.read s.mem t.addr) t.lo t.hi))) := by
  rw [fillWord, if_neg hedge, Cmd.bind_done (decodeAt_legal h hl), memWrite_done h, zeroedWord]

theorem fillWord_illegal {e : Enc} {o : Operand} {t : Touch} {s : State} (h : t.addr < s.params.memWords)
    (hedge : t.hi - t.lo ≠ e.size) (hx : ¬legalIn e s.mem t.addr) :
    fillWord e o t s =
      .raised { kind := .illegalWord, info := spanCode o.sel, addr := BitVec.ofNat 32 t.addr } s := by
  rw [fillWord, if_neg hedge, Cmd.bind_raised (decodeAt_illegal h hx)]

section
variable {s : State} {a : SpanSel} {n k hi : Nat} {m : Memory 8}

theorem symAtIndex_replicate {c i : Nat} (v : Sym) (h : i < c) : symAtIndex (List.replicate c v) i = v := by
  rw [symAtIndex, List.getD_eq_getElem?_getD, List.getElem?_replicate, if_pos h, Option.getD_some]

/-- One touched word, full or legal. -/
theorem Filled.touch (hsa : SpanFits s a n) (ht : IsTouch s a n k hi) (h : Filled s a n k m)
    (hl : WordInside s a n k ∨ LegalAt s (wordOf s a k)) :
    ∃ m', fillWord s.params.enc (operand s a) (spanTouch s a k hi) (withMem s m) = .done () (withMem s m') ∧
      Filled s a n (k + (hi - ixOf s a k)) m' := by
  have hw : SpanWritten s.params.enc (operand s a) (fun _ => .zero) (k + (hi - ixOf s a k)) s.mem
      (Memory.write m (wordOf s a k) (zeroedWord s.params.enc (Memory.read m (wordOf s a k)) (ixOf s a k) hi)) :=
    h.written.writeTouch ht.lt ht.le List.length_replicate
      (fun x hx => List.eq_of_mem_replicate hx ▸ inAlphabet_zero _) fun i hi' => symAtIndex_replicate _ hi'
  have hlt : wordOf s a k < s.params.memWords := wordOf_lt hsa ht.first_lt
  by_cases hfull : hi - ixOf s a k = s.params.enc.size
  · rw [zeroedWord_full _ ht.le hfull] at hw
    exact ⟨_, fillWord_full (s := withMem s m) hlt hfull,
      h.write ht hw (fun _ _ _ => rfl) (absurd (ht.inside_iff.mpr hfull))⟩
  · have hout : ¬WordInside s a n k := mt ht.inside_iff.mp hfull
    have hlegal := hl.resolve_left hout
    exact ⟨_, fillWord_edge (s := withMem s m) hlt hfull ((h.legal_edge hout).mpr hlegal),
      h.write ht hw (fun hin => absurd hin hout) fun _ =>
        ⟨hlegal, legal_zeroedWord _ (Nat.le_of_lt ht.lt) ht.le⟩⟩

/-- FILLZ with its checks passed. -/
theorem exec_fillz_checked (hn : s.n ≠ 0) (hs : SpanFits s a (countN s)) :
    exec (.fillz a) s = finish (Cmd.forEach (fillWord s.params.enc (operand s a))
      (touched s.params.enc (operand s a) (countN s)) s) :=
  congrArg finish
    (framed_single (i := .fillz a) _ _ (Nat.le_refl 1) (fun _ => hn) (List.forall_mem_singleton.mpr hs) (absurd rfl))

theorem exec_fillz_done (hn : s.n ≠ 0) (hs : SpanFits s a (countN s)) (hl : LegalEdges s a (countN s)) :
    ∃ m, exec (.fillz a) s = .next (withMem s m) ∧ Filled s a (countN s) (countN s) m := by
  obtain ⟨m, hrun, hm⟩ := Cmd.forEach_touched_done (s := s) (Filled s a (countN s))
    (fun k hi m ht h => h.touch hs ht (hl k ht.first_lt)) (rewritten_zero _ _ _ _ _)
  exact ⟨m, by rw [exec_fillz_checked hn hs, hrun, finish_done], hm⟩

/-- At an illegal edge word FILLZ raises, with the words before it zeroed. -/
theorem exec_fillz_illegal {j : Nat} (hn : s.n ≠ 0) (hs : SpanFits s a (countN s)) (hj : j < countN s)
    (hout : ¬WordInside s a (countN s) j) (hx : ¬LegalAt s (wordOf s a j))
    (hl : ∀ k, k < countN s → wordOf s a k < wordOf s a j → WordInside s a (countN s) k ∨ LegalAt s (wordOf s a k)) :
    ∃ m k, exec (.fillz a) s = .next (takeError (illegalWordErr s a j) (withMem s m)) ∧
      Filled s a (countN s) k m ∧ k ≤ countN s ∧ ∀ i, wordOf s a i < wordOf s a j ↔ i < k := by
  obtain ⟨m, k, hrun, hm⟩ := Cmd.forEach_touched_raised (s := s) (Filled s a (countN s))
    (err := illegalWordErr s a j) hj (fun k hi m ht hlt h => h.touch hs ht (hl k ht.first_lt hlt))
    (fun k hi m ht hword h => by
      rw [← wordInside_congr hword] at hout
      rw [← hword] at hx
      rw [illegalWordErr, ← hword]
      exact fillWord_illegal (s := withMem s m) (wordOf_lt hs ht.first_lt) (mt ht.inside_iff.mpr hout)
        (mt (h.legal_edge hout).mp hx))
    (rewritten_zero _ _ _ _ _)
  exact ⟨m, k, by rw [exec_fillz_checked hn hs, hrun, finish_raised], hm⟩

end

end Sys2Proof.Machine

/-!
SUPPORT. COPY between spans that are the same or apart. On the fast path the full words of the destination get the raw
patterns of the source, legal or not; either path stops at an illegal word that it decodes.
-/

namespace Sys2Proof.Machine

open Sys2Proof

/-! ### The fast path (41_bulk_span_ops.md R161) -/

/-- The fast path of COPY has done the first `k` of `n` symbols of its destination. -/
abbrev FastCopied (s : State) (a b : SpanSel) (n k : Nat) (m : Memory 8) : Prop :=
  Rewritten s b n (spanSym s a) (fun i => memByte s (wordOf s a i)) k m

section
variable {s : State} {a b : SpanSel} {n k hi : Nat} {m : Memory 8}

/-- The symbols of the source are as they were: the destination lies apart, or they were rewritten by themselves. -/
theorem SpanWritten.source (h : SpanWritten s.params.enc (operand s b) (spanSym s a) k s.mem m)
    (hap : SameSymbols s a b ∨ Apart s a b n) (hk : k ≤ n) {i : Nat} (hi : i < n) :
    symIn s.params.enc m ((operand s a).abs s.params.enc + i) = spanSym s a i := by
  have ha : absOf s a = (operand s a).abs s.params.enc := rfl
  have hb : absOf s b = (operand s b).abs s.params.enc := rfl
  by_cases hin : SameSymbols s a b ∧ i < k
  · rw [← ha, hin.1, hb, h.inside i hin.2]
  · exact h.outside _ (by omega)

/-- A full word of the source is as it was when its turn comes. -/
theorem FastCopied.source_full (h : FastCopied s a b n k m) (hap : SameSymbols s a b ∨ Apart s a b n)
    (ht : IsTouch s b n k hi) (hin : WordInside s a n k) :
    Memory.read m (wordOf s a k) = memByte s (wordOf s a k) := by
  have hk := ht.first_lt
  refine h.written.words _ fun i hi' => ?_
  rcases hap with hsame | hapart
  · have hlt : wordOf s b i < wordOf s b k := ht.start hk i hi'
    rw [hsame.wordOf_eq k]
    exact Nat.ne_of_gt hlt
  · exact hapart.wordOf_ne hin (Nat.lt_trans hi' hk)

/-- An edge word of the source is legal iff it was: no full word of the destination is that word. -/
theorem FastCopied.source_edge (h : FastCopied s a b n k m) (hap : SameSymbols s a b ∨ Apart s a b n)
    {j : Nat} (hj : j < n) (hout : ¬WordInside s a n j) :
    legalIn s.params.enc m (wordOf s a j) ↔ LegalAt s (wordOf s a j) := by
  refine h.legality _ fun i hi hin => ?_
  rcases hap with hsame | hapart
  · rw [hsame.samePhase.wordInside_iff] at hout
    rw [hsame.wordOf_eq j]
    exact fun hword => hout ((wordInside_congr hword).mpr hin)
  · exact (hapart.symm.wordOf_ne hin hj).symm

section
variable (hsa : SpanFits s a n) (hsb : SpanFits s b n) (hap : SameSymbols s a b ∨ Apart s a b n)
  (hp : SamePhase s a b)
include hsa hsb hap hp

/-- A full word of the destination gets the raw pattern of the source. -/
theorem FastCopied.copyWord (ht : IsTouch s b n k hi) (h : FastCopied s a b n k m)
    (hfull : hi - ixOf s b k = s.params.enc.size) :
    ∃ m', copyWord (wordOf s a k) (wordOf s b k) (withMem s m) = .done () (withMem s m') ∧
      FastCopied s a b n (k + (hi - ixOf s b k)) m' := by
  have hin := ht.inside_iff.mpr hfull
  have hina := (hp.wordInside_iff n k).mpr hin
  have hk := ht.first_lt
  have hfits := ht.fits
  have hix := ht.ixOf_eq_zero hfull
  have hbase := wordOf_mul_add_ixOf s a k
  rw [hp.ixOf_eq k, hix, Nat.add_zero] at hbase
  have hread : memRead (wordOf s a k) (withMem s m) = .done (Memory.read m (wordOf s a k)) (withMem s m) :=
    memRead_done (wordOf_lt hsa hk)
  refine ⟨_, (Cmd.bind_done hread).trans (memWrite_done (s := withMem s m) (wordOf_lt hsb hk)), h.write ht ?_
    (fun _ i hword => ?_) (absurd hin)⟩
  · rw [hfull] at hfits ⊢
    refine h.written.writeRaw hix fun i hi' => ?_
    rw [hbase, Nat.add_assoc]
    exact h.written.source hap (Nat.le_of_lt hk) (by omega)
  · rw [h.source_full hap ht hina, (hp.wordOf_eq_iff i k).mpr hword]

/-- An edge word of the destination, both words legal. -/
theorem FastCopied.copyEdge (ht : IsTouch s b n k hi) (h : FastCopied s a b n k m) (hout : ¬WordInside s a n k)
    (hl : BothLegalAt s a b k) :
    ∃ m', copyEdge s.params.enc (operand s a) (operand s b) (wordOf s a k) (wordOf s b k) (ixOf s b k) hi
      (withMem s m) = .done () (withMem s m') ∧ FastCopied s a b n (k + (hi - ixOf s b k)) m' := by
  obtain ⟨hla, hlb⟩ := hl
  have houtb := mt (hp.wordInside_iff n k).mpr hout
  have hk := ht.first_lt
  have hta := ht.other hp
  have hlen := slice_dec_length (Memory.read m (wordOf s a k)) ht.le (ixOf s b k)
  have hsym (i : Nat) (hi' : i < hi - ixOf s b k) :
      symAtIndex (slice (dec s.params.enc (Memory.read m (wordOf s a k))) (ixOf s b k) hi) i =
        spanSym s a (k + i) := by
    have hfits := hta.fits
    rw [← hp.ixOf_eq k] at hi' ⊢
    exact (symAtIndex_touch m ht.le hi').trans (h.written.source hap (Nat.le_of_lt hk) (by omega))
  refine ⟨_, (bind_decodeAt_legal _ hsa hsb hk ((h.source_edge hap hk hout).mpr hla)
      ((h.legal_edge houtb).mpr hlb)).trans (memWrite_done (s := withMem s m) (wordOf_lt hsb hk)),
    h.write ht (h.written.writeTouch ht.lt ht.le hlen (inAlphabet_slice inAlphabet_dec _ _) hsym)
      (fun hin => absurd hin houtb) fun _ => ⟨hlb, legal_enc ?_⟩⟩
  exact (splice_length (Nat.le_of_lt ht.lt) (by rw [dec_length]; exact ht.le) hlen).trans (dec_length _ _)

/-- One touched word of the destination, full or legal in both spans. -/
theorem FastCopied.touch (ht : IsTouch s b n k hi) (h : FastCopied s a b n k m)
    (hl : WordInside s a n k ∨ BothLegalAt s a b k) :
    ∃ m', copyTouch s.params.enc (operand s a) (operand s b) (spanTouch s b k hi) (withMem s m) =
      .done () (withMem s m') ∧ FastCopied s a b n (k + (hi - ixOf s b k)) m' := by
  by_cases hfull : hi - ixOf s b k = s.params.enc.size
  · rw [copyTouch, if_pos hfull]
    exact h.copyWord hsa hsb hap hp ht hfull
  · have hout := mt ((hp.wordInside_iff n k).trans ht.inside_iff).mp hfull
    rw [copyTouch, if_neg hfull]
    exact h.copyEdge hsa hsb hap hp ht hout (hl.resolve_left hout)

/-- One touched edge word, illegal in one of the spans. -/
theorem FastCopied.touch_illegal (ht : IsTouch s b n k hi) (h : FastCopied s a b n k m)
    (hout : ¬WordInside s a n k) (hx : ¬BothLegalAt s a b k) :
    copyTouch s.params.enc (operand s a) (operand s b) (spanTouch s b k hi) (withMem s m) =
      .raised (firstIllegalErr s a b k) (withMem s m) := by
  have houtb := mt (hp.wordInside_iff n k).mpr hout
  have hk := ht.first_lt
  rw [copyTouch, if_neg (mt ht.inside_iff.mpr houtb)]
  exact bind_decodeAt_firstIllegal hsa hsb hk (h.source_edge hap hk hout) (h.legal_edge houtb) hx

theorem copyFast_rewrites (hl : ∀ k, k < n → WordInside s a n k ∨ BothLegalAt s a b k) :
    ∃ m, copyFast s.params.enc n (operand s a) (operand s b) s = .done () (withMem s m) ∧
      FastCopied s a b n n m := by
  rw [copyFast_eq_forEach hp]
  exact Cmd.forEach_touched_done (FastCopied s a b n)
    (fun k hi m ht h => h.touch hsa hsb hap hp ht (hl k ht.first_lt)) (rewritten_zero _ _ _ _ _)

/-- At an illegal edge word the fast path raises, with the words before it copied. -/
theorem copyFast_raised {j : Nat} (hj : j < n) (hout : ¬WordInside s a n j) (hx : ¬BothLegalAt s a b j)
    (hl : ∀ k, k < n → wordOf s a k < wordOf s a j → WordInside s a n k ∨ BothLegalAt s a b k) :
    ∃ m k, copyFast s.params.enc n (operand s a) (operand s b) s =
        .raised (firstIllegalErr s a b j) (withMem s m) ∧
      FastCopied s a b n k m ∧ k ≤ n ∧ ∀ i, wordOf s b i < wordOf s b j ↔ i < k := by
  rw [copyFast_eq_forEach hp]
  refine Cmd.forEach_touched_raised (FastCopied s a b n) hj
    (fun k hi m ht hlt h => h.touch hsa hsb hap hp ht (hl k ht.first_lt ((hp.wordOf_lt_iff k j).mpr hlt)))
    (fun k hi m ht hwordb h => ?_) (rewritten_zero _ _ _ _ _)
  have hworda := (hp.wordOf_eq_iff k j).mpr hwordb
  rw [← wordInside_congr hworda] at hout
  rw [BothLegalAt, ← hworda, ← hwordb] at hx
  rw [← firstIllegalErr_congr hworda hwordb]
  exact h.touch_illegal hsa hsb hap hp ht hout hx

end

/-! ### The slow path -/

/-- One position of the slow path, both words legal. -/
theorem CopyDone.next (hsa : SpanFits s a n) (hsb : SpanFits s b n) (hap : SameSymbols s a b ∨ Apart s a b n)
    (hk : k < n) (h : CopyDone s a b k m) (hl : BothLegalAt s a b k) :
    ∃ m', Cmd.bind (getSym s.params.enc (operand s a) k) (putSym s.params.enc (operand s b) k) (withMem s m) =
      .done () (withMem s m') ∧ CopyDone s a b (k + 1) m' := by
  obtain ⟨hla, hlb⟩ := hl
  have hget : getSym s.params.enc (operand s a) k (withMem s m) = .done (spanSym s a k) (withMem s m) := by
    rw [← h.written.source hap (Nat.le_of_lt hk) hk]
    exact getSym_legal (s := withMem s m) (wordOf_lt hsa hk) (h.legal _ hla)
  have hput := h.legal _ hlb
  refine ⟨_, (Cmd.bind_done hget).trans (putSym_legal (s := withMem s m) _ (wordOf_lt hsb hk) hput),
    h.written.putIn (inAlphabet_symIn _ _ _), fun c hc => ?_⟩
  rw [wordOf, Operand.wa_eq] at hput
  exact (legalIn_putIn m _ c _ hput).mpr (h.legal c hc)

theorem copySlow_rewrites (hsa : SpanFits s a n) (hsb : SpanFits s b n) (hap : SameSymbols s a b ∨ Apart s a b n)
    (hl : ∀ k, k < n → BothLegalAt s a b k) :
    ∃ m, copySlow s.params.enc n (operand s a) (operand s b) s = .done () (withMem s m) ∧ CopyDone s a b n m := by
  obtain ⟨m, hrun, hm⟩ := Cmd.forUp_done (s := s) (CopyDone s a b) n 0 s.mem
    (fun k m _ hk h => h.next hsa hsb hap (by omega) (hl k (by omega))) (copyDone_zero s a b)
  exact ⟨m, hrun, Nat.zero_add n ▸ hm⟩

/-- An illegal word is illegal still after positions whose words are legal: they rewrote others. -/
theorem CopyDone.legal_iff (h : CopyDone s a b k m) (hl : ∀ i, i < k → LegalAt s (wordOf s b i)) (c : Nat) :
    legalIn s.params.enc m c ↔ LegalAt s c := by
  refine ⟨fun hc => ?_, h.legal c⟩
  by_cases hword : ∀ i, i < k → c ≠ wordOf s b i
  · rwa [legalIn, h.written.words c hword] at hc
  · obtain ⟨i, hi, rfl⟩ : ∃ i, i < k ∧ c = wordOf s b i := by simpa using hword
    exact hl i hi

/-- At the first position with an illegal word the slow path raises, with the positions before it copied. -/
theorem copySlow_raised (hsa : SpanFits s a n) (hsb : SpanFits s b n) (hap : SameSymbols s a b ∨ Apart s a b n)
    {j : Nat} (hj : j < n) (hx : ¬BothLegalAt s a b j) (hl : ∀ k, k < j → BothLegalAt s a b k) :
    ∃ m, copySlow s.params.enc n (operand s a) (operand s b) s =
      .raised (firstIllegalErr s a b j) (withMem s m) ∧ CopyDone s a b j m := by
  refine Cmd.forUp_raised (s := s) (CopyDone s a b) j (CopyDone s a b j) n 0 s.mem (Nat.zero_le j) (by omega)
    (fun k m _ hk h => h.next hsa hsb hap (Nat.lt_trans hk hj) (hl k hk)) (fun m h => ⟨m, ?_, h⟩)
    (copyDone_zero s a b)
  have hlegal := h.legal_iff fun i hi => (hl i hi).2
  exact bind_getSym_firstIllegal hsa hj (hlegal _) fun v hla =>
    putSym_illegal (s := withMem s m) v (wordOf_lt hsb hj) (mt (hlegal _).mp fun hlb => hx ⟨hla, hlb⟩)

/-! ### The command -/

/-- What the path of `CopyProc` depends on (41_bulk_span_ops.md R160). -/
theorem copyProc_fast (hp : SamePhase s a b) :
    copyProc s.params.enc n (operand s a) (operand s b) = copyFast s.params.enc n (operand s a) (operand s b) :=
  if_pos (decide_eq_true hp)

theorem copyProc_slow (hp : ¬SamePhase s a b) :
    copyProc s.params.enc n (operand s a) (operand s b) = copySlow s.params.enc n (operand s a) (operand s b) :=
  if_neg (mt of_decide_eq_true hp)

/-- The edge words are those that the fast path decodes, all words those that the slow path decodes. -/
theorem LegalForPair.fast (h : LegalForPair s a b n) (hp : SamePhase s a b) {k : Nat} (hk : k < n) :
    WordInside s a n k ∨ BothLegalAt s a b k := by
  rcases h with ⟨-, hla, hlb⟩ | ⟨hla, hlb⟩
  · refine or_iff_not_imp_left.mpr fun hout => ⟨(hla k hk).resolve_left hout, (hlb k hk).resolve_left ?_⟩
    exact mt (hp.wordInside_iff n k).mpr hout
  · exact .inr ⟨hla k hk, hlb k hk⟩

theorem LegalForPair.slow (h : LegalForPair s a b n) (hp : ¬SamePhase s a b) {k : Nat} (hk : k < n) :
    BothLegalAt s a b k :=
  have ⟨hla, hlb⟩ := h.resolve_left fun hfast => hp hfast.1
  ⟨hla k hk, hlb k hk⟩

theorem sameSymbols_or_apart (h : a = b ∨ SameSymbols s a b ∨ Apart s a b n) : SameSymbols s a b ∨ Apart s a b n := by
  rcases h with rfl | h
  · exact .inl rfl
  · exact h

/-- COPY, by any of its names, with its checks passed. -/
theorem exec_isCopy_checked {i : Instr} (hi : IsCopy i a b) (hn : s.n ≠ 0) (hsa : SpanFits s a (countN s))
    (hsb : SpanFits s b (countN s)) (hap : SameSymbols s a b ∨ Apart s a b (countN s)) :
    exec i s = finish (copyProc s.params.enc (countN s) (operand s a) (operand s b) s) := by
  rw [exec_copy hi, ← exec_copy (.inl rfl), exec_copy_checked hn hsa hsb hap]

/-! ### COPY onto itself (41_bulk_span_ops.md R162) -/

theorem splice_slice_self (l : List Sym) {lo hi : Nat} (h : lo ≤ hi) : splice l lo hi (slice l lo hi) = l := by
  have htake : l.take lo = (l.take hi).take lo := by rw [List.take_take, Nat.min_eq_left h]
  rw [splice, slice, htake, List.take_append_drop, List.take_append_drop]

/-- A touched word copied onto itself: the word written is the one that was read. -/
theorem copyTouch_self (hsa : SpanFits s a n) (hsame : SameSymbols s a b) (hwf : Memory.wf s.mem = true)
    (ht : IsTouch s b n k hi) (hl : WordInside s a n k ∨ LegalAt s (wordOf s a k)) :
    copyTouch s.params.enc (operand s a) (operand s b) (spanTouch s b k hi) s = .done () s := by
  have hword := hsame.wordOf_eq k
  have hlt := wordOf_lt hsa ht.first_lt
  have hwrite : memWrite (wordOf s a k) (Memory.read s.mem (wordOf s a k)) s = .done () s := by
    rw [memWrite_done hlt, Memory.write_read_self hwf, withMem_self]
  by_cases hfull : hi - ixOf s b k = s.params.enc.size
  · rw [copyTouch, if_pos hfull]
    show copyWord (wordOf s a k) (wordOf s b k) s = _
    rw [← hword]
    exact (Cmd.bind_done (memRead_done hlt)).trans hwrite
  · have hlegal : legalIn s.params.enc s.mem (wordOf s a k) :=
      hl.resolve_left (mt ((hsame.samePhase.wordInside_iff n k).trans ht.inside_iff).mp hfull)
    rw [copyTouch, if_neg hfull]
    show copyEdge _ _ _ (wordOf s a k) (wordOf s b k) _ _ s = _
    rw [← hword, copyEdge, Cmd.bind_done (decodeAt_legal hlt hlegal), Cmd.bind_done (decodeAt_legal hlt hlegal),
      splice_slice_self _ (Nat.le_of_lt ht.lt), enc_dec hlegal, hwrite]

theorem copyFast_self (hsa : SpanFits s a n) (hsame : SameSymbols s a b) (hwf : Memory.wf s.mem = true)
    (hl : LegalEdges s a n) : copyFast s.params.enc n (operand s a) (operand s b) s = .done () s := by
  obtain ⟨m, hrun, rfl⟩ := Cmd.forEach_touched_done (s := s) (sp := b) (n := n)
    (body := copyTouch s.params.enc (operand s a) (operand s b)) (fun _ m => m = s.mem)
    (fun k hi m ht hm => ⟨m, hm ▸ copyTouch_self hsa hsame hwf ht (hl k ht.first_lt), hm⟩) rfl
  rw [copyFast_eq_forEach hsame.samePhase, hrun, withMem_self]

end

end Sys2Proof.Machine

/-!
SUPPORT. EQU. Nothing is written, so a comparison is an answer and no state. The fast path is a loop over the touched
words of the first span that ends at the first mismatch: it comes to the word of the lowest place where the spans
differ, to an illegal edge word with no mismatch before it, or to the end. The slow path reads every pair.
-/

namespace Sys2Proof.Machine

open Sys2Proof

/-! ### A comparison over a list, ended by the first mismatch -/

theorem Cmd.andAlso_true {m : Cmd Bool} {s t : State} (k : Cmd Bool) (h : m s = .done true t) :
    Cmd.andAlso m k s = k t := Cmd.bind_done h

theorem Cmd.andAlso_false {m : Cmd Bool} {s t : State} (k : Cmd Bool) (h : m s = .done false t) :
    Cmd.andAlso m k s = .done false t := Cmd.bind_done h

theorem Cmd.andAlso_raised {m : Cmd Bool} {s t : State} {e : Err} (k : Cmd Bool) (h : m s = .raised e t) :
    Cmd.andAlso m k s = .raised e t := Cmd.bind_raised h

theorem Cmd.andAlso_assoc (m k l : Cmd Bool) :
    Cmd.andAlso (Cmd.andAlso m k) l = Cmd.andAlso m (Cmd.andAlso k l) := by
  rw [Cmd.andAlso, Cmd.andAlso, Cmd.bind_assoc]
  congr 1
  funext r
  cases r <;> rfl

theorem Cmd.andAlso_ret_true (m : Cmd Bool) : Cmd.andAlso m (Cmd.ret true) = m := by
  funext s
  cases h : m s with
  | done r t => cases r <;> exact Cmd.bind_done h
  | raised e t => exact Cmd.bind_raised h
  | absent f => exact Cmd.bind_absent h

/-- A comparison for each element of a list, in order, up to the first mismatch. -/
def Cmd.allOf {α : Type} (body : α → Cmd Bool) : List α → Cmd Bool
  | [] => Cmd.ret true
  | t :: rest => Cmd.andAlso (body t) (Cmd.allOf body rest)

theorem Cmd.allOf_append {α : Type} (body : α → Cmd Bool) (l l' : List α) :
    Cmd.allOf body (l ++ l') = Cmd.andAlso (Cmd.allOf body l) (Cmd.allOf body l') := by
  induction l with
  | nil => rfl
  | cons t rest ih => rw [List.cons_append, Cmd.allOf, ih, Cmd.allOf, Cmd.andAlso_assoc]

/-- At most one comparison. -/
theorem Cmd.allOf_if {α : Type} (body : α → Cmd Bool) (c : Prop) [Decidable c] (t : α) :
    Cmd.allOf body (if c then [t] else []) = if c then body t else Cmd.ret true := by
  split
  · exact Cmd.andAlso_ret_true (body t)
  · rfl

/-- A loop over touches that cover a span from symbol `k`, with no mismatch before the word of symbol `j`, comes to that
word, or with `j = n` to its end. -/
theorem Cmd.allOf_until {s : State} {sp : SpanSel} {n j : Nat} {body : Touch → Cmd Bool} (hjn : j ≤ n)
    (hpass : ∀ k hi, IsTouch s sp n k hi → (j < n → wordOf s sp k < wordOf s sp j) →
      body (spanTouch s sp k hi) s = .done true s) :
    ∀ ts k, Covers s.params.enc (operand s sp) n k ts → k ≤ j → AtWordStart s.params.enc (operand s sp) n k →
      ∃ rest, Cmd.allOf body ts s = Cmd.allOf body rest s ∧
        ((rest = [] ∧ j = n) ∨
          ∃ k hi tail, rest = spanTouch s sp k hi :: tail ∧ IsTouch s sp n k hi ∧ k ≤ j ∧ j < k + (hi - ixOf s sp k))
  | [], _, hc, hkj, _ => ⟨[], rfl, .inl ⟨rfl, Nat.le_antisymm hjn (hc ▸ hkj)⟩⟩
  | t :: tail, k, hc, hkj, hstart => by
    obtain ⟨hi, rfl, hlt, hle, hends, hfits, htail⟩ := covers_cons_elim hc
    have ht : IsTouch s sp n k hi := ⟨hstart, hlt, hle, hends, hfits⟩
    by_cases hend : k + (hi - ixOf s sp k) ≤ j
    · have hbefore (hj : j < n) : wordOf s sp k < wordOf s sp j :=
        wordOf_lt_of_touch (i := 0) hlt hends hend hj (Nat.sub_pos_of_lt hlt)
      obtain ⟨rest, hrun, hcase⟩ := Cmd.allOf_until hjn hpass tail _ htail hend ht.next
      exact ⟨rest, (Cmd.andAlso_true _ (hpass k hi ht hbefore)).trans hrun, hcase⟩
    · exact ⟨_, rfl, .inr ⟨k, hi, tail, rfl, ht, hkj, Nat.lt_of_not_le hend⟩⟩

/-! ### The fast path as such a loop (41_bulk_span_ops.md R160, R165) -/

/-- The comparison of one full word. -/
def equWord (addrA addrB : Nat) : Cmd Bool :=
  Cmd.bind (memRead addrA) fun u => Cmd.bind (memRead addrB) fun v => Cmd.ret (decide (u = v))

theorem equWords_eq_allOf {α : Type} {body : α → Cmd Bool} {g : Nat → α} {x y : Nat}
    (hbody : ∀ j, body (g j) = equWord (x + j) (y + j)) (count k : Nat) :
    equWords (x + k) (y + k) count = Cmd.allOf body ((List.range' k count).map g) := by
  induction count generalizing k with
  | zero => rfl
  | succ c ih =>
    rw [List.range'_succ, List.map_cons, Cmd.allOf, hbody, ← ih, equWords, Cmd.andAlso, equWord, Cmd.bind_assoc]
    congr 1
    funext u
    rw [Cmd.bind_assoc]
    congr 1
    funext v
    by_cases h : u = v
    · rw [if_pos h, decide_eq_true h, Nat.add_assoc, Nat.add_assoc]
      rfl
    · rw [if_neg h, decide_eq_false h]
      rfl

/-- What the fast path of EQU does at one touched word of the first span. -/
def equTouch (e : Enc) (a b : Operand) (t : Touch) : Cmd Bool :=
  if t.hi - t.lo = e.size then equWord t.addr (b.wa e t.k0)
  else equEdge e a b t.addr (b.wa e t.k0) t.lo t.hi

theorem equTouch_full {e : Enc} {lo hi : Nat} (a b : Operand) (addr k0 : Nat) (h : hi - lo = e.size) :
    equTouch e a b { addr := addr, lo := lo, hi := hi, k0 := k0 } = equWord addr (b.wa e k0) := if_pos h

theorem equTouch_edge {e : Enc} {lo hi : Nat} (a b : Operand) (addr k0 : Nat) (h : hi - lo ≠ e.size) :
    equTouch e a b { addr := addr, lo := lo, hi := hi, k0 := k0 } = equEdge e a b addr (b.wa e k0) lo hi := if_neg h

theorem equFast_eq_allOf {e : Enc} {a b : Operand} (h : a.off % e.size = b.off % e.size) (n : Nat) :
    equFast e n a b = Cmd.allOf (equTouch e a b) (touched e a n) := by
  obtain ⟨-, hlead, -, -⟩ := segments_same h n
  obtain ⟨hwl, hw0, -⟩ := segments_wa e b n
  obtain ⟨hltlead, hlttrail⟩ := segments_edge_lt e a n
  have hl : (segments e a n).first + (segments e a n).lead - (segments e a n).first ≠ e.size := by omega
  have ht : (segments e a n).trail - 0 ≠ e.size := by omega
  have hfull := equWords_eq_allOf (body := equTouch e a b) (x := (segments e a n).w0) (y := (segments e b n).w0)
    (g := fun j => { addr := (segments e a n).w0 + j, lo := 0, hi := e.size,
                     k0 := (segments e a n).lead + j * e.size : Touch })
    (fun j => by rw [equTouch_full _ _ _ _ (Nat.sub_zero _), hw0, hlead]) (segments e a n).full 0
  unfold equFast touched
  simp only [Cmd.allOf_append, Cmd.allOf_if, Cmd.andAlso_assoc, fullTouches, List.range_eq_range']
  rw [← hfull, equTouch_edge _ _ _ _ hl, equTouch_edge _ _ _ _ ht, hwl, hw0, hlead]
  rfl

/-! ### What is compared -/

/-- Symbol `k` of a span, in its word. -/
theorem spanSym_eq (s : State) (sp : SpanSel) (k : Nat) :
    spanSym s sp k = symAtIndex (dec s.params.enc (memByte s (wordOf s sp k))) (ixOf s sp k) := by
  rw [spanSym, symAt, absOf, ← Operand.wa_eq, ← Operand.ix_eq, wordOf]

/-- Arrays of symbols of one length are equal iff they are position by position. -/
theorem eq_iff_symAtIndex {u v : List Sym} (h : u.length = v.length) :
    u = v ↔ ∀ i, i < u.length → symAtIndex u i = symAtIndex v i := by
  refine ⟨fun huv _ _ => huv ▸ rfl, fun hall => List.ext_getElem h fun i hi hi' => ?_⟩
  have := hall i hi
  rwa [symAtIndex, symAtIndex, List.getD_eq_getElem _ _ hi, List.getD_eq_getElem _ _ hi'] at this

section
variable {s : State} {a b : SpanSel} {n j k hi : Nat}

/-- On the fast path a full word is compared as a raw pattern, -/
theorem equalAt_full (hp : SamePhase s a b) (hin : WordInside s a n k) :
    EqualAt s a b n k ↔ memByte s (wordOf s a k) = memByte s (wordOf s b k) := by
  rw [EqualAt, if_pos ⟨hp, hin⟩]

/-- and an edge word symbol for symbol, -/
theorem equalAt_edge (hout : ¬WordInside s a n k) : EqualAt s a b n k ↔ spanSym s a k = spanSym s b k := by
  rw [EqualAt, if_neg fun h => hout h.2]

/-- as everything is on the slow path. -/
theorem equalAt_slow (hp : ¬SamePhase s a b) : EqualAt s a b n k ↔ spanSym s a k = spanSym s b k := by
  rw [EqualAt, if_neg fun h => hp h.1]

/-- The symbols of an edge word that belong to the span. -/
theorem symAtIndex_spanTouch {sp : SpanSel} {i : Nat} (hh : hi ≤ s.params.enc.size) (hi' : i < hi - ixOf s sp k) :
    symAtIndex (slice (dec s.params.enc (memByte s (wordOf s sp k))) (ixOf s sp k) hi) i = spanSym s sp (k + i) :=
  symAtIndex_touch s.mem hh hi'

section
variable (hsa : SpanFits s a n) (hsb : SpanFits s b n) (hp : SamePhase s a b)
include hsa hsb hp

/-- A full word: its patterns are equal, or not one place of it counts as equal. -/
theorem equWord_answers (ht : IsTouch s a n k hi) (hin : WordInside s a n k) :
    ∃ r, equWord (wordOf s a k) (wordOf s b k) s = .done r s ∧
      (r = true ↔ ∀ i, k ≤ i → i < k + (hi - ixOf s a k) → EqualAt s a b n i) := by
  have hplace (i : Nat) (hki : k ≤ i) (hi' : i < k + (hi - ixOf s a k)) :
      EqualAt s a b n i ↔ memByte s (wordOf s a k) = memByte s (wordOf s b k) := by
    have hword := ht.word hki hi'
    rw [equalAt_full hp ((wordInside_congr hword).mpr hin), hword, (hp.wordOf_eq_iff i k).mp hword]
  have hfirst : k < k + (hi - ixOf s a k) := Nat.lt_add_of_pos_right (Nat.sub_pos_of_lt ht.lt)
  refine ⟨_, (Cmd.bind_done (memRead_done (wordOf_lt hsa ht.first_lt))).trans
    (Cmd.bind_done (memRead_done (wordOf_lt hsb ht.first_lt))), decide_eq_true_iff.trans ?_⟩
  exact ⟨fun h i hki hi' => (hplace i hki hi').mpr h,
    fun h => (hplace k (Nat.le_refl k) hfirst).mp (h k (Nat.le_refl k) hfirst)⟩

/-- An edge word, legal in both spans: its symbols that belong to the spans are compared. -/
theorem equEdge_answers (ht : IsTouch s a n k hi) (hout : ¬WordInside s a n k) (hl : BothLegalAt s a b k) :
    ∃ r, equEdge s.params.enc (operand s a) (operand s b) (wordOf s a k) (wordOf s b k) (ixOf s a k) hi s =
        .done r s ∧ (r = true ↔ ∀ i, k ≤ i → i < k + (hi - ixOf s a k) → EqualAt s a b n i) := by
  obtain ⟨hla, hlb⟩ := hl
  have hlena := slice_dec_length (memByte s (wordOf s a k)) ht.le (ixOf s a k)
  have hlenb := slice_dec_length (memByte s (wordOf s b k)) ht.le (ixOf s a k)
  have hplace (i : Nat) (hi' : i < hi - ixOf s a k) : EqualAt s a b n (k + i) ↔
      symAtIndex (slice (dec s.params.enc (memByte s (wordOf s a k))) (ixOf s a k) hi) i =
        symAtIndex (slice (dec s.params.enc (memByte s (wordOf s b k))) (ixOf s a k) hi) i := by
    have hword := ht.word (Nat.le_add_right k i) (Nat.add_lt_add_left hi' k)
    rw [equalAt_edge (mt (wordInside_congr hword).mp hout), ← symAtIndex_spanTouch ht.le hi', hp.ixOf_eq k,
      ← symAtIndex_spanTouch ht.le (hp.ixOf_eq k ▸ hi')]
  refine ⟨_, bind_decodeAt_legal (m := s.mem) _ hsa hsb ht.first_lt hla hlb, decide_eq_true_iff.trans ?_⟩
  refine (eq_iff_symAtIndex (hlena.trans hlenb.symm)).trans ?_
  rw [hlena]
  refine ⟨fun h i hki hi' => ?_, fun h i hi' => ?_⟩
  · obtain ⟨x, rfl⟩ := Nat.exists_eq_add_of_le hki
    have hx : x < hi - ixOf s a k := by omega
    exact (hplace x hx).mpr (h x hx)
  · exact (hplace i hi').mp (h _ (Nat.le_add_right k i) (Nat.add_lt_add_left hi' k))

/-- One touched word, full or legal in both spans. -/
theorem equTouch_answers (ht : IsTouch s a n k hi) (hl : WordInside s a n k ∨ BothLegalAt s a b k) :
    ∃ r, equTouch s.params.enc (operand s a) (operand s b) (spanTouch s a k hi) s = .done r s ∧
      (r = true ↔ ∀ i, k ≤ i → i < k + (hi - ixOf s a k) → EqualAt s a b n i) := by
  by_cases hin : WordInside s a n k
  · rw [equTouch_full _ _ _ _ (ht.inside_iff.mp hin)]
    exact equWord_answers hsa hsb hp ht hin
  · rw [equTouch_edge _ _ _ _ (mt ht.inside_iff.mpr hin)]
    exact equEdge_answers hsa hsb hp ht hin (hl.resolve_left hin)

/-- The fast path, with no mismatch and no illegal edge word before the word of symbol `j`. -/
theorem equFast_until (hjn : j ≤ n)
    (hl : ∀ k, k < n → (j < n → wordOf s a k < wordOf s a j) →
      (WordInside s a n k ∨ BothLegalAt s a b k) ∧ EqualAt s a b n k) :
    (j = n ∧ equFast s.params.enc n (operand s a) (operand s b) s = .done true s) ∨
      ∃ k hi rest, IsTouch s a n k hi ∧ k ≤ j ∧ j < k + (hi - ixOf s a k) ∧
        equFast s.params.enc n (operand s a) (operand s b) s =
          Cmd.andAlso (equTouch s.params.enc (operand s a) (operand s b) (spanTouch s a k hi)) rest s := by
  have hpass (k hi : Nat) (ht : IsTouch s a n k hi) (hlt : j < n → wordOf s a k < wordOf s a j) :
      equTouch s.params.enc (operand s a) (operand s b) (spanTouch s a k hi) s = .done true s := by
    obtain ⟨r, hrun, hr⟩ := equTouch_answers hsa hsb hp ht (hl k ht.first_lt hlt).1
    have hfits := ht.fits
    rwa [hr.mpr fun i hki hi' => (hl i (by omega) fun hj => ht.word hki hi' ▸ hlt hj).2] at hrun
  rw [equFast_eq_allOf hp]
  obtain ⟨rest, hrun, ⟨rfl, hj⟩ | ⟨k, hi, tail, rfl, ht, hkj, hjk⟩⟩ :=
    Cmd.allOf_until hjn hpass _ 0 (covers_touched _ _ _) (Nat.zero_le j) (atWordStart_zero _ _ _)
  · exact .inl ⟨hj, hrun⟩
  · exact .inr ⟨k, hi, _, ht, hkj, hjk, hrun⟩

/-- The lowest mismatch ends the fast path, whatever stands in later words. -/
theorem equFast_lowest_mismatch (hj : j < n)
    (hl : ∀ k, k < n → wordOf s a k ≤ wordOf s a j → WordInside s a n k ∨ BothLegalAt s a b k)
    (hne : ¬EqualAt s a b n j) (hlowest : ∀ k, k < j → EqualAt s a b n k) :
    equFast s.params.enc n (operand s a) (operand s b) s = .done false s := by
  have hbefore (k : Nat) (hlt : wordOf s a k < wordOf s a j) : k < j :=
    Nat.lt_of_not_le fun hjk => Nat.not_lt_of_le (wa_mono _ _ hjk) hlt
  rcases equFast_until hsa hsb hp (Nat.le_of_lt hj)
    fun k hk hlt => ⟨hl k hk (Nat.le_of_lt (hlt hj)), hlowest k (hbefore k (hlt hj))⟩ with
    ⟨rfl, -⟩ | ⟨k, hi, rest, ht, hkj, hjk, hrun⟩
  · exact absurd hj (Nat.lt_irrefl j)
  · obtain ⟨r, htouch, hr⟩ := equTouch_answers hsa hsb hp ht (hl k ht.first_lt (wa_mono _ _ hkj))
    rw [Bool.eq_false_iff.mpr fun h => hne (hr.mp h j hkj hjk)] at htouch
    rw [hrun, Cmd.andAlso_false _ htouch]

theorem equFast_mismatch (hj : j < n)
    (hl : ∀ k, k < n → wordOf s a k ≤ wordOf s a j → WordInside s a n k ∨ BothLegalAt s a b k)
    (hne : ¬EqualAt s a b n j) : equFast s.params.enc n (operand s a) (operand s b) s = .done false s := by
  induction j using Nat.strong_induction_on with
  | _ j ih =>
    by_cases hlowest : ∀ k, k < j → EqualAt s a b n k
    · exact equFast_lowest_mismatch hsa hsb hp hj hl hne hlowest
    · obtain ⟨i, hij, hnei⟩ : ∃ i, i < j ∧ ¬EqualAt s a b n i := by simpa using hlowest
      exact ih i hij (Nat.lt_trans hij hj)
        (fun k hk hki => hl k hk (Nat.le_trans hki (wa_mono _ _ (Nat.le_of_lt hij)))) hnei

theorem equFast_done (hl : ∀ k, k < n → WordInside s a n k ∨ BothLegalAt s a b k) :
    ∃ r, equFast s.params.enc n (operand s a) (operand s b) s = .done r s ∧
      (r = true ↔ ∀ k, k < n → EqualAt s a b n k) := by
  by_cases hall : ∀ k, k < n → EqualAt s a b n k
  · rcases equFast_until hsa hsb hp (Nat.le_refl n) fun k hk _ => ⟨hl k hk, hall k hk⟩ with
      ⟨-, hrun⟩ | ⟨k, hi, rest, ht, -, hnk, -⟩
    · exact ⟨true, hrun, iff_of_true rfl hall⟩
    · exact absurd ht.fits (Nat.not_le_of_lt hnk)
  · obtain ⟨j, hj, hne⟩ : ∃ j, j < n ∧ ¬EqualAt s a b n j := by simpa using hall
    have hrun := equFast_mismatch hsa hsb hp hj (fun k hk _ => hl k hk) hne
    exact ⟨false, hrun, iff_of_false Bool.false_ne_true hall⟩

/-- With no mismatch before it, an illegal edge word ends the fast path with its error. -/
theorem equFast_raised (hj : j < n) (hout : ¬WordInside s a n j) (hx : ¬BothLegalAt s a b j)
    (hl : ∀ k, k < n → wordOf s a k < wordOf s a j →
      (WordInside s a n k ∨ BothLegalAt s a b k) ∧ EqualAt s a b n k) :
    equFast s.params.enc n (operand s a) (operand s b) s = .raised (firstIllegalErr s a b j) s := by
  rcases equFast_until hsa hsb hp (Nat.le_of_lt hj) fun k hk hlt => hl k hk (hlt hj) with
    ⟨rfl, -⟩ | ⟨k, hi, rest, ht, hkj, hjk, hrun⟩
  · exact absurd hj (Nat.lt_irrefl j)
  · have hworda := ht.word hkj hjk
    have hwordb := (hp.wordOf_eq_iff j k).mp hworda
    rw [wordInside_congr hworda] at hout
    rw [BothLegalAt, hworda, hwordb] at hx
    rw [hrun, firstIllegalErr_congr hworda hwordb]
    refine Cmd.andAlso_raised _ ?_
    rw [equTouch_edge _ _ _ _ (mt ht.inside_iff.mpr hout)]
    exact bind_decodeAt_firstIllegal (m := s.mem) hsa hsb ht.first_lt Iff.rfl Iff.rfl hx

end

/-! ### The slow path -/

/-- A range, as its first number and the rest. -/
theorem forall_from_succ {P : Nat → Prop} {k count : Nat} :
    (∀ i, k ≤ i → i < k + (count + 1) → P i) ↔ P k ∧ ∀ i, k + 1 ≤ i → i < k + 1 + count → P i := by
  refine ⟨fun h => ⟨h k (Nat.le_refl k) (by omega), fun i hki hi => h i (by omega) (by omega)⟩, ?_⟩
  rintro ⟨hk, h⟩ i hki hi
  rcases Nat.eq_or_lt_of_le hki with rfl | hlt
  · exact hk
  · exact h i hlt (by omega)

section
variable (hsa : SpanFits s a n) (hsb : SpanFits s b n)
include hsa hsb

theorem equSlow_done : ∀ (count k : Nat) (eq : Bool), k + count ≤ n →
    (∀ i, k ≤ i → i < k + count → BothLegalAt s a b i) →
    ∃ r, equSlow s.params.enc (operand s a) (operand s b) count k eq s = .done r s ∧
      (r = true ↔ eq = true ∧ ∀ i, k ≤ i → i < k + count → spanSym s a i = spanSym s b i)
  | 0, _, eq, _, _ => ⟨eq, rfl, (and_iff_left fun _ hki hi => absurd hi (Nat.not_lt_of_le hki)).symm⟩
  | count + 1, k, eq, hn, hl => by
    obtain ⟨hla, hlb⟩ := hl k (Nat.le_refl k) (by omega)
    obtain ⟨r, hrun, hr⟩ := equSlow_done count (k + 1) (if spanSym s a k = spanSym s b k then eq else false) (by omega)
      fun i hki hi => hl i (by omega) (by omega)
    refine ⟨r, ?_, hr.trans ?_⟩
    · rw [equSlow, Cmd.bind_done (getSym_legal (wordOf_lt hsa (by omega)) hla),
        Cmd.bind_done (getSym_legal (wordOf_lt hsb (by omega)) hlb)]
      exact hrun
    · rw [forall_from_succ]
      by_cases heq : spanSym s a k = spanSym s b k <;> simp [heq]

theorem equSlow_raised : ∀ (count k : Nat) (eq : Bool), k + count ≤ n → k ≤ j → j < k + count →
    ¬BothLegalAt s a b j → (∀ i, k ≤ i → i < j → BothLegalAt s a b i) →
    equSlow s.params.enc (operand s a) (operand s b) count k eq s = .raised (firstIllegalErr s a b j) s
  | 0, k, _, _, hkj, hj, _, _ => absurd hj (by omega)
  | count + 1, k, eq, hn, hkj, hj, hx, hl => by
    rw [equSlow]
    rcases Nat.eq_or_lt_of_le hkj with rfl | hlt
    · refine bind_getSym_firstIllegal (m := s.mem) hsa (by omega) Iff.rfl fun v hla => Cmd.bind_raised ?_
      exact getSym_illegal (wordOf_lt hsb (by omega)) fun hlb => hx ⟨hla, hlb⟩
    · obtain ⟨hla, hlb⟩ := hl k (Nat.le_refl k) hlt
      rw [Cmd.bind_done (getSym_legal (wordOf_lt hsa (by omega)) hla),
        Cmd.bind_done (getSym_legal (wordOf_lt hsb (by omega)) hlb)]
      exact equSlow_raised count (k + 1) _ (by omega) hlt (by omega) hx fun i hki => hl i (by omega)

end

/-! ### The command -/

theorem equProc_fast (hp : SamePhase s a b) :
    equProc s.params.enc n (operand s a) (operand s b) = equFast s.params.enc n (operand s a) (operand s b) :=
  if_pos (decide_eq_true hp)

theorem equProc_slow (hp : ¬SamePhase s a b) :
    equProc s.params.enc n (operand s a) (operand s b) =
      equSlow s.params.enc (operand s a) (operand s b) n 0 true :=
  if_neg (mt of_decide_eq_true hp)

/-- EQU with its checks passed: no pair of spans is refused (30_encoding.md R105). -/
theorem exec_equ_checked {i : Instr} (hi : IsEqu i a b) (hn : s.n ≠ 0) (hsa : SpanFits s a (countN s))
    (hsb : SpanFits s b (countN s)) :
    exec i s = finish (Cmd.bind (equProc s.params.enc (countN s) (operand s a) (operand s b))
      (fun r => setResult (boolResult r)) s) := by
  have hbounds : boundsError (usesOf (.equ a b)) s = none := by
    refine boundsError_eq_none ?_ (absurd rfl)
    exact List.forall_mem_cons.mpr ⟨hsa, List.forall_mem_singleton.mpr hsb⟩
  have hpairs : overlapError (usesOf (.equ a b)) s = none := overlapError_eq_none fun _ _ _ _ _ => rfl
  rw [exec_equ hi]
  exact congrArg finish (framed_body _ _ (fun _ => hn) hbounds hpairs)

/-- The answer of the comparison goes to `RESULT`, -/
theorem exec_equ_done {i : Instr} {r : Bool} (hi : IsEqu i a b) (hn : s.n ≠ 0) (hsa : SpanFits s a (countN s))
    (hsb : SpanFits s b (countN s))
    (hrun : equProc s.params.enc (countN s) (operand s a) (operand s b) s = .done r s) :
    exec i s = .next { s with result := if r then 1 else 0 } := by
  rw [exec_equ_checked hi hn hsa hsb, Cmd.bind_done hrun]
  rfl

/-- its error to the error registers. -/
theorem exec_equ_raised {i : Instr} {e : Err} (hi : IsEqu i a b) (hn : s.n ≠ 0) (hsa : SpanFits s a (countN s))
    (hsb : SpanFits s b (countN s))
    (hrun : equProc s.params.enc (countN s) (operand s a) (operand s b) s = .raised e s) :
    exec i s = .next (takeError e s) := by
  rw [exec_equ_checked hi hn hsa hsb, Cmd.bind_raised hrun, finish_raised]

/-! ### Both paths (41_bulk_span_ops.md R167) -/

/-- Legal words are equal iff their symbols are. -/
theorem memByte_eq_iff {x y : Nat} (hx : LegalAt s x) (hy : LegalAt s y) :
    memByte s x = memByte s y ↔
      ∀ i, i < s.params.enc.size → symAt s (x * s.params.enc.size + i) = symAt s (y * s.params.enc.size + i) := by
  have hsym (c i : Nat) (hi : i < s.params.enc.size) :
      symAt s (c * s.params.enc.size + i) = symAtIndex (dec s.params.enc (memByte s c)) i := by
    obtain ⟨hdiv, hmod⟩ := (div_mod_eq_iff (a := c) hi).mpr rfl
    rw [symAt, hdiv, hmod]
  refine ⟨fun h i hi => by rw [hsym x i hi, hsym y i hi, h], fun h => ?_⟩
  rw [← enc_dec hx, ← enc_dec hy]
  refine congrArg _ ((eq_iff_symAtIndex (by rw [dec_length, dec_length])).mpr fun i hi => ?_)
  rw [dec_length] at hi
  exact (hsym x i hi).symm.trans ((h i hi).trans (hsym y i hi))

/-- Of legal words the raw patterns are equal where the symbols are, so the two paths compare alike. -/
theorem forall_equalAt_iff (hp : SamePhase s a b) (hl : ∀ k, k < n → BothLegalAt s a b k) :
    (∀ k, k < n → EqualAt s a b n k) ↔ ∀ k, k < n → spanSym s a k = spanSym s b k := by
  refine ⟨fun h k hk => ?_, fun h k hk => ?_⟩ <;> by_cases hin : WordInside s a n k
  · rw [spanSym_eq, spanSym_eq, (equalAt_full hp hin).mp (h k hk), hp.ixOf_eq k]
  · exact (equalAt_edge hin).mp (h k hk)
  · obtain ⟨hla, hlb⟩ := hl k hk
    refine (equalAt_full hp hin).mpr ((memByte_eq_iff hla hlb).mpr fun i hi => ?_)
    have ha := wordOf_mul_add_ixOf s a k
    have hb := wordOf_mul_add_ixOf s b k
    rw [wordInside_iff] at hin
    rw [← hp.ixOf_eq k] at hb
    have hsym := h (k - ixOf s a k + i) (by omega)
    rwa [spanSym, spanSym,
      show absOf s a + (k - ixOf s a k + i) = wordOf s a k * s.params.enc.size + i by omega,
      show absOf s b + (k - ixOf s a k + i) = wordOf s b k * s.params.enc.size + i by omega] at hsym
  · exact (equalAt_edge hin).mpr (h k hk)

end

end Sys2Proof.Machine

/-!
The statements about the bulk span operations (41_bulk_span_ops.md): what COPY, FILLZ and EQU do on spans of legal
words, where an illegal word stops them, and that the fast paths do what the slow paths do.
-/

namespace Sys2Proof.Machine

open Sys2Proof

/-- Settles O42: on the fast path word by word, on the slow path, where the spans lie apart, symbol by symbol. -/
theorem copyMovesSymbols : Obligations.CopyMovesSymbols := by
  intro s i a b hi hn hsa hsb hpair hl
  have hap := sameSymbols_or_apart hpair
  rw [exec_isCopy_checked hi hn hsa hsb hap]
  by_cases hp : SamePhase s a b
  · obtain ⟨m, hrun, hm⟩ := copyFast_rewrites hsa hsb hap hp fun k => hl.fast hp
    obtain ⟨hsyms, hfull, hother⟩ := hm.effect
    rw [copyProc_fast hp, hrun]
    exact ⟨_, rfl, rfl, hsyms, fun _ k hk hin => hfull k hk ((hp.wordInside_iff _ k).mp hin), hother⟩
  · obtain ⟨m, hrun, hm⟩ := copySlow_rewrites hsa hsb hap fun k => hl.slow hp
    obtain ⟨hsyms, hother⟩ := hm.written.symbols (Nat.le_refl _)
    rw [copyProc_slow hp, hrun]
    exact ⟨_, rfl, rfl, hsyms, fun hp' => absurd hp' hp, hother, hm.written.otherWordsKept⟩

/-- Settles O43: identical spans take the fast path, and each pass writes back what it read. -/
theorem copyOntoItselfChangesNothing : Obligations.CopyOntoItselfChangesNothing := by
  intro s i a b hi hwf hn hsa hsb hsame hl
  rw [exec_isCopy_checked hi hn hsa hsb (.inl hsame), copyProc_fast hsame.samePhase, copyFast_self hsa hsame hwf hl,
    finish_done]

/-- Settles O44: the pass of the first illegal word that is decoded raises without effect. -/
theorem copyStopsAtIllegalWord : Obligations.CopyStopsAtIllegalWord := by
  intro s i a b j hi hn hsa hsb hj hx
  refine ⟨fun hp hap hl => ?_, fun hp hpair hout hl => ?_⟩
  · obtain ⟨m, hrun, hm⟩ := copySlow_raised hsa hsb (.inr hap) hj hx hl
    rw [exec_isCopy_checked hi hn hsa hsb (.inr hap), copyProc_slow hp, hrun]
    obtain ⟨hsyms, hother⟩ := hm.written.symbols (Nat.le_refl j)
    exact ⟨_, rfl, onlyErrorRegsAndMem_takeError _ s m, firstIllegalLatched_takeError rfl, hsyms, hother,
      hm.written.otherWordsKept⟩
  · have hap := sameSymbols_or_apart hpair
    obtain ⟨m, k, hrun, hm, hk, hbefore⟩ := copyFast_raised hsa hsb hap hp hj hout hx hl
    rw [exec_isCopy_checked hi hn hsa hsb hap, copyProc_fast hp, hrun]
    obtain ⟨hsyms, hother, hlater⟩ := hm.effect_before hk hbefore
    refine ⟨_, rfl, onlyErrorRegsAndMem_takeError _ s m, firstIllegalLatched_takeError rfl, fun i hi' hlt => ?_,
      hother, fun c hc => hlater c fun i hi' hlt => hc i hi' ((hp.wordOf_lt_iff i j).mpr hlt)⟩
    obtain ⟨hsym, hraw⟩ := hsyms i hi' ((hp.wordOf_lt_iff i j).mp hlt)
    exact ⟨hsym, fun hin => hraw ((hp.wordInside_iff _ i).mp hin)⟩

/-- Settles O45: the touched words are zeroed one after the other, up to the end or to an illegal edge word. -/
theorem fillzZeroesSpan : Obligations.FillzZeroesSpan := by
  intro s a hn hs
  refine ⟨fun hl => ?_, fun j hj hout hx hl => ?_⟩
  · obtain ⟨m, hrun, hm⟩ := exec_fillz_done hn hs hl
    exact ⟨_, hrun, rfl, hm.effect⟩
  · obtain ⟨m, k, hrun, hm, hk, hbefore⟩ := exec_fillz_illegal hn hs hj hout hx hl
    exact ⟨_, hrun, onlyErrorRegsAndMem_takeError _ s m, illegalWordLatched_takeError rfl,
      hm.effect_before hk hbefore⟩

/-- Settles O46: the fast path answers at the lowest mismatch or at the end, and stops at an illegal edge word that it
reaches; the slow path reads every pair up to the first illegal word. -/
theorem equComparesSpans : Obligations.EquComparesSpans := by
  intro s i a b hi hn hsa hsb
  refine ⟨fun hl => ?_, fun j hj hx hpath => ?_⟩
  · by_cases hp : SamePhase s a b
    · obtain ⟨r, hrun, hr⟩ := equFast_done hsa hsb hp fun k => hl.fast hp
      exact ⟨r, exec_equ_done hi hn hsa hsb (equProc_fast hp ▸ hrun), hr⟩
    · obtain ⟨r, hrun, hr⟩ := equSlow_done hsa hsb (countN s) 0 true (by omega) fun k _ hk => hl.slow hp (by omega)
      refine ⟨r, exec_equ_done hi hn hsa hsb (equProc_slow hp ▸ hrun), hr.trans ?_⟩
      simp only [equalAt_slow hp, true_and, Nat.zero_le, forall_const, Nat.zero_add]
  · have hrun : equProc s.params.enc (countN s) (operand s a) (operand s b) s =
        .raised (firstIllegalErr s a b j) s := by
      rcases hpath with ⟨hp, hl⟩ | ⟨hp, hout, hl⟩
      · rw [equProc_slow hp]
        exact equSlow_raised hsa hsb (countN s) 0 true (by omega) (Nat.zero_le j) (by omega) hx fun k _ => hl k
      · rw [equProc_fast hp]
        exact equFast_raised hsa hsb hp hj hout hx hl
    exact ⟨_, exec_equ_raised hi hn hsa hsb hrun, onlyErrorRegs_takeError _ s, firstIllegalLatched_takeError rfl⟩

/-- Settles O47, by the fast path's answer at a mismatch. -/
theorem equStopsAtFirstMismatch : Obligations.EquStopsAtFirstMismatch := by
  intro s i a b j hi hn hsa hsb hp hj hl hne
  exact exec_equ_done hi hn hsa hsb (equProc_fast hp ▸ equFast_mismatch hsa hsb hp hj hl hne)

/-- Settles O48: both paths of COPY rewrite the destination with the symbols of the source, which fixes legal words;
both of EQU compare the symbols, as legal words are equal iff their symbols are. -/
theorem fastPathEqualsSlowPath : Obligations.FastPathEqualsSlowPath := by
  intro s a b n hsa hsb hp hla hlb _
  have hl (k : Nat) (hk : k < n) : BothLegalAt s a b k := ⟨hla k hk, hlb k hk⟩
  refine ⟨fun hap => ?_, ?_⟩
  · obtain ⟨m, hfast, hm⟩ := copyFast_rewrites hsa hsb hap hp fun k hk => .inr (hl k hk)
    obtain ⟨m', hslow, hm'⟩ := copySlow_rewrites hsa hsb hap hl
    have hdone : CopyDone s a b n m := ⟨hm.written, hm.legalKept hla⟩
    exact ⟨_, _, hfast, hslow, hdone.unique hm' hlb⟩
  · obtain ⟨r, hfast, hr⟩ := equFast_done hsa hsb hp fun k hk => .inr (hl k hk)
    obtain ⟨r', hslow, hr'⟩ := equSlow_done hsa hsb n 0 true (by omega) fun k _ hk => hl k (by omega)
    rw [forall_equalAt_iff hp hl] at hr
    simp only [true_and, Nat.zero_le, forall_const, Nat.zero_add] at hr'
    obtain rfl : r = r' := Bool.eq_iff_iff.mpr (hr.trans hr'.symm)
    exact ⟨r, hfast, hslow⟩

end Sys2Proof.Machine

/-!
SUPPORT. The symbol algebra of 42_symbol_arithmetic.md: the symbols of an alphabet are the residues modulo 2 (BIN8) or
3 (TER5), and add and sub are those of the ring `ZMod`. The laws of R182 are the laws of that ring.
-/

namespace Sys2Proof.Machine

open Sys2Proof

/-- The number of symbols of an alphabet. -/
def modulus : Enc → Nat
  | .bin8 => 2
  | .ter5 => 3

/-- The residue that a symbol stands for. -/
def residue (e : Enc) (v : Sym) : ZMod (modulus e) := (v.toInt : ZMod (modulus e))

@[simp] theorem residue_zero (e : Enc) : residue e .zero = 0 := Int.cast_zero

/-- "((x + y + 1) mod 3) − 1", the formula of R181, picks the member of −1, 0, +1. -/
theorem toInt_balance (v : Int) : (balance v).toInt = (v + 1) % 3 - 1 := by
  have hr : v % 3 = 0 ∨ v % 3 = 1 ∨ v % 3 = 2 := by omega
  rcases hr with hr | hr | hr <;> simp [balance, tritOf, hr, Sym.toInt] <;> omega

section

variable {e : Enc} {x y z : Sym}

/-- Two symbols of an alphabet have the same residue only if they are the same. -/
theorem eq_of_residue (hx : inAlphabet e x = true) (hy : inAlphabet e y = true) (h : residue e x = residue e y) :
    x = y := by
  revert hx hy h
  cases e <;> cases x <;> cases y <;> decide

/-- The trit of a number keeps its residue. -/
theorem residue_balance (v : Int) : residue .ter5 (balance v) = (v : ZMod 3) := by
  rw [residue, toInt_balance]
  exact (ZMod.intCast_eq_intCast_iff' _ _ 3).mpr (by omega)

/-- add is addition of residues: on BIN8 by the table of R180, on TER5 by the formula of R181. -/
theorem residue_symAdd (hx : inAlphabet e x = true) (hy : inAlphabet e y = true) :
    residue e (symAdd e x y) = residue e x + residue e y := by
  cases e with
  | bin8 =>
    revert hx hy
    cases x <;> cases y <;> decide
  | ter5 => rw [symAdd, residue_balance, Int.cast_add]; rfl

/-- sub is subtraction of residues, by the same table and formula. -/
theorem residue_symSub (hx : inAlphabet e x = true) (hy : inAlphabet e y = true) :
    residue e (symSub e x y) = residue e x - residue e y := by
  cases e with
  | bin8 =>
    revert hx hy
    cases x <;> cases y <;> decide
  | ter5 => rw [symSub, residue_balance, Int.cast_sub]; rfl

/-- A symbol with the residue of a number is congruent to it. -/
theorem toInt_sub_emod_modulus {v : Int} (h : residue e x = (v : ZMod (modulus e))) :
    (x.toInt - v) % (modulus e : Int) = 0 :=
  Int.emod_eq_emod_iff_emod_sub_eq_zero.mp ((ZMod.intCast_eq_intCast_iff' _ _ _).mp h)

theorem symAdd_congruent (hx : inAlphabet e x = true) (hy : inAlphabet e y = true) :
    ((symAdd e x y).toInt - (x.toInt + y.toInt)) % (modulus e : Int) = 0 :=
  toInt_sub_emod_modulus ((residue_symAdd hx hy).trans (Int.cast_add _ _).symm)

theorem symSub_congruent (hx : inAlphabet e x = true) (hy : inAlphabet e y = true) :
    ((symSub e x y).toInt - (x.toInt - y.toInt)) % (modulus e : Int) = 0 :=
  toInt_sub_emod_modulus ((residue_symSub hx hy).trans (Int.cast_sub _ _).symm)

theorem symAdd_symSub (hx : inAlphabet e x = true) (hy : inAlphabet e y = true) : symAdd e (symSub e x y) y = x :=
  eq_of_residue (inAlphabet_symAdd ..) hx <| by
    rw [residue_symAdd (inAlphabet_symSub ..) hy, residue_symSub hx hy, sub_add_cancel]

theorem symAdd_comm (hx : inAlphabet e x = true) (hy : inAlphabet e y = true) : symAdd e x y = symAdd e y x :=
  eq_of_residue (inAlphabet_symAdd ..) (inAlphabet_symAdd ..) <| by
    rw [residue_symAdd hx hy, residue_symAdd hy hx, add_comm]

theorem symAdd_assoc (hx : inAlphabet e x = true) (hy : inAlphabet e y = true) (hz : inAlphabet e z = true) :
    symAdd e (symAdd e x y) z = symAdd e x (symAdd e y z) :=
  eq_of_residue (inAlphabet_symAdd ..) (inAlphabet_symAdd ..) <| by
    rw [residue_symAdd (inAlphabet_symAdd ..) hz, residue_symAdd hx hy, residue_symAdd hx (inAlphabet_symAdd ..),
      residue_symAdd hy hz, add_assoc]

theorem symAdd_zero (hx : inAlphabet e x = true) : symAdd e x .zero = x :=
  eq_of_residue (inAlphabet_symAdd ..) hx <| by rw [residue_symAdd hx (inAlphabet_zero e), residue_zero, add_zero]

theorem symSub_zero (hx : inAlphabet e x = true) : symSub e x .zero = x :=
  eq_of_residue (inAlphabet_symSub ..) hx <| by rw [residue_symSub hx (inAlphabet_zero e), residue_zero, sub_zero]

theorem symSub_self (hx : inAlphabet e x = true) : symSub e x x = .zero :=
  eq_of_residue (inAlphabet_symSub ..) (inAlphabet_zero e) <| by rw [residue_symSub hx hx, sub_self, residue_zero]

/-- Adding three times restores, as 3 is 0 modulo 3. -/
theorem symAdd_three_times (x y : Sym) : symAdd .ter5 (symAdd .ter5 (symAdd .ter5 x y) y) y = x :=
  have hthree : ∀ a b : ZMod 3, a + b + b + b = a := by decide
  eq_of_residue (inAlphabet_symAdd ..) rfl <| by
    rw [residue_symAdd rfl rfl, residue_symAdd rfl rfl, residue_symAdd rfl rfl]
    exact hthree _ _

/-- Adding twice restores only for zero, as 2 is a unit modulo 3. -/
theorem symAdd_twice_eq_iff (x y : Sym) : symAdd .ter5 (symAdd .ter5 x y) y = x ↔ y = .zero := by
  have htwo : ∀ a b : ZMod 3, a + b + b = a → b = 0 := by decide
  constructor
  · intro h
    have hres := congrArg (residue .ter5) h
    rw [residue_symAdd rfl rfl, residue_symAdd rfl rfl] at hres
    exact eq_of_residue rfl rfl ((htwo _ _ hres).trans (residue_zero .ter5).symm)
  · rintro rfl
    rw [symAdd_zero rfl, symAdd_zero rfl]

end

/-! ### ADD and SUB with legal immediates -/

theorem setResult_symCode (w : Sym) (s : State) :
    finish (setResult ((symCode w).setWidth 32) s) =
      .next { s with result := BitVec.ofNat 32 (symCode w).toNat } := by
  rw [BitVec.ofNat_toNat]
  rfl

/-- The common shape of ADD and SUB (R183, R184): no span, no cell and no count, so no check but the immediates'. -/
theorem symbolOp_legal {i : Instr} {s : State} {v u : SymCode} {x y : Sym} (f : Sym → Sym → Sym)
    (hrow : useRow i = ⟨false, [], .none, [], []⟩) (hv : uncode s.params.enc v = some x)
    (hu : uncode s.params.enc u = some y) :
    finish (symbolOp (usesOf i) f v u s.params.enc s) =
      .next { s with result := BitVec.ofNat 32 (symCode (f x y)).toNat } := by
  rw [symbolOp, immediate_some hv, immediate_some hu,
    framed_single _ _ (by simp [hrow]) (by simp [hrow]) (by simp [hrow]) (by simp [hrow]), setResult_symCode]

end Sys2Proof.Machine

/-!
The statements about symbol arithmetic (42_symbol_arithmetic.md): the laws of add and sub, and the commands ADD and SUB.
-/

namespace Sys2Proof.Machine

open Sys2Proof

/-- Settles O31, by the laws of the residues modulo 2 and 3. -/
theorem symbolAlgebraLaws : Obligations.SymbolAlgebraLaws := by
  intro e x y z hx hy hz m
  have hm : m = (modulus e : Int) := by cases e <;> rfl
  refine ⟨inAlphabet_symAdd e x y, inAlphabet_symSub e x y, hm ▸ symAdd_congruent hx hy,
    hm ▸ symSub_congruent hx hy, symSub_symAdd hx hy, symAdd_symSub hx hy, symAdd_comm hx hy, symAdd_assoc hx hy hz,
    symAdd_zero hx, symSub_zero hx, symSub_self hx, ?_, ?_⟩
  · rintro rfl
    exact ⟨rfl, symSub_symAdd hx hy⟩
  · rintro rfl
    exact ⟨toInt_balance _, toInt_balance _, symAdd_three_times x y, symAdd_twice_eq_iff x y⟩

/-- Settles O50: ADD and SUB are one command with add or sub put in. -/
theorem addSubWriteResult : Obligations.AddSubWriteResult := by
  intro s v u x y hv hu
  exact ⟨symbolOp_legal (i := .add v u) _ rfl hv hu, symbolOp_legal (i := .sub v u) _ rfl hv hu⟩

end Sys2Proof.Machine

/-!
SUPPORT. The feedback combinators as one loop (43_feedback_combinators.md R190): what its first `k` positions leave
behind (`MixDone`), one more position on legal words and on an illegal one, and each combinator with its checks passed.
-/

namespace Sys2Proof.Machine

open Sys2Proof

/-! ### The data flow (R191 to R198) -/

/-- Output symbol `k`, of the symbols before the command. -/
def mixOutput (s : State) (x : MixShape) (k : Nat) : Sym :=
  x.output s.params.enc (spanSym s x.data k) (spanSym s .s k)

/-- New state symbol `k`, of the symbols before the command. -/
def mixState (s : State) (x : MixShape) (k : Nat) : Sym :=
  x.newState s.params.enc (spanSym s x.data k) (spanSym s .s k)

/-- One position of the loop of a shape, on the spans of a state. -/
abbrev mixStep (s : State) (x : MixShape) : Nat → Cmd Unit :=
  feedbackStep s.params.enc (operand s x.data) (operand s .s) (operand s x.out) (x.output s.params.enc)
    (x.newState s.params.enc)

/-- The three words of position `k` are legal. -/
abbrev MixLegalAt (s : State) (x : MixShape) (k : Nat) : Prop :=
  LegalAt s (wordOf s x.data k) ∧ LegalAt s (wordOf s .s k) ∧ LegalAt s (wordOf s x.out k)

theorem inAlphabet_spanSym (s : State) (sp : SpanSel) (k : Nat) : inAlphabet s.params.enc (spanSym s sp k) = true :=
  inAlphabet_symIn _ _ _

/-- The functions of the data flow stay inside the alphabet. -/
theorem inAlphabet_mix {i : Instr} {x : MixShape} (hi : mixOf i = some x) (s : State) (k : Nat) :
    inAlphabet s.params.enc (mixOutput s x k) = true ∧ inAlphabet s.params.enc (mixState s x k) = true := by
  cases i <;> simp only [mixOf, mixShape, reduceCtorEq, Option.some.injEq] at hi <;> subst hi <;>
    simp [mixOutput, mixState, dataSym, inAlphabet_spanSym]

/-- The encrypting combinators add, the decrypting ones subtract; one of the two keeps its data as the new state, the
other its output. -/
theorem mixOf_encrypt_decrypt {i k : Instr} {x y : MixShape}
    (hik : (i, k) ∈ [(Instr.setxa, Instr.setxs), (.setya, .setys), (.setxam, .setxsm), (.setyam, .setysm),
      (.encryptOw, .decryptOw), (.encryptX, .decryptX), (.encryptOwM, .decryptOwM), (.encryptXM, .decryptXM)])
    (hi : mixOf i = some x) (hk : mixOf k = some y) :
    x.output = symAdd ∧ y.output = symSub ∧
      ((x.newState = dataSym ∧ y.newState = symSub) ∨ (x.newState = symAdd ∧ y.newState = dataSym)) := by
  simp only [List.mem_cons, List.not_mem_nil, or_false, Prod.mk.injEq] at hik
  rcases hik with ⟨rfl, rfl⟩ | ⟨rfl, rfl⟩ | ⟨rfl, rfl⟩ | ⟨rfl, rfl⟩ | ⟨rfl, rfl⟩ | ⟨rfl, rfl⟩ | ⟨rfl, rfl⟩ |
    ⟨rfl, rfl⟩ <;> cases hi <;> cases hk <;> exact ⟨rfl, rfl, by simp⟩

/-- A decrypting data flow, fed with what the encrypting one gave, gives back its data and arrives at its new state
(R200). -/
theorem mixShape_inverse {x y : MixShape} {e : Enc} {d v : Sym} (hf : x.output = symAdd) (hf' : y.output = symSub)
    (hg : (x.newState = dataSym ∧ y.newState = symSub) ∨ (x.newState = symAdd ∧ y.newState = dataSym))
    (hd : inAlphabet e d = true) (hv : inAlphabet e v = true) :
    y.output e (x.output e d v) v = d ∧ y.newState e (x.output e d v) v = x.newState e d v := by
  have hundo : symSub e (symAdd e d v) v = d := symSub_symAdd hd hv
  rw [hf, hf']
  refine ⟨hundo, ?_⟩
  rcases hg with ⟨hg, hg'⟩ | ⟨hg, hg'⟩
  · rw [hg, hg']
    exact hundo
  · rw [hg, hg']
    rfl

/-! ### The first positions done -/

/-- The first `k` positions are done: their output and state symbols are those of the data flow; every other symbol,
every word that holds none of them, and the legality of every word is as before. -/
structure MixDone (s : State) (x : MixShape) (k : Nat) (m : Memory 8) : Prop where
  output : ∀ i, i < k → symIn s.params.enc m (absOf s x.out + i) = mixOutput s x i
  state : ∀ i, i < k → symIn s.params.enc m (absOf s .s + i) = mixState s x i
  outside : ∀ q, ¬(absOf s x.out ≤ q ∧ q < absOf s x.out + k) → ¬(absOf s .s ≤ q ∧ q < absOf s .s + k) →
    symIn s.params.enc m q = symAt s q
  words : ∀ c, (∀ i, i < k → c ≠ wordOf s x.out i ∧ c ≠ wordOf s .s i) → Memory.read m c = memByte s c
  legality : ∀ c, legalIn s.params.enc m c ↔ LegalAt s c

theorem mixDone_zero (s : State) (x : MixShape) : MixDone s x 0 s.mem :=
  ⟨fun _ h => absurd h (Nat.not_lt_zero _), fun _ h => absurd h (Nat.not_lt_zero _), fun _ _ _ => rfl,
    fun _ _ => rfl, fun _ => Iff.rfl⟩

section
variable {s : State} {i : Instr} {x : MixShape} {n k : Nat} {m : Memory 8}

/-- A symbol that no position before wrote is read as it was before the command. -/
theorem MixDone.getSym_kept {sp : SpanSel} (h : MixDone s x k m) (hs : SpanFits s sp n) (hk : k < n)
    (hl : LegalAt s (wordOf s sp k)) (hout : SameSymbols s sp x.out ∨ Apart s sp x.out n)
    (hstate : SameSymbols s sp .s ∨ Apart s sp .s n) :
    getSym s.params.enc (operand s sp) k (withMem s m) = .done (spanSym s sp k) (withMem s m) := by
  have hsym : symIn s.params.enc m (absOf s sp + k) = spanSym s sp k := h.outside _ (by omega) (by omega)
  rw [← hsym]
  exact getSym_legal (s := withMem s m) (wordOf_lt hs hk) ((h.legality _).mpr hl)

theorem MixDone.getSym_data (h : MixDone s x k m) (hfit : MixSpansFit s x.data x.out n) (hk : k < n)
    (hl : LegalAt s (wordOf s x.data k)) :
    getSym s.params.enc (operand s x.data) k (withMem s m) = .done (spanSym s x.data k) (withMem s m) :=
  have ⟨_, hdata, _, hsd, _, hdo⟩ := hfit
  h.getSym_kept hdata hk hl hdo (.inr hsd.symm)

theorem MixDone.getSym_state (h : MixDone s x k m) (hfit : MixSpansFit s x.data x.out n) (hk : k < n)
    (hl : LegalAt s (wordOf s .s k)) :
    getSym s.params.enc (operand s .s) k (withMem s m) = .done (spanSym s .s k) (withMem s m) :=
  have ⟨hstate, _, _, _, hso, _⟩ := hfit
  h.getSym_kept hstate hk hl (.inr hso) (.inl rfl)

/-- A symbol put into a legal word changes the legality of no word. -/
theorem legalIn_putIn_word {sp : SpanSel} (v : Sym) (hl : legalIn s.params.enc m (wordOf s sp k)) (c : Nat) :
    legalIn s.params.enc (putIn s.params.enc m (absOf s sp + k) v) c ↔ legalIn s.params.enc m c := by
  rw [wordOf, Operand.wa_eq] at hl
  exact legalIn_putIn m _ c v hl

theorem read_putIn_word {sp : SpanSel} {c : Nat} (v : Sym) (hc : c ≠ wordOf s sp k) :
    Memory.read (putIn s.params.enc m (absOf s sp + k) v) c = Memory.read m c := by
  rw [wordOf, Operand.wa_eq] at hc
  exact read_putIn_ne _ m v hc

/-- One more position: its output symbol written, then its state symbol. -/
theorem MixDone.write (hi : mixOf i = some x) (hso : Apart s .s x.out n) (hk : k < n) (h : MixDone s x k m)
    (hls : LegalAt s (wordOf s .s k)) (hlo : LegalAt s (wordOf s x.out k)) :
    MixDone s x (k + 1) (putIn s.params.enc (putIn s.params.enc m (absOf s x.out + k) (mixOutput s x k))
      (absOf s .s + k) (mixState s x k)) := by
  obtain ⟨hao, has⟩ := inAlphabet_mix hi s k
  have hput := legalIn_putIn_word (mixOutput s x k) ((h.legality _).mpr hlo)
  refine ⟨fun p hp => ?_, fun p hp => ?_, fun q hqo hqs => ?_, fun c hc => ?_, fun c => ?_⟩
  · rw [symIn_putIn _ _ _ has, if_neg (by omega), symIn_putIn _ _ _ hao]
    by_cases hpk : p = k
    · rw [hpk, if_pos rfl]
    · rw [if_neg (by omega), h.output p (by omega)]
  · rw [symIn_putIn _ _ _ has]
    by_cases hpk : p = k
    · rw [hpk, if_pos rfl]
    · rw [if_neg (by omega), symIn_putIn _ _ _ hao, if_neg (by omega), h.state p (by omega)]
  · rw [symIn_putIn _ _ _ has, if_neg (by omega), symIn_putIn _ _ _ hao, if_neg (by omega),
      h.outside q (by omega) (by omega)]
  · obtain ⟨hco, hcs⟩ := hc k (Nat.lt_succ_self k)
    rw [read_putIn_word _ hcs, read_putIn_word _ hco, h.words c fun p hp => hc p (Nat.lt_succ_of_lt hp)]
  · rw [legalIn_putIn_word _ ((hput _).mpr ((h.legality _).mpr hls)), hput, h.legality]

/-- The symbols of the positions done, as the statements name them. -/
theorem MixDone.symbols (h : MixDone s x k m) (p : Nat) (hp : p < k) :
    spanSym (withMem s m) x.out p = mixOutput s x p ∧ spanSym (withMem s m) .s p = mixState s x p := by
  have habs (sp : SpanSel) : absOf (withMem s m) sp = absOf s sp := by
    rw [absOf, withMem_operand, withMem_params, absOf]
  rw [spanSym, spanSym, habs, habs]
  exact ⟨h.output p hp, h.state p hp⟩

/-! ### One position -/

/-- A position whose three words are legal reads its two symbols as they were before the command. -/
theorem MixDone.step (hi : mixOf i = some x) (hfit : MixSpansFit s x.data x.out n) (hk : k < n)
    (h : MixDone s x k m) (hl : MixLegalAt s x k) :
    ∃ m', mixStep s x k (withMem s m) = .done () (withMem s m') ∧ MixDone s x (k + 1) m' := by
  obtain ⟨hld, hls, hlo⟩ := hl
  have hdata := h.getSym_data hfit hk hld
  have hstate := h.getSym_state hfit hk hls
  obtain ⟨hfs, -, hfo, -, hso, -⟩ := hfit
  have hmo := (h.legality _).mpr hlo
  have hms := (legalIn_putIn_word (mixOutput s x k) hmo _).mpr ((h.legality _).mpr hls)
  have hput := putSym_legal (s := withMem s m) (mixOutput s x k) (wordOf_lt hfo hk) hmo
  exact ⟨_, (Cmd.bind_done hdata).trans <| (Cmd.bind_done hstate).trans <| (Cmd.bind_done hput).trans <|
    putSym_legal (s := withMem s _) (mixState s x k) (wordOf_lt hfs hk) hms, h.write hi hso hk hls hlo⟩

/-- The error of a position: of the data word if that is illegal, else of the state word, else of the output word, as
the position reads them. -/
def mixErr (s : State) (x : MixShape) (k : Nat) : Err :=
  if LegalAt s (wordOf s x.data k) then firstIllegalErr s .s x.out k else illegalWordErr s x.data k

theorem mixErr_latched {t : State} (h : t.status = s.status) :
    (¬LegalAt s (wordOf s x.data k) → IllegalWordLatched s (takeError (mixErr s x k) t) x.data k) ∧
      (LegalAt s (wordOf s x.data k) → FirstIllegalLatched s (takeError (mixErr s x k) t) .s x.out k) := by
  refine ⟨fun hx => ?_, fun hl => ?_⟩
  · rw [mixErr, if_neg hx]
    exact illegalWordLatched_takeError h
  · rw [mixErr, if_pos hl]
    exact firstIllegalLatched_takeError h

/-- A position with an illegal word raises before it writes. -/
theorem MixDone.step_raised (hfit : MixSpansFit s x.data x.out n) (hk : k < n) (h : MixDone s x k m)
    (hx : ¬MixLegalAt s x k) : mixStep s x k (withMem s m) = .raised (mixErr s x k) (withMem s m) := by
  have hread := h.getSym_data hfit hk
  obtain ⟨hstate, hdata, hout, -⟩ := hfit
  by_cases hld : LegalAt s (wordOf s x.data k)
  · rw [mixErr, if_pos hld]
    refine (Cmd.bind_done (hread hld)).trans (bind_getSym_firstIllegal hstate hk (h.legality _) fun v hls => ?_)
    have hlo : ¬LegalAt s (wordOf s x.out k) := fun hlo => hx ⟨hld, hls, hlo⟩
    exact Cmd.bind_raised (putSym_illegal (s := withMem s m) _ (wordOf_lt hout hk) (mt (h.legality _).mp hlo))
  · rw [mixErr, if_neg hld]
    exact Cmd.bind_raised (getSym_illegal (s := withMem s m) (wordOf_lt hdata hk) (mt (h.legality _).mp hld))

/-! ### The command -/

/-- The state lies apart from both spans; the pair X, Y, where a combinator uses both, is its data and its output. -/
theorem overlapError_mix (hi : mixOf i = some x) (hfit : MixSpansFit s x.data x.out (countN s)) :
    overlapError (usesOf i) s = none := by
  obtain ⟨hcounted, -, hspans, hsx, hsy, hxy⟩ := usesOf_mix hi
  obtain ⟨-, -, -, hsd, hso, hdo⟩ := hfit
  have hcount : (usesOf i).count s = countN s := if_pos hcounted
  have hapart {sp : SpanSel} (hsp : sp ∈ (usesOf i).spans) (hne : sp ≠ .s) : Apart s .s sp (countN s) := by
    rcases (hspans sp).mp hsp with rfl | rfl | rfl
    · exact absurd rfl hne
    · exact hsd
    · exact hso
  simp only [overlapError_none_iff, clashes_eq_false, pairClash_eq_false, hsx, hsy, hcount]
  refine ⟨fun _ h => hapart h (by decide), fun _ h => hapart h (by decide), fun hx hy => ?_⟩
  have hpair : (x.data = .x ∧ x.out = .y) ∨ (x.data = .y ∧ x.out = .x) := by
    have := (hspans .x).mp hx
    have := (hspans .y).mp hy
    grind
  rcases hpair with ⟨hd, ho⟩ | ⟨hd, ho⟩
  · rw [hxy (by simp [hd, ho]), ← hd, ← ho]
    exact hdo
  · rw [hxy (by simp [hd, ho]), ← hd, ← ho]
    exact hdo.imp Eq.symm Or.symm

/-- The frame lets a combinator pass whose spans lie as its row of 30_encoding.md R105 asks. -/
theorem exec_mix_checked (hi : mixOf i = some x) (hn : s.n ≠ 0) (hfit : MixSpansFit s x.data x.out (countN s)) :
    exec i s = finish (Cmd.forUp (mixStep s x) (countN s) 0 s) := by
  obtain ⟨hcounted, hcells, hspans, -⟩ := usesOf_mix hi
  have ⟨hstate, hdata, hout, _⟩ := hfit
  have hcount : (usesOf i).count s = countN s := if_pos hcounted
  have hbounds : boundsError (usesOf i) s = none := by
    refine (boundsError_none_iff _ _).mpr ⟨fun sp hsp => ?_, absurd hcells⟩
    rw [hcount, ← spanFits_iff_valid]
    rcases (hspans sp).mp hsp with rfl | rfl | rfl
    · exact hstate
    · exact hdata
    · exact hout
  rw [exec_mix hi, framed_body _ _ (fun _ => hn) hbounds (overlapError_mix hi hfit), hcount]
  rfl

/-- On legal words all positions are done. -/
theorem exec_mix_done (hi : mixOf i = some x) (hn : s.n ≠ 0) (hfit : MixSpansFit s x.data x.out (countN s))
    (hl : ∀ k, k < countN s → MixLegalAt s x k) :
    ∃ m, exec i s = .next (withMem s m) ∧ MixDone s x (countN s) m := by
  obtain ⟨m, hrun, hm⟩ := Cmd.forUp_done (s := s) (MixDone s x) (countN s) 0 s.mem
    (fun k m _ hk h => h.step hi hfit (by omega) (hl k (by omega))) (mixDone_zero s x)
  exact ⟨m, by rw [exec_mix_checked hi hn hfit]; exact congrArg finish hrun, Nat.zero_add (countN s) ▸ hm⟩

/-- At the first position with an illegal word the command ends, with the positions before it done. -/
theorem exec_mix_raised {j : Nat} (hi : mixOf i = some x) (hn : s.n ≠ 0)
    (hfit : MixSpansFit s x.data x.out (countN s)) (hj : j < countN s) (hl : ∀ k, k < j → MixLegalAt s x k)
    (hx : ¬MixLegalAt s x j) :
    ∃ m, exec i s = .next (takeError (mixErr s x j) (withMem s m)) ∧ MixDone s x j m := by
  obtain ⟨m, hrun, hm⟩ := Cmd.forUp_raised (s := s) (MixDone s x) j (MixDone s x j) (countN s) 0 s.mem
    (Nat.zero_le j) (by omega) (fun k m _ hk h => h.step hi hfit (Nat.lt_trans hk hj) (hl k hk))
    (fun m h => ⟨m, h.step_raised hfit hj hx, h⟩) (mixDone_zero s x)
  exact ⟨m, by rw [exec_mix_checked hi hn hfit]; exact congrArg finish hrun, hm⟩

end

end Sys2Proof.Machine

/-!
SUPPORT. Two operands that name the same symbols (20_memory.md R77): an access differs at most in the span that its error
names, so what pseudocode does to the state is the same with either.
-/

namespace Sys2Proof.Machine

open Sys2Proof

/-- Two ends that leave the same state and give the same value; their errors may differ. -/
def Res.SameEffect {α : Type} (r r' : Res α) : Prop :=
  (∃ a t, r = .done a t ∧ r' = .done a t) ∨ (∃ e e' t, r = .raised e t ∧ r' = .raised e' t) ∨
    ∃ f, r = .absent f ∧ r' = .absent f

/-- Two pieces of pseudocode that end so from every state. -/
def Cmd.SameEffect {α : Type} (c c' : Cmd α) : Prop := ∀ s, (c s).SameEffect (c' s)

section
variable {α β : Type}

theorem Cmd.SameEffect.refl (c : Cmd α) : c.SameEffect c := by
  intro s
  cases h : c s with
  | done a t => exact .inl ⟨a, t, rfl, rfl⟩
  | raised e t => exact .inr (.inl ⟨e, e, t, rfl, rfl⟩)
  | absent f => exact .inr (.inr ⟨f, rfl, rfl⟩)

theorem Cmd.SameEffect.bind {c c' : Cmd α} {k k' : α → Cmd β} (hc : c.SameEffect c')
    (hk : ∀ a, (k a).SameEffect (k' a)) : (Cmd.bind c k).SameEffect (Cmd.bind c' k') := by
  intro s
  rcases hc s with ⟨a, t, h, h'⟩ | ⟨e, e', t, h, h'⟩ | ⟨f, h, h'⟩
  · rw [Cmd.bind_done h, Cmd.bind_done h']
    exact hk a t
  · exact .inr (.inl ⟨e, e', t, Cmd.bind_raised h, Cmd.bind_raised h'⟩)
  · exact .inr (.inr ⟨f, Cmd.bind_absent h, Cmd.bind_absent h'⟩)

theorem Cmd.SameEffect.forUp {body body' : Nat → Cmd Unit} (h : ∀ k, (body k).SameEffect (body' k)) :
    ∀ count k, (Cmd.forUp body count k).SameEffect (Cmd.forUp body' count k)
  | 0, _ => .refl _
  | count + 1, k => (h k).bind fun _ => Cmd.SameEffect.forUp h count (k + 1)

/-- An illegal word raises whatever the operand, and the operand only names the span in the error. -/
theorem sameEffect_decodeAt (e : Enc) (o o' : Operand) (addr : Nat) :
    (decodeAt e o addr).SameEffect (decodeAt e o' addr) := by
  refine (Cmd.SameEffect.refl (memRead addr)).bind fun w => ?_
  split
  · exact .refl _
  · exact fun s => .inr (.inl ⟨_, _, s, rfl, rfl⟩)

section
variable {e : Enc} {o o' : Operand} (h : o.abs e = o'.abs e) (k : Nat)
include h

theorem sameEffect_getSym : (getSym e o k).SameEffect (getSym e o' k) := by
  rw [getSym, getSym, o.wa_eq, o'.wa_eq, o.ix_eq, o'.ix_eq, h]
  exact (sameEffect_decodeAt e o o' _).bind fun _ => .refl _

theorem sameEffect_putSym (v : Sym) : (putSym e o k v).SameEffect (putSym e o' k v) := by
  rw [putSym, putSym, o.wa_eq, o'.wa_eq, o.ix_eq, o'.ix_eq, h]
  exact (sameEffect_decodeAt e o o' _).bind fun _ => .refl _

end

theorem sameEffect_feedbackStep {e : Enc} {d d' o o' : Operand} (hd : d.abs e = d'.abs e) (ho : o.abs e = o'.abs e)
    (st : Operand) (f g : Sym → Sym → Sym) (k : Nat) :
    (feedbackStep e d st o f g k).SameEffect (feedbackStep e d' st o' f g k) :=
  (sameEffect_getSym hd k).bind fun _ => (Cmd.SameEffect.refl _).bind fun _ =>
    (sameEffect_putSym ho k _).bind fun _ => .refl _

end

/-- Taking an error leaves `M` as the pseudocode left it. -/
theorem Res.SameEffect.mem_eq {r r' : Res Unit} {t u : State} (h : r.SameEffect r') (ht : finish r = .next t)
    (hu : finish r' = .next u) : t.mem = u.mem := by
  rcases h with ⟨_, v, rfl, rfl⟩ | ⟨e, e', v, rfl, rfl⟩ | ⟨f, rfl, rfl⟩
  · cases ht; cases hu; rfl
  · cases ht; cases hu; rfl
  · cases ht

/-- Combinators of one data flow, on spans that name the same symbols, leave the same memory. -/
theorem exec_mix_mem_eq {s t u : State} {i k : Instr} {d o d' o' : SpanSel} {f g : Enc → Sym → Sym → Sym}
    (hi : mixOf i = mixShape d o f g) (hk : mixOf k = mixShape d' o' f g) (hn : s.n ≠ 0)
    (hfit : MixSpansFit s d o (countN s)) (hfit' : MixSpansFit s d' o' (countN s)) (hdata : SameSymbols s d d')
    (hout : SameSymbols s o o') (ht : exec i s = .next t) (hu : exec k s = .next u) : t.mem = u.mem := by
  rw [exec_mix_checked (x := ⟨d, o, f, g⟩) hi hn hfit] at ht
  rw [exec_mix_checked (x := ⟨d', o', f, g⟩) hk hn hfit'] at hu
  exact (Cmd.SameEffect.forUp (sameEffect_feedbackStep hdata hout _ _ _) _ 0 s).mem_eq ht hu

/-- A two-buffer command and its in-place form have one data flow (R195 to R198). -/
theorem mixOf_inPlace {i k : Instr}
    (hik : (i, k) ∈ [(Instr.setxa, Instr.setxam), (.setxs, .setxsm), (.setya, .setyam), (.setys, .setysm)]) :
    ∃ d o f g, mixOf i = mixShape d o f g ∧ mixOf k = mixShape .x .x f g ∧
      ((d = .x ∧ o = .y) ∨ (d = .y ∧ o = .x)) := by
  simp only [List.mem_cons, List.not_mem_nil, or_false, Prod.mk.injEq] at hik
  rcases hik with ⟨rfl, rfl⟩ | ⟨rfl, rfl⟩ | ⟨rfl, rfl⟩ | ⟨rfl, rfl⟩ <;> exact ⟨_, _, _, _, rfl, rfl, by decide⟩

end Sys2Proof.Machine

/-!
The statements about the feedback combinators (43_feedback_combinators.md): what they do on legal words, where an illegal
word stops them, the two-buffer form on identical spans, and decryption as the inverse of encryption.
-/

namespace Sys2Proof.Machine

open Sys2Proof

/-- Settles O51: the loop runs to its end. -/
theorem combinatorsMixSpans : Obligations.CombinatorsMixSpans := by
  intro s i x hi hn hfit hls hld hlo
  obtain ⟨m, hrun, hm⟩ := exec_mix_done hi hn hfit fun k hk => ⟨hld k hk, hls k hk, hlo k hk⟩
  exact ⟨_, hrun, rfl, hm.symbols, hm.outside, hm.words⟩

/-- Settles O52: the loop stops at position `j` with the positions before it done. -/
theorem combinatorsStopAtIllegalWord : Obligations.CombinatorsStopAtIllegalWord := by
  intro s i x j hi hn hfit hj hl hx
  obtain ⟨m, hrun, hm⟩ := exec_mix_raised hi hn hfit hj hl hx
  obtain ⟨hdata, hother⟩ := mixErr_latched (x := x) (k := j) (s := s) (t := withMem s m) rfl
  exact ⟨_, hrun, onlyErrorRegsAndMem_takeError _ s m, hdata, hother, hm.symbols, hm.outside, hm.words⟩

/-- Settles O53: with either of two operands that name the same symbols every access has the same effect. -/
theorem aliasedTwoBufferEqualsInPlace : Obligations.AliasedTwoBufferEqualsInPlace := by
  intro s t u i k hik hn hfit hsame ht hu
  obtain ⟨d, o, f, g, hi, hk, hdo⟩ := mixOf_inPlace hik
  have ⟨hs, hx, hy, hsx, hsy, _⟩ := hfit
  have hplace : MixSpansFit s .x .x (countN s) := ⟨hs, hx, hx, hsx, hsx, .inl rfl⟩
  rcases hdo with ⟨rfl, rfl⟩ | ⟨rfl, rfl⟩
  · exact exec_mix_mem_eq hi hk hn hfit hplace rfl hsame.symm ht hu
  · exact exec_mix_mem_eq hi hk hn ⟨hs, hy, hx, hsy, hsx, .inl hsame.symm⟩ hplace hsame.symm rfl ht hu

/-- Settles O54: the two data flows are inverse to each other, position by position. -/
theorem decryptUndoesEncrypt : Obligations.DecryptUndoesEncrypt := by
  intro s t s' u i k x y hik hi hk hp hn' hn hfit hls hld hlo hfit' hls' hld' hlo' hstate ht hdata hu j hj
  have hcount : countN s' = countN s := congrArg BitVec.toNat hn'
  obtain ⟨t', ht', -, hsyms, -⟩ := combinatorsMixSpans s i x hi hn hfit hls hld hlo
  rw [← hcount] at hfit' hls' hld' hlo'
  obtain ⟨u', hu', -, hsyms', -⟩ := combinatorsMixSpans s' k y hk (hn' ▸ hn) hfit' hls' hld' hlo'
  cases ht.symm.trans ht'
  cases hu.symm.trans hu'
  obtain ⟨hto, hts⟩ := hsyms j hj
  obtain ⟨huo, hus⟩ := hsyms' j (hcount ▸ hj)
  obtain ⟨hf, hf', hg⟩ := mixOf_encrypt_decrypt hik hi hk
  obtain ⟨hout, hnew⟩ := mixShape_inverse hf hf' hg (inAlphabet_spanSym s x.data j) (inAlphabet_spanSym s .s j)
  rw [hp, hstate j hj, hdata j hj, hto] at huo hus
  exact ⟨huo.trans hout, hus.trans (hnew.trans hts.symm)⟩

end Sys2Proof.Machine

/-!
SUPPORT. The counted commands of two span groups and no cell: with the spans inside their arrays and apart such a
command runs its body, and a span that leaves its array makes all commands of one pair of groups end in the same state.
The sponge commands (44_sponge_ops.md) by either of their names.
-/

namespace Sys2Proof.Machine

open Sys2Proof

/-! ### The frame of a command of two span groups (30_encoding.md R105, R111) -/

/-- The row of a counted command that uses two span groups and no cell. -/
abbrev PairRow (i : Instr) (a b : SpanSel) : Prop :=
  (useRow i).counted = true ∧ (useRow i).spans = [a, b] ∧ (useRow i).cells = .none

section
variable {s : State} {i k : Instr} {a b : SpanSel}

/-- Spans that lie apart satisfy every overlap rule (20_memory.md R77). -/
theorem overlapError_pair (hi : PairRow i a b) (hap : Apart s a b (countN s)) : overlapError (usesOf i) s = none := by
  obtain ⟨hcounted, hspans, -⟩ := hi
  obtain ⟨-, hused, -⟩ := usesOf_agrees i
  refine overlapError_eq_none fun c hc d hd hcd => ?_
  rw [hused] at hc hd
  rw [← Bool.not_eq_true, pairClash_iff s hcounted hcd hc hd, not_not]
  rw [hspans] at hc hd
  rcases PairListed.of_operands hcd hc hd with h | h <;> cases List.mem_singleton.mp h
  · exact .inl hap
  · exact .inl hap.symm

theorem boundsError_pair (hi : PairRow i a b) (hsa : SpanFits s a (countN s)) (hsb : SpanFits s b (countN s)) :
    boundsError (usesOf i) s = none := by
  obtain ⟨hcounted, hspans, hcells⟩ := hi
  refine boundsError_eq_none ?_ (absurd hcells)
  rw [hspans, UseRow.count, if_pos hcounted]
  exact List.forall_mem_cons.mpr ⟨hsa, List.forall_mem_singleton.mpr hsb⟩

theorem framed_pair (hi : PairRow i a b) (hn : s.n ≠ 0) (hsa : SpanFits s a (countN s)) (hsb : SpanFits s b (countN s))
    (hap : Apart s a b (countN s)) (z : Cmd Unit) (body : Nat → Cmd Unit) :
    framed (usesOf i) z body s = body (countN s) s := by
  rw [framed_body _ _ (fun _ => hn) (boundsError_pair hi hsa hsb) (overlapError_pair hi hap), usesOf_count,
    UseRow.count, if_pos hi.1]

/-- The bounds checks depend on the groups, the count and the cells, not on the overlap rule. -/
theorem boundsError_pair_congr (hi : PairRow i a b) (hk : PairRow k a b) :
    boundsError (usesOf i) s = boundsError (usesOf k) s := by
  obtain ⟨hcounted, hspans, hcells⟩ := hi
  obtain ⟨hcounted', hspans', hcells'⟩ := hk
  obtain ⟨-, hused, hc⟩ := usesOf_agrees i
  obtain ⟨-, hused', hc'⟩ := usesOf_agrees k
  simp only [boundsError, usesOf_count, UseRow.count, hused, hused', hc, hc', hcounted, hcounted', hspans, hspans',
    hcells, hcells', ne_eq, not_true, false_and, if_false]

/-- A failed bounds check ends a command of two groups before anything else. -/
theorem exec_pair_refused {e : Err} (hi : PairRow i a b) (hn : s.n ≠ 0) (he : boundsError (usesOf i) s = some e) :
    exec i s = .next (takeError e s) := by
  obtain ⟨body, hexec⟩ := exec_counted hi.1 s
  rw [hexec, framed_bounds _ _ (fun h => hn h.2) he, finish_raised]

/-- Two commands of one pair of groups: both find the spans inside their arrays, or both end in the same state. -/
theorem spansFit_or_refused (hi : PairRow i a b) (hk : PairRow k a b) (hn : s.n ≠ 0) :
    (SpanFits s a (countN s) ∧ SpanFits s b (countN s)) ∨
      ∃ e, exec i s = .next (takeError e s) ∧ exec k s = .next (takeError e s) := by
  cases he : boundsError (usesOf i) s with
  | some e => exact .inr ⟨e, exec_pair_refused hi hn he, exec_pair_refused hk hn (boundsError_pair_congr hi hk ▸ he)⟩
  | none =>
    obtain ⟨hcounted, hspans, -⟩ := hi
    obtain ⟨-, hused, -⟩ := usesOf_agrees i
    have hvalid := ((boundsError_none_iff _ _).mp he).1
    rw [hused, hspans, usesOf_count, UseRow.count, if_pos hcounted] at hvalid
    exact .inl ⟨(spanFits_iff_valid _ _ _).mpr (hvalid a (.head _)),
      (spanFits_iff_valid _ _ _).mpr (hvalid b (.tail _ (.head _)))⟩

end

/-! ### The sponge commands with their checks passed -/

section
variable {s : State} {i : Instr}

theorem exec_adds_name (hi : i = .adds ∨ i = .absorbX) : exec i s = exec .adds s := by
  rcases hi with rfl | rfl <;> rfl

theorem exec_adds_checked (hi : i = .adds ∨ i = .absorbX) (hn : s.n ≠ 0) (hss : SpanFits s .s (countN s))
    (hsx : SpanFits s .x (countN s)) (hap : Apart s .s .x (countN s)) :
    exec i s = finish (Cmd.forUp (absorbStep s.params.enc (operand s .s) (operand s .x)) (countN s) 0 s) := by
  rw [exec_adds_name hi]
  exact congrArg finish (framed_pair (i := .adds) ⟨rfl, rfl, rfl⟩ hn hss hsx hap _ _)

theorem exec_sqzow_name (hi : i = .sqzow ∨ i = .squeezeOw) : exec i s = exec .sqzow s := by
  rcases hi with rfl | rfl <;> rfl

theorem exec_sqzow_checked (hi : i = .sqzow ∨ i = .squeezeOw) (hn : s.n ≠ 0) (hss : SpanFits s .s (countN s))
    (hsy : SpanFits s .y (countN s)) (hap : Apart s .s .y (countN s)) :
    exec i s = finish (Cmd.bind (copyProc s.params.enc (countN s) (operand s .s) (operand s .y))
      (fun _ => fillzProc s.params.enc (countN s) (operand s .s)) s) := by
  rw [exec_sqzow_name hi]
  exact congrArg finish (framed_pair (i := .sqzow) ⟨rfl, rfl, rfl⟩ hn hss hsy hap _ _)

theorem exec_sqeow_name (hi : i = .sqeow ∨ i = .squeezeeqOw) : exec i s = exec .sqeow s := by
  rcases hi with rfl | rfl <;> rfl

theorem exec_sqeow_checked (hi : i = .sqeow ∨ i = .squeezeeqOw) (hn : s.n ≠ 0) (hss : SpanFits s .s (countN s))
    (hsx : SpanFits s .x (countN s)) (hap : Apart s .s .x (countN s)) :
    exec i s = finish (Cmd.bind (equProc s.params.enc (countN s) (operand s .s) (operand s .x))
      (fun r => Cmd.bind (fillzProc s.params.enc (countN s) (operand s .s)) fun _ => setResult (boolResult r)) s) := by
  rw [exec_sqeow_name hi]
  exact congrArg finish (framed_pair (i := .sqeow) ⟨rfl, rfl, rfl⟩ hn hss hsx hap _ _)

end

end Sys2Proof.Machine

/-!
SUPPORT. ADDS (44_sponge_ops.md R211) as a loop: its first positions rewrite the state by sums and keep every word legal
that was legal, so that ADDS can run again; what the state is after several runs.
-/

namespace Sys2Proof.Machine

open Sys2Proof

/-! ### The first positions -/

/-- The first `k` state symbols have become those of `f`; all else in `M` and the legality of every word are as
before. -/
structure StateWritten (s : State) (f : Nat → Sym) (k : Nat) (m : Memory 8) : Prop where
  written : SpanWritten s.params.enc (operand s .s) f k s.mem m
  legality : ∀ c, legalIn s.params.enc m c ↔ LegalAt s c

/-- The sum that ADDS makes state symbol `k`. -/
def addsSum (s : State) (k : Nat) : Sym := symAdd s.params.enc (spanSym s .s k) (spanSym s .x k)

theorem stateWritten_zero (s : State) (f : Nat → Sym) : StateWritten s f 0 s.mem :=
  ⟨spanWritten_zero _ _ _ _, fun _ => Iff.rfl⟩

section
variable {s : State} {f : Nat → Sym} {n k j : Nat} {m : Memory 8}

/-- A symbol that is none of the first `k` of the state is as it was. -/
theorem StateWritten.symbol_kept (h : StateWritten s f k m) {q : Nat} (hq : ¬(absOf s .s ≤ q ∧ q < absOf s .s + k)) :
    symIn s.params.enc m q = symAt s q := h.written.outside q hq

/-- So is every symbol of a span apart from the state, -/
theorem StateWritten.symbol_apart {sp : SpanSel} (h : StateWritten s f k m) (hap : Apart s .s sp n) (hk : k ≤ n)
    (hj : j < n) : symIn s.params.enc m (absOf s sp + j) = spanSym s sp j := h.symbol_kept (by omega)

/-- and a state symbol whose turn has not come. -/
theorem StateWritten.symbol_later (h : StateWritten s f k m) (hk : k ≤ j) :
    symIn s.params.enc m (absOf s .s + j) = spanSym s .s j := h.symbol_kept (by omega)

section
variable (hss : SpanFits s .s n) (hsx : SpanFits s .x n) (hk : k < n) (h : StateWritten s (addsSum s) k m)
include hss hsx hk h

/-- One more position, both words legal. -/
theorem StateWritten.step (hap : Apart s .s .x n) (hl : BothLegalAt s .s .x k) :
    ∃ m', absorbStep s.params.enc (operand s .s) (operand s .x) k (withMem s m) = .done () (withMem s m') ∧
      StateWritten s (addsSum s) (k + 1) m' := by
  obtain ⟨hls, hlx⟩ := hl
  have hms := (h.legality _).mpr hls
  have hstate : getSym s.params.enc (operand s .s) k (withMem s m) = .done (spanSym s .s k) (withMem s m) := by
    rw [← h.symbol_later (Nat.le_refl k)]
    exact getSym_legal (s := withMem s m) (wordOf_lt hss hk) hms
  have hdata : getSym s.params.enc (operand s .x) k (withMem s m) = .done (spanSym s .x k) (withMem s m) := by
    rw [← h.symbol_apart hap (Nat.le_of_lt hk) hk]
    exact getSym_legal (s := withMem s m) (wordOf_lt hsx hk) ((h.legality _).mpr hlx)
  refine ⟨_, (Cmd.bind_done hstate).trans <| (Cmd.bind_done hdata).trans <|
    putSym_legal (s := withMem s m) (addsSum s k) (wordOf_lt hss hk) hms,
    h.written.putIn (inAlphabet_symAdd _ _ _), fun c => ?_⟩
  exact (legalIn_putIn_word _ hms c).trans (h.legality c)

/-- A position with an illegal word raises before it writes. -/
theorem StateWritten.step_raised (hx : ¬BothLegalAt s .s .x k) :
    absorbStep s.params.enc (operand s .s) (operand s .x) k (withMem s m) =
      .raised (firstIllegalErr s .s .x k) (withMem s m) :=
  bind_getSym_firstIllegal hss hk (h.legality _) fun _ hls => Cmd.bind_raised <|
    getSym_illegal (s := withMem s m) (wordOf_lt hsx hk) fun hlx => hx ⟨hls, (h.legality _).mp hlx⟩

end

/-! ### The command -/

section
variable {i : Instr} (hi : i = .adds ∨ i = .absorbX) (hn : s.n ≠ 0) (hss : SpanFits s .s (countN s))
  (hsx : SpanFits s .x (countN s)) (hap : Apart s .s .x (countN s))
include hi hn hss hsx hap

theorem exec_adds_done (hl : ∀ k, k < countN s → BothLegalAt s .s .x k) :
    ∃ m, exec i s = .next (withMem s m) ∧ StateWritten s (addsSum s) (countN s) m := by
  obtain ⟨m, hrun, hm⟩ := Cmd.forUp_done (s := s) (StateWritten s (addsSum s)) (countN s) 0 s.mem
    (fun k m _ hk h => h.step hss hsx (by omega) hap (hl k (by omega))) (stateWritten_zero s _)
  exact ⟨m, by rw [exec_adds_checked hi hn hss hsx hap]; exact congrArg finish hrun, Nat.zero_add (countN s) ▸ hm⟩

/-- At the first position with an illegal word ADDS ends, with the positions before it done. -/
theorem exec_adds_raised (hj : j < countN s) (hx : ¬BothLegalAt s .s .x j) (hl : ∀ k, k < j → BothLegalAt s .s .x k) :
    ∃ m, exec i s = .next (takeError (firstIllegalErr s .s .x j) (withMem s m)) ∧
      StateWritten s (addsSum s) j m := by
  obtain ⟨m, hrun, hm⟩ := Cmd.forUp_raised (s := s) (StateWritten s (addsSum s)) j (StateWritten s (addsSum s) j)
    (countN s) 0 s.mem (Nat.zero_le j) (by omega)
    (fun k m _ hk h => h.step hss hsx (Nat.lt_trans hk hj) hap (hl k hk))
    (fun m h => ⟨m, h.step_raised hss hsx hj hx, h⟩) (stateWritten_zero s _)
  exact ⟨m, by rw [exec_adds_checked hi hn hss hsx hap]; exact congrArg finish hrun, hm⟩

end

/-! ### ADDS several times with the same data (44_sponge_ops.md R226 (d)) -/

/-- State symbol `k` with data symbol `k` added `r` times. -/
def repeatedSum (s : State) (r k : Nat) : Sym := (fun v => symAdd s.params.enc v (spanSym s .x k))^[r] (spanSym s .s k)

theorem repeatedSum_succ (s : State) (r k : Nat) :
    repeatedSum s (r + 1) k = symAdd s.params.enc (repeatedSum s r k) (spanSym s .x k) :=
  Function.iterate_succ_apply' _ _ _

/-- A span rewritten twice holds the symbols of the second time. -/
theorem SpanWritten.trans {e : Enc} {o : Operand} {g : Nat → Sym} {m₀ m₁ m₂ : Memory 8}
    (h₁ : SpanWritten e o f k m₀ m₁) (h₂ : SpanWritten e o g k m₁ m₂) : SpanWritten e o g k m₀ m₂ :=
  ⟨h₂.inside, fun j hj => (h₂.outside j hj).trans (h₁.outside j hj),
    fun a ha => (h₂.words a ha).trans (h₁.words a ha)⟩

/-- The state as it was, no run yet. -/
theorem stateWritten_none (s : State) : StateWritten s (repeatedSum s 0) n s.mem :=
  ⟨spanWritten_self _ _ _ _, fun _ => Iff.rfl⟩

/-- One more run on what `r` runs left. -/
theorem StateWritten.adds_again {r : Nat} {t : State} (hn : s.n ≠ 0) (hss : SpanFits s .s (countN s))
    (hsx : SpanFits s .x (countN s)) (hap : Apart s .s .x (countN s)) (hls : LegalSpan s .s (countN s))
    (hlx : LegalSpan s .x (countN s)) (h : StateWritten s (repeatedSum s r) (countN s) m)
    (ht : exec .adds (withMem s m) = .next t) :
    ∃ m', t = withMem s m' ∧ StateWritten s (repeatedSum s (r + 1)) (countN s) m' := by
  obtain ⟨m', hrun, hw, hl⟩ := exec_adds_done (s := withMem s m) (.inl rfl) hn hss hsx hap fun k hk =>
    ⟨(h.legality _).mpr (hls k hk), (h.legality _).mpr (hlx k hk)⟩
  have hsum (k : Nat) (hk : k < countN s) : addsSum (withMem s m) k = repeatedSum s (r + 1) k := by
    rw [repeatedSum_succ, ← h.written.inside k hk, ← h.symbol_apart hap (Nat.le_refl _) hk]
    rfl
  cases hrun.symm.trans ht
  exact ⟨m', rfl, h.written.trans (hw.congr hsum), fun c => (hl c).trans (h.legality c)⟩

/-- State symbols that are what they were make every word what it was, as its words are legal. -/
theorem StateWritten.restored (h : StateWritten s f n m) (hf : ∀ k, k < n → f k = spanSym s .s k)
    (hls : LegalSpan s .s n) (c : Nat) : Memory.read m c = memByte s c :=
  (h.written.congr hf).unique (spanWritten_self _ _ _ _) hls (fun c => (h.legality c).mpr) (.refl _ _) c

/-- On BIN8 to add is to subtract, so two runs cancel; on TER5 it takes three. -/
theorem repeatedSum_bin8 (he : s.params.enc = .bin8) (k : Nat) : repeatedSum s 2 k = spanSym s .s k := by
  have hs := inAlphabet_spanSym s .s k
  have hx := inAlphabet_spanSym s .x k
  rw [he] at hs hx
  rw [repeatedSum_succ, repeatedSum_succ, he]
  exact symSub_symAdd hs hx

theorem repeatedSum_ter5 (he : s.params.enc = .ter5) (k : Nat) : repeatedSum s 3 k = spanSym s .s k := by
  rw [repeatedSum_succ, repeatedSum_succ, repeatedSum_succ, he]
  exact symAdd_three_times _ _

end

end Sys2Proof.Machine

/-!
The statements about ADDS (44_sponge_ops.md R211): what it does on legal words, where an illegal word stops it, and how
often it restores the state.
-/

namespace Sys2Proof.Machine

open Sys2Proof

/-- Settles O55: the loop runs to its end, or stops at position `j` with the positions before it done. -/
theorem addsAbsorbsIntoState : Obligations.AddsAbsorbsIntoState := by
  intro s i hi hn hss hsx hap
  refine ⟨fun hls hlx => ?_, fun j hj hx hl => ?_⟩
  · obtain ⟨m, hrun, hw, -⟩ := exec_adds_done hi hn hss hsx hap fun k hk => ⟨hls k hk, hlx k hk⟩
    obtain ⟨hsyms, hother⟩ := hw.symbols (Nat.le_refl _)
    exact ⟨_, hrun, rfl, hsyms, hother, hw.otherWordsKept⟩
  · obtain ⟨m, hrun, hw, -⟩ := exec_adds_raised hi hn hss hsx hap hj hx hl
    obtain ⟨hsyms, hother⟩ := hw.symbols (Nat.le_refl j)
    exact ⟨_, hrun, onlyErrorRegsAndMem_takeError _ s m, firstIllegalLatched_takeError rfl, hsyms, hother,
      hw.otherWordsKept⟩

/-- Settles O56: each run adds the same data once more, and twice (BIN8) or three times (TER5) it is nothing. -/
theorem repeatedAddsRestoresMemory : Obligations.RepeatedAddsRestoresMemory := by
  intro s t u v hn hss hsx hap hls hlx ht hu hv
  obtain ⟨m₁, rfl, h₁⟩ := (stateWritten_none s).adds_again hn hss hsx hap hls hlx ht
  obtain ⟨m₂, rfl, h₂⟩ := h₁.adds_again hn hss hsx hap hls hlx hu
  obtain ⟨m₃, rfl, h₃⟩ := h₂.adds_again hn hss hsx hap hls hlx hv
  exact ⟨fun he => h₂.restored (fun k _ => repeatedSum_bin8 he k) hls,
    fun he => h₃.restored (fun k _ => repeatedSum_ter5 he k) hls⟩

end Sys2Proof.Machine

/-!
SUPPORT. The phases of SQZOW and SQEOW (44_sponge_ops.md R212, R214): when the copy and the comparison complete, what
they leave for the zero phase, and that the zero phase is the same whatever `RESULT` holds.
-/

namespace Sys2Proof.Machine

open Sys2Proof

/-! ### The copy phase -/

/-- A claim that fails below a bound fails first at some number. -/
theorem exists_first_failure {P : Nat → Prop} {n : Nat} (h : ¬∀ k, k < n → P k) :
    ∃ j, j < n ∧ ¬P j ∧ ∀ k, k < j → P k := by
  classical
  have hfirst : ∃ j, j < n ∧ ¬P j := by simpa using h
  obtain ⟨hj, hfail⟩ := Nat.find_spec hfirst
  exact ⟨Nat.find hfirst, hj, hfail, fun k hk => by_contra fun hPk => Nat.find_min hfirst hk ⟨Nat.lt_trans hk hj, hPk⟩⟩

section
variable {s : State} {a b : SpanSel} {n j k : Nat}

/-- A lower word holds only earlier symbols. -/
theorem lt_of_wordOf_lt (h : wordOf s a k < wordOf s a j) : k < j :=
  Nat.lt_of_not_le fun hjk => Nat.not_lt_of_le (wa_mono _ _ hjk) h

/-- The two forms of `LegalForPair`, by the path taken. -/
theorem legalForPair_fast (hp : SamePhase s a b) (h : ∀ k, k < n → WordInside s a n k ∨ BothLegalAt s a b k) :
    LegalForPair s a b n :=
  .inl ⟨hp, fun k hk => (h k hk).imp_right And.left,
    fun k hk => (h k hk).imp (hp.wordInside_iff n k).mp And.right⟩

theorem legalForPair_slow (h : ∀ k, k < n → BothLegalAt s a b k) : LegalForPair s a b n :=
  .inr ⟨fun k hk => (h k hk).1, fun k hk => (h k hk).2⟩

theorem LegalForPair.edges (h : LegalForPair s a b n) : LegalEdges s a n := by
  rcases h with ⟨-, hla, -⟩ | ⟨hla, -⟩
  · exact hla
  · exact fun k hk => .inr (hla k hk)

section
variable (hsa : SpanFits s a n) (hsb : SpanFits s b n) (hap : Apart s a b n)
include hsa hsb hap

/-- On either path COPY rewrites the destination with the symbols of the source, and the edge words of the source are
legal still, for what follows. -/
theorem copyProc_rewrites (hl : LegalForPair s a b n) :
    ∃ m, copyProc s.params.enc n (operand s a) (operand s b) s = .done () (withMem s m) ∧
      SpanWritten s.params.enc (operand s b) (spanSym s a) n s.mem m ∧ LegalEdges (withMem s m) a n := by
  by_cases hp : SamePhase s a b
  · obtain ⟨m, hrun, hm⟩ := copyFast_rewrites hsa hsb (.inr hap) hp fun k => hl.fast hp
    refine ⟨m, copyProc_fast hp ▸ hrun, hm.written, fun k hk => or_iff_not_imp_left.mpr fun hout => ?_⟩
    exact (hm.source_edge (.inr hap) hk hout).mpr ((hl.edges k hk).resolve_left hout)
  · obtain ⟨m, hrun, hm⟩ := copySlow_rewrites hsa hsb (.inr hap) fun k => hl.slow hp
    exact ⟨m, copyProc_slow hp ▸ hrun, hm.written, fun k hk => .inr (hm.legal _ (hl.slow hp hk).1)⟩

/-- COPY raises when a word that it decodes is illegal. -/
theorem copyProc_raised (hx : ¬LegalForPair s a b n) :
    ∃ e m, copyProc s.params.enc n (operand s a) (operand s b) s = .raised e (withMem s m) := by
  by_cases hp : SamePhase s a b
  · obtain ⟨j, hj, hbad, hbefore⟩ := exists_first_failure (mt (legalForPair_fast hp) hx)
    obtain ⟨hout, hillegal⟩ := not_or.mp hbad
    obtain ⟨m, k, hrun, -⟩ := copyFast_raised hsa hsb (.inr hap) hp hj hout hillegal
      fun k _ hlt => hbefore k (lt_of_wordOf_lt hlt)
    exact ⟨_, m, copyProc_fast hp ▸ hrun⟩
  · obtain ⟨j, hj, hbad, hbefore⟩ := exists_first_failure (mt legalForPair_slow hx)
    obtain ⟨m, hrun, -⟩ := copySlow_raised hsa hsb (.inr hap) hj hbad hbefore
    exact ⟨_, m, copyProc_slow hp ▸ hrun⟩

end

/-! ### The comparison phase -/

section
variable (hsa : SpanFits s a n) (hsb : SpanFits s b n)
include hsa hsb

theorem equProc_answers (hl : LegalForPair s a b n) :
    ∃ r, equProc s.params.enc n (operand s a) (operand s b) s = .done r s ∧
      (r = true ↔ ∀ k, k < n → EqualAt s a b n k) := by
  by_cases hp : SamePhase s a b
  · rw [equProc_fast hp]
    exact equFast_done hsa hsb hp fun k => hl.fast hp
  · obtain ⟨r, hrun, hr⟩ := equSlow_done hsa hsb n 0 true (by omega) fun k _ hk => hl.slow hp (by omega)
    refine ⟨r, equProc_slow hp ▸ hrun, hr.trans ?_⟩
    simp only [equalAt_slow hp, true_and, Nat.zero_le, forall_const, Nat.zero_add]

/-- A comparison changes nothing: on the fast path it ends at the first mismatch, at the first illegal edge word or at
the end, on the slow path at the first illegal word or at the end. -/
theorem equProc_cases :
    (∃ r, equProc s.params.enc n (operand s a) (operand s b) s = .done r s) ∨
      ∃ e, equProc s.params.enc n (operand s a) (operand s b) s = .raised e s := by
  by_cases hl : LegalForPair s a b n
  · exact .inl ((equProc_answers hsa hsb hl).imp fun _ => And.left)
  by_cases hp : SamePhase s a b
  · rw [equProc_fast hp]
    obtain ⟨j, hj, hbad, hbefore⟩ := exists_first_failure (n := n)
      (P := fun k => (WordInside s a n k ∨ BothLegalAt s a b k) ∧ EqualAt s a b n k)
      fun h => hl (legalForPair_fast hp fun k hk => (h k hk).1)
    by_cases hj' : WordInside s a n j ∨ BothLegalAt s a b j
    · refine .inl ⟨false, equFast_mismatch hsa hsb hp hj (fun k _ hle => ?_) fun heq => hbad ⟨hj', heq⟩⟩
      rcases Nat.lt_or_eq_of_le hle with hlt | hword
      · exact (hbefore k (lt_of_wordOf_lt hlt)).1
      · rwa [wordInside_congr hword, BothLegalAt, hword, (hp.wordOf_eq_iff k j).mp hword]
    · obtain ⟨hout, hillegal⟩ := not_or.mp hj'
      exact .inr ⟨_, equFast_raised hsa hsb hp hj hout hillegal fun k _ hlt => hbefore k (lt_of_wordOf_lt hlt)⟩
  · rw [equProc_slow hp]
    obtain ⟨j, hj, hbad, hbefore⟩ := exists_first_failure (mt legalForPair_slow hl)
    exact .inr ⟨_, equSlow_raised hsa hsb n 0 true (by omega) (Nat.zero_le j) (by omega) hbad fun k _ => hbefore k⟩

end

/-! ### The zero phase -/

theorem fillzProc_done (hs : SpanFits s a n) (hl : LegalEdges s a n) :
    ∃ m, fillzProc s.params.enc n (operand s a) s = .done () (withMem s m) ∧ Filled s a n n m :=
  Cmd.forEach_touched_done (Filled s a n) (fun k _ _ ht h => h.touch hs ht (hl k ht.first_lt))
    (rewritten_zero _ _ _ _ _)

/-- The zero phase completes or raises, with storage changed at most. -/
theorem fillzProc_cases (hs : SpanFits s a n) :
    (∃ t, fillzProc s.params.enc n (operand s a) s = .done () t ∧ t.status = s.status) ∨
      ∃ e t, fillzProc s.params.enc n (operand s a) s = .raised e t ∧ t.result = s.result := by
  rcases within_fillzProc (W := fun _ => True) false ((spanFits_iff_valid s a n).mp hs) (fun _ _ => trivial) s rfl with
    ⟨_, t, hrun, hkeeps⟩ | ⟨e, t, hrun, hkeeps, -⟩
  · exact .inl ⟨t, hrun, by rw [hkeeps.rest]⟩
  · exact .inr ⟨e, t, hrun, by rw [hkeeps.rest]⟩

end

/-! ### Pseudocode that does not depend on `RESULT` -/

/-- The same end, with `RESULT` replaced. -/
def Res.replaceResult {α : Type} (v : RegVal) : Res α → Res α
  | .done a s => .done a (withResult s v)
  | .raised e s => .raised e (withResult s v)
  | .absent f => .absent f

/-- Pseudocode that neither reads nor writes `RESULT`. -/
def Cmd.IgnoresResult {α : Type} (c : Cmd α) : Prop := ∀ s v, c (withResult s v) = (c s).replaceResult v

section
variable {α β : Type}

theorem Cmd.ignoresResult_ret (a : α) : (Cmd.ret a).IgnoresResult := fun _ _ => rfl

theorem Cmd.ignoresResult_raise (kind : ErrKind) (info addr : RegVal) :
    (Cmd.raise kind info addr : Cmd α).IgnoresResult := fun _ _ => rfl

theorem Cmd.IgnoresResult.bind {c : Cmd α} {k : α → Cmd β} (hc : c.IgnoresResult) (hk : ∀ a, (k a).IgnoresResult) :
    (Cmd.bind c k).IgnoresResult := by
  intro s v
  have hv := hc s v
  rcases Cmd.bind_cases c k s with ⟨a, t, h, hb⟩ | ⟨e, t, h, hb⟩ | ⟨f, h, hb⟩ <;> rw [h] at hv <;> rw [hb]
  · rw [Cmd.bind_done hv, hk a t v]
  · exact Cmd.bind_raised hv
  · exact Cmd.bind_absent hv

theorem Cmd.IgnoresResult.ite {p : Prop} [Decidable p] {c d : Cmd α} (hc : c.IgnoresResult) (hd : d.IgnoresResult) :
    (if p then c else d).IgnoresResult := by
  split
  · exact hc
  · exact hd

theorem Cmd.IgnoresResult.forEach {body : α → Cmd Unit} (h : ∀ t, (body t).IgnoresResult) :
    ∀ ts, (Cmd.forEach body ts).IgnoresResult
  | [] => Cmd.ignoresResult_ret ()
  | t :: rest => (h t).bind fun _ => Cmd.IgnoresResult.forEach h rest

theorem ignoresResult_memRead (addr : Nat) : (memRead addr).IgnoresResult := by
  intro s v
  rw [memRead, memRead, withResult_params, withResult_mem]
  split <;> rfl

theorem ignoresResult_memWrite (addr : Nat) (w : MWord) : (memWrite addr w).IgnoresResult := by
  intro s v
  rw [memWrite, memWrite, withResult_params, withResult_mem]
  split <;> rfl

theorem ignoresResult_decodeAt (e : Enc) (o : Operand) (addr : Nat) : (decodeAt e o addr).IgnoresResult :=
  (ignoresResult_memRead addr).bind fun _ => .ite (Cmd.ignoresResult_ret _) (Cmd.ignoresResult_raise _ _ _)

theorem ignoresResult_fillWord (e : Enc) (o : Operand) (t : Touch) : (fillWord e o t).IgnoresResult :=
  .ite (ignoresResult_memWrite _ _) ((ignoresResult_decodeAt _ _ _).bind fun _ => ignoresResult_memWrite _ _)

theorem ignoresResult_fillzProc (e : Enc) (n : Nat) (o : Operand) : (fillzProc e n o).IgnoresResult :=
  .forEach (ignoresResult_fillWord e o) _

end

/-! ### SQZOW and SQEOW after their first phase -/

section
variable {s : State} {i : Instr} (hn : s.n ≠ 0) (hss : SpanFits s .s (countN s))
include hn hss

/-- SQZOW goes on as FILLZ. -/
theorem exec_sqzow_copied {m : Memory 8} (hi : i = .sqzow ∨ i = .squeezeOw) (hsy : SpanFits s .y (countN s))
    (hap : Apart s .s .y (countN s))
    (hrun : copyProc s.params.enc (countN s) (operand s .s) (operand s .y) s = .done () (withMem s m)) :
    exec i s = exec (.fillz .s) (withMem s m) := by
  rw [exec_sqzow_checked hi hn hss hsy hap, Cmd.bind_done hrun]
  exact (exec_fillz_checked (s := withMem s m) (a := .s) hn hss).symm

/-- SQEOW with its answer found: the zero phase, then the answer goes to `RESULT`. -/
theorem exec_sqeow_compared {r : Bool} (hi : i = .sqeow ∨ i = .squeezeeqOw) (hsx : SpanFits s .x (countN s))
    (hap : Apart s .s .x (countN s))
    (hrun : equProc s.params.enc (countN s) (operand s .s) (operand s .x) s = .done r s) :
    exec i s = finish (Cmd.bind (fillzProc s.params.enc (countN s) (operand s .s))
      (fun _ => setResult (boolResult r)) s) := by
  rw [exec_sqeow_checked hi hn hss hsx hap, Cmd.bind_done hrun]

/-- FILLZ with another value in `RESULT` leaves the same state with that value. -/
theorem exec_fillz_withResult (v : RegVal) :
    exec (.fillz .s) (withResult s v) =
      finish ((fillzProc s.params.enc (countN s) (operand s .s) s).replaceResult v) := by
  rw [← ignoresResult_fillzProc]
  exact exec_fillz_checked (s := withResult s v) (a := .s) hn hss

end

/-- COPY and SQZOW end in the same error, or SQZOW is the copy and then the zero phase, which completes: every word that
it decodes was decoded by the copy, and is legal still. -/
theorem exec_sqzow_cases {s : State} (hn : s.n ≠ 0) (hap : Apart s .s .y (countN s)) :
    (∃ e t, exec (.copy .s .y) s = .next (takeError e t) ∧ exec .sqzow s = .next (takeError e t)) ∨
      ∃ m m', exec (.copy .s .y) s = .next (withMem s m) ∧
        exec (.fillz .s) (withMem s m) = .next (withMem s m') ∧ exec .sqzow s = .next (withMem s m') := by
  rcases spansFit_or_refused (i := .copy .s .y) (k := .sqzow) ⟨rfl, rfl, rfl⟩ ⟨rfl, rfl, rfl⟩ hn with
    ⟨hss, hsy⟩ | ⟨e, hcopy, hsqz⟩
  · have hexec := exec_copy_checked hn hss hsy (.inr hap)
    by_cases hl : LegalForPair s .s .y (countN s)
    · obtain ⟨m, hcopy, -, hedges⟩ := copyProc_rewrites hss hsy hap hl
      obtain ⟨m', hfill, -⟩ := exec_fillz_done (s := withMem s m) (a := .s) hn hss hedges
      exact .inr ⟨m, m', hexec.trans (congrArg finish hcopy), hfill,
        (exec_sqzow_copied hn hss (.inl rfl) hsy hap hcopy).trans hfill⟩
    · obtain ⟨e, m, hcopy⟩ := copyProc_raised hss hsy hap hl
      exact .inl ⟨e, _, hexec.trans (congrArg finish hcopy),
        (exec_sqzow_checked (.inl rfl) hn hss hsy hap).trans (congrArg finish (Cmd.bind_raised hcopy))⟩
  · exact .inl ⟨e, s, hcopy, hsqz⟩

/-- EQU and SQEOW end in the same error, or both find an answer. -/
theorem exec_sqeow_cases {s : State} (hn : s.n ≠ 0) (hap : Apart s .s .x (countN s)) :
    (∃ e, exec (.equ .s .x) s = .next (takeError e s) ∧ exec .sqeow s = .next (takeError e s)) ∨
      SpanFits s .s (countN s) ∧ ∃ r, exec (.equ .s .x) s = .next (withResult s (boolResult r)) ∧
        exec .sqeow s = finish (Cmd.bind (fillzProc s.params.enc (countN s) (operand s .s))
          (fun _ => setResult (boolResult r)) s) := by
  rcases spansFit_or_refused (i := .equ .s .x) (k := .sqeow) ⟨rfl, rfl, rfl⟩ ⟨rfl, rfl, rfl⟩ hn with
    ⟨hss, hsx⟩ | hrefused
  · rcases equProc_cases hss hsx with ⟨r, hequ⟩ | ⟨e, hequ⟩
    · exact .inr ⟨hss, r, exec_equ_done (.inl rfl) hn hss hsx hequ,
        exec_sqeow_compared hn hss (.inl rfl) hsx hap hequ⟩
    · exact .inl ⟨e, exec_equ_raised (.inl rfl) hn hss hsx hequ,
        (exec_sqeow_checked (.inl rfl) hn hss hsx hap).trans (congrArg finish (Cmd.bind_raised hequ))⟩
  · exact .inl hrefused

end Sys2Proof.Machine

/-!
The statements about SQZOW and SQEOW (44_sponge_ops.md R212, R214): what they do on legal words, and that they are COPY
or EQU followed by FILLZ.
-/

namespace Sys2Proof.Machine

open Sys2Proof

/-- Settles O57: Y is written, then the state; as they lie apart, neither write undoes the other. -/
theorem sqzowEmitsAndZeroesState : Obligations.SqzowEmitsAndZeroesState := by
  intro s i hi hn hss hsy hap hl
  obtain ⟨m, hrun, hcopy, hedges⟩ := copyProc_rewrites hss hsy hap hl
  obtain ⟨m', hfill, hm'⟩ := exec_fillz_done (s := withMem s m) (a := .s) hn hss hedges
  have hzero : SpanWritten s.params.enc (operand s .s) (fun _ => .zero) (countN s) m m' := hm'.written
  have habs : absOf s .s = (operand s .s).abs s.params.enc := rfl
  refine ⟨_, (exec_sqzow_copied hn hss hi hsy hap hrun).trans hfill, rfl,
    fun k hk => ⟨?_, hzero.inside k hk⟩, fun j hjy hjs => ?_, fun c hc => ?_⟩
  · exact (hzero.outside (absOf s .y + k) (by omega)).trans (hcopy.inside k hk)
  · exact (hzero.outside j hjs).trans (hcopy.outside j hjy)
  · exact (hzero.words c fun k hk => (hc k hk).2).trans (hcopy.words c fun k hk => (hc k hk).1)

/-- Settles O58, by what COPY and SQZOW do to the same state. -/
theorem sqzowIsCopyThenFillz : Obligations.SqzowIsCopyThenFillz := by
  intro s t i hi hs hn hap ht
  rw [exec_sqzow_name hi]
  rcases exec_sqzow_cases hn hap with ⟨e, u, hcopy, hsqz⟩ | ⟨m, m', hcopy, hfill, hsqz⟩
  · cases hcopy.symm.trans ht
    exact ⟨fun _ => hsqz, fun hnone => absurd hnone (not_noError_takeError e u)⟩
  · cases hcopy.symm.trans ht
    refine ⟨absurd hs, fun _ => ⟨hsqz.trans hfill.symm, fun u hu => ?_⟩⟩
    cases hfill.symm.trans hu
    exact hs

/-- Settles O59: the comparison completes and changes nothing, so the words that the zero phase decodes are legal. -/
theorem sqeowComparesAndZeroesState : Obligations.SqeowComparesAndZeroesState := by
  intro s i hi hn hss hsx hap hl
  obtain ⟨r, hequ, hr⟩ := equProc_answers hss hsx hl
  obtain ⟨m, hfill, hm⟩ := fillzProc_done hss hl.edges
  obtain ⟨hzero, -, hother⟩ := hm.effect
  refine ⟨withResult (withMem s m) (boolResult r), r, ?_, rfl, hr, hzero, hother⟩
  rw [exec_sqeow_compared hn hss hi hsx hap hequ, Cmd.bind_done hfill]
  rfl

/-- Settles O60: the zero phase does the same before the answer is written to `RESULT` (SQEOW) and after (EQU, then
FILLZ). -/
theorem sqeowIsEquThenFillz : Obligations.SqeowIsEquThenFillz := by
  intro s t i hi hs hn hap ht
  rw [exec_sqeow_name hi]
  rcases exec_sqeow_cases hn hap with ⟨e, hequ, hsqe⟩ | ⟨hss, r, hequ, hsqe⟩ <;> cases hequ.symm.trans ht
  · exact ⟨fun _ => hsqe, fun hnone => absurd hnone (not_noError_takeError e s)⟩
  · refine ⟨absurd hs, fun _ u hu => ?_⟩
    rw [exec_fillz_withResult hn hss] at hu
    rcases fillzProc_cases hss with ⟨v, hrun, hstatus⟩ | ⟨e, v, hrun, hresult⟩ <;> rw [hrun] at hu <;> cases hu
    · have hnone : NoError (withResult v (boolResult r)) := by rwa [NoError, withResult_status, hstatus]
      rw [hsqe, Cmd.bind_done hrun, if_pos hnone]
      rfl
    · rw [hsqe, Cmd.bind_raised hrun, if_neg (not_noError_takeError e _), ← hresult]
      rfl

end Sys2Proof.Machine

/-!
SUPPORT. The errors of an instruction (60_exceptions.md): the precise ones (R240), which the frame and the immediates
raise before anything has changed, and those of a body, which are `IllegalWord` and `IllegalSymbol` of a TBUF cell only.
-/

namespace Sys2Proof.Machine

open Sys2Proof

/-! ### What a body can raise (R240, R246) -/

/-- An error that is raised in a body, so not a precise one: the last two classes of the priority of R246. -/
def Err.OfBody (e : Err) : Prop := e.kind = .illegalWord ∨ (e.kind = .illegalSymbol ∧ e.info = tbufCode)

/-- An end of pseudocode that leaves `STATUS` as it was and raises at most an error of a body. -/
def Res.BodyEnd {α : Type} (status : RegVal) : Res α → Prop
  | .done _ t => t.status = status
  | .raised e _ => e.OfBody
  | .absent _ => True

/-- Pseudocode that stands in bodies, from any state. -/
def Cmd.IsBody {α : Type} (m : Cmd α) : Prop := ∀ s, (m s).BodyEnd s.status

section
variable {α β : Type}

theorem Cmd.isBody_ret (a : α) : (Cmd.ret a).IsBody := fun _ => rfl

theorem Cmd.isBody_raise_illegalWord (info addr : RegVal) : (Cmd.raise .illegalWord info addr : Cmd α).IsBody :=
  fun _ => .inl rfl

theorem Cmd.isBody_bind {m : Cmd α} {k : α → Cmd β} (hm : m.IsBody) (hk : ∀ a, (k a).IsBody) :
    (Cmd.bind m k).IsBody := by
  intro s
  have hfirst := hm s
  rcases Cmd.bind_cases m k s with ⟨a, t, h, hb⟩ | ⟨e, t, h, hb⟩ | ⟨f, h, hb⟩ <;> rw [hb] <;> rw [h] at hfirst
  · have hstatus : t.status = s.status := hfirst
    exact hstatus ▸ hk a t
  · exact hfirst
  · trivial

theorem Cmd.isBody_ite {c : Prop} [Decidable c] {m k : Cmd α} (hm : m.IsBody) (hk : k.IsBody) :
    (if c then m else k).IsBody := by
  split
  · exact hm
  · exact hk

theorem Cmd.isBody_forUp {body : Nat → Cmd Unit} (h : ∀ k, (body k).IsBody) :
    ∀ count k0 : Nat, (Cmd.forUp body count k0).IsBody
  | 0, _ => Cmd.isBody_ret ()
  | count + 1, k0 => Cmd.isBody_bind (h k0) fun _ => Cmd.isBody_forUp h count (k0 + 1)

theorem Cmd.isBody_forEach {body : α → Cmd Unit} (h : ∀ t, (body t).IsBody) :
    ∀ ts : List α, (Cmd.forEach body ts).IsBody
  | [] => Cmd.isBody_ret ()
  | t :: rest => Cmd.isBody_bind (h t) fun _ => Cmd.isBody_forEach h rest

/-- An access to storage: it changes no register, or there is no such storage. -/
theorem Cmd.isBody_access {c : Prop} [Decidable c] {s t : State} {a : α} {f : Fault} (h : t.status = s.status) :
    (if c then Res.done a t else .absent f).BodyEnd s.status := by
  split
  · exact h
  · trivial

end

theorem isBody_setResult (v : RegVal) : (setResult v).IsBody := fun _ => rfl

theorem isBody_setWdata (w : MWord) : Cmd.IsBody fun t => .done () (withWdata t w) := fun _ => rfl

theorem isBody_memRead (addr : Nat) : (memRead addr).IsBody := fun _ => Cmd.isBody_access rfl

theorem isBody_memWrite (addr : Nat) (w : MWord) : (memWrite addr w).IsBody := fun _ => Cmd.isBody_access rfl

theorem isBody_tbufRead (c : Nat) : (tbufRead c).IsBody := fun _ => Cmd.isBody_access rfl

theorem isBody_tbufWrite (c : Nat) (v : SymCode) : (tbufWrite c v).IsBody := fun _ => Cmd.isBody_access rfl

section
variable (e : Enc) (o a b : Operand)

theorem isBody_decodeAt (addr : Nat) : (decodeAt e o addr).IsBody :=
  Cmd.isBody_bind (isBody_memRead addr) fun _ =>
    Cmd.isBody_ite (Cmd.isBody_ret _) (Cmd.isBody_raise_illegalWord _ _)

theorem isBody_getSym (k : Nat) : (getSym e o k).IsBody :=
  Cmd.isBody_bind (isBody_decodeAt e o _) fun _ => Cmd.isBody_ret _

theorem isBody_putSym (k : Nat) (v : Sym) : (putSym e o k v).IsBody :=
  Cmd.isBody_bind (isBody_decodeAt e o _) fun _ => isBody_memWrite _ _

theorem isBody_writeCells : ∀ (vs : List Sym) (c : Nat), (writeCells c vs).IsBody
  | [], _ => Cmd.isBody_ret ()
  | v :: rest, c => Cmd.isBody_bind (isBody_tbufWrite c (symCode v)) fun _ => isBody_writeCells rest (c + 1)

/-- Reading cells raises the one `IllegalSymbol` that is not precise (R242 (b)). -/
theorem isBody_readCells : ∀ count c : Nat, (readCells e count c).IsBody
  | 0, _ => Cmd.isBody_ret []
  | count + 1, c => by
    refine Cmd.isBody_bind (isBody_tbufRead c) fun code => ?_
    split
    · exact fun _ => .inr ⟨rfl, rfl⟩
    · exact Cmd.isBody_bind (isBody_readCells count (c + 1)) fun _ => Cmd.isBody_ret _

theorem isBody_traverseRO (n : Nat) {visit : Nat → List Sym → Cmd Unit} (h : ∀ k0 vs, (visit k0 vs).IsBody) :
    (traverseRO e o n visit).IsBody :=
  Cmd.isBody_forEach (fun _ => Cmd.isBody_bind (isBody_decodeAt e o _) fun _ => h _ _) _

theorem isBody_traverseRW (n : Nat) {visit : Nat → List Sym → Cmd (List Sym)} (h : ∀ k0 vs, (visit k0 vs).IsBody) :
    (traverseRW e o n visit).IsBody :=
  Cmd.isBody_forEach (fun _ => Cmd.isBody_bind (isBody_decodeAt e o _) fun _ =>
    Cmd.isBody_bind (h _ _) fun _ => isBody_memWrite _ _) _

theorem isBody_copyEdge (addrA addrB lo hi : Nat) : (copyEdge e a b addrA addrB lo hi).IsBody :=
  Cmd.isBody_bind (isBody_decodeAt e a _) fun _ => Cmd.isBody_bind (isBody_decodeAt e b _) fun _ => isBody_memWrite _ _

theorem isBody_copyProc (n : Nat) : (copyProc e n a b).IsBody := by
  refine Cmd.isBody_ite (Cmd.isBody_bind ?lead fun _ => Cmd.isBody_bind ?words fun _ => ?trail) ?slow
  case lead | trail => exact Cmd.isBody_ite (isBody_copyEdge e a b _ _ _ _) (Cmd.isBody_ret ())
  case words => exact Cmd.isBody_forUp (fun _ => Cmd.isBody_bind (isBody_memRead _) fun _ => isBody_memWrite _ _) _ _
  case slow => exact Cmd.isBody_forUp (fun k => Cmd.isBody_bind (isBody_getSym e a k) (isBody_putSym e b k)) _ _

theorem isBody_fillzProc (n : Nat) : (fillzProc e n a).IsBody :=
  Cmd.isBody_forEach (fun _ => Cmd.isBody_ite (isBody_memWrite _ _)
    (Cmd.isBody_bind (isBody_decodeAt e a _) fun _ => isBody_memWrite _ _)) _

theorem isBody_equEdge (addrA addrB lo hi : Nat) : (equEdge e a b addrA addrB lo hi).IsBody :=
  Cmd.isBody_bind (isBody_decodeAt e a _) fun _ => Cmd.isBody_bind (isBody_decodeAt e b _) fun _ => Cmd.isBody_ret _

theorem isBody_equWords : ∀ count addrA addrB : Nat, (equWords addrA addrB count).IsBody
  | 0, _, _ => Cmd.isBody_ret true
  | count + 1, _, _ => Cmd.isBody_bind (isBody_memRead _) fun _ => Cmd.isBody_bind (isBody_memRead _) fun _ =>
    Cmd.isBody_ite (isBody_equWords count _ _) (Cmd.isBody_ret false)

theorem isBody_equSlow : ∀ (count k : Nat) (eq : Bool), (equSlow e a b count k eq).IsBody
  | 0, _, eq => Cmd.isBody_ret eq
  | count + 1, k, _ => Cmd.isBody_bind (isBody_getSym e a k) fun _ => Cmd.isBody_bind (isBody_getSym e b k) fun _ =>
    isBody_equSlow count (k + 1) _

theorem isBody_andAlso {m k : Cmd Bool} (hm : m.IsBody) (hk : k.IsBody) : (Cmd.andAlso m k).IsBody :=
  Cmd.isBody_bind hm fun _ => Cmd.isBody_ite hk (Cmd.isBody_ret false)

theorem isBody_equProc (n : Nat) : (equProc e n a b).IsBody := by
  refine Cmd.isBody_ite (isBody_andAlso ?lead (isBody_andAlso (isBody_equWords _ _ _) ?trail))
    (isBody_equSlow e a b n 0 true)
  case lead | trail => exact Cmd.isBody_ite (isBody_equEdge e a b _ _ _ _) (Cmd.isBody_ret true)

theorem isBody_feedback (f g : Sym → Sym → Sym) (n : Nat) : (feedback e a b o f g n).IsBody :=
  Cmd.isBody_forUp (fun _ => Cmd.isBody_bind (isBody_getSym e a _) fun _ => Cmd.isBody_bind (isBody_getSym e b _)
    fun _ => Cmd.isBody_bind (isBody_putSym e o _ _) fun _ => isBody_putSym e b _ _) _ _

theorem isBody_absorb (n : Nat) : (Cmd.forUp (absorbStep e a b) n 0).IsBody :=
  Cmd.isBody_forUp (fun _ => Cmd.isBody_bind (isBody_getSym e a _) fun _ => Cmd.isBody_bind (isBody_getSym e b _)
    fun _ => isBody_putSym e a _ _) _ _

end

/-! ### Illegal immediates (R242 (a)) -/

/-- The error of an illegal immediate; `which` is 0 for `sym` and 1 for `sym2`. -/
def immediateErr (which : RegVal) : Err := { kind := .illegalSymbol, info := immInfo, addr := which }

section
variable {s : State} {v u : SymCode}

theorem immediate_illegal (h : IllegalCode s v) (which : RegVal) (k : Sym → Cmd Unit) :
    immediate s.params.enc v which k s = .raised (immediateErr which) s := by
  rw [immediate_none ((illegalCode_iff s v).mp h)]
  rfl

theorem immediate_legal (h : ¬IllegalCode s v) : ∃ x, ∀ which k, immediate s.params.enc v which k = k x := by
  rw [illegalCode_iff] at h
  obtain ⟨x, hx⟩ := Option.ne_none_iff_exists'.mp h
  exact ⟨x, fun which k => immediate_some hx which k⟩

theorem exec_put_illegal (a : SpanSel) (h : IllegalCode s v) :
    exec (.put a v) s = .next (takeError (immediateErr 0) s) := congrArg finish (immediate_illegal h 0 _)

/-- ADD and SUB check `sym` first. -/
theorem symbolOp_illegal_sym (w : Uses) (f : Sym → Sym → Sym) (h : IllegalCode s v) :
    finish (symbolOp w f v u s.params.enc s) = .next (takeError (immediateErr 0) s) :=
  congrArg finish (immediate_illegal h 0 _)

theorem symbolOp_illegal_sym2 (w : Uses) (f : Sym → Sym → Sym) (hv : ¬IllegalCode s v) (hu : IllegalCode s u) :
    finish (symbolOp w f v u s.params.enc s) = .next (takeError (immediateErr 1) s) := by
  obtain ⟨x, hx⟩ := immediate_legal hv
  rw [symbolOp, hx, immediate_illegal hu]
  rfl

theorem symbolOp_illegal (w : Uses) (f : Sym → Sym → Sym) (h : ¬(¬IllegalCode s v ∧ ¬IllegalCode s u)) :
    ∃ e, finish (symbolOp w f v u s.params.enc s) = .next (takeError e s) := by
  by_cases hv : IllegalCode s v
  · exact ⟨_, symbolOp_illegal_sym w f hv⟩
  · exact ⟨_, symbolOp_illegal_sym2 w f hv (not_not.mp fun hu => h ⟨hv, hu⟩)⟩

theorem exec_addSub {i : Instr} (hi : i = .add v u ∨ i = .sub v u) :
    ∃ f, exec i s = finish (symbolOp (usesOf i) f v u s.params.enc s) := by
  rcases hi with rfl | rfl <;> exact ⟨_, rfl⟩

theorem symbolOp_framed (w : Uses) (f : Sym → Sym → Sym) (h : ¬IllegalCode s v ∧ ¬IllegalCode s u) :
    ∃ r, symbolOp w f v u s.params.enc = framed w (Cmd.ret ()) fun _ => setResult r := by
  obtain ⟨x, hx⟩ := immediate_legal h.1
  obtain ⟨y, hy⟩ := immediate_legal h.2
  exact ⟨_, by rw [symbolOp, hx, hy]⟩

end

/-! ### Every instruction is an immediate check and the frame around a body (30_encoding.md R111) -/

section
variable {i : Instr} {s : State}

theorem exec_illegal_immediate (h : ¬ImmediatesLegal s i) : ∃ e, exec i s = .next (takeError e s) := by
  cases i with
  | put a v => exact ⟨_, exec_put_illegal a (not_not.mp h)⟩
  | add v u | sub v u => exact symbolOp_illegal _ _ h
  | _ => exact absurd trivial h

/-- With its immediates legal an instruction is the frame around a body; CLRERR's is the one that writes `STATUS`. -/
theorem exec_framed (h : ImmediatesLegal s i) :
    ∃ z body, exec i s = finish (framed (usesOf i) z body s) ∧ (i ≠ .clrerr → z.IsBody ∧ ∀ n, (body n).IsBody) := by
  have ret := Cmd.isBody_ret ()
  cases i with
  | w2s => exact ⟨_, _, rfl, fun _ => ⟨ret, fun _ =>
      Cmd.isBody_ite (isBody_writeCells _ _) (Cmd.isBody_raise_illegalWord _ _)⟩⟩
  | s2w => exact ⟨_, _, rfl, fun _ => ⟨ret, fun _ => Cmd.isBody_bind (isBody_readCells _ _ _) fun _ =>
      isBody_setWdata _⟩⟩
  | get a => exact ⟨_, _, rfl, fun _ => ⟨ret, fun _ => Cmd.isBody_bind (isBody_getSym _ _ _) fun _ =>
      isBody_setResult _⟩⟩
  | put a v =>
    obtain ⟨x, hx⟩ := immediate_legal h
    exact ⟨_, _, by rw [exec, execPut, hx], fun _ => ⟨ret, fun _ => isBody_putSym _ _ _ _⟩⟩
  | tosym a => exact ⟨_, _, rfl, fun _ => ⟨ret, fun n => isBody_traverseRO _ _ n fun _ vs => isBody_writeCells vs _⟩⟩
  | fromsym a => exact ⟨_, _, rfl, fun _ => ⟨ret, fun n => isBody_traverseRW _ _ n fun _ _ => isBody_readCells _ _ _⟩⟩
  | copy | absorbOw | squeezeX => exact ⟨_, _, rfl, fun _ => ⟨ret, isBody_copyProc _ _ _⟩⟩
  | fillz a => exact ⟨_, _, rfl, fun _ => ⟨ret, isBody_fillzProc _ _⟩⟩
  | equ | squeezeeqX => exact ⟨_, _, rfl, fun _ => ⟨isBody_setResult _, fun n =>
      Cmd.isBody_bind (isBody_equProc _ _ _ n) fun _ => isBody_setResult _⟩⟩
  | add v u | sub v u =>
    obtain ⟨r, hr⟩ := symbolOp_framed _ _ h
    exact ⟨_, _, congrArg finish (congrFun hr s), fun _ => ⟨ret, fun _ => isBody_setResult r⟩⟩
  | adds | absorbX => exact ⟨_, _, rfl, fun _ => ⟨ret, isBody_absorb _ _ _⟩⟩
  | sqzow | squeezeOw => exact ⟨_, _, rfl, fun _ => ⟨ret, fun n =>
      Cmd.isBody_bind (isBody_copyProc _ _ _ n) fun _ => isBody_fillzProc _ _ n⟩⟩
  | sqeow | squeezeeqOw => exact ⟨_, _, rfl, fun _ => ⟨isBody_setResult _, fun n =>
      Cmd.isBody_bind (isBody_equProc _ _ _ n) fun _ => Cmd.isBody_bind (isBody_fillzProc _ _ n) fun _ =>
        isBody_setResult _⟩⟩
  | clrerr => exact ⟨Cmd.ret (), fun _ t => .done () (clearError t), rfl, absurd rfl⟩
  | _ => exact ⟨_, _, rfl, fun _ => ⟨ret, isBody_feedback _ _ _ _ _ _⟩⟩

/-- An error of the frame or an immediate leaves the state as it was; else the instruction ends as a body does. -/
theorem exec_refused_or_bodyEnd (hi : i ≠ .clrerr) :
    (∃ e, exec i s = .next (takeError e s)) ∨ ∃ r : Res Unit, exec i s = finish r ∧ r.BodyEnd s.status := by
  by_cases himm : ImmediatesLegal s i
  · obtain ⟨z, body, hexec, hbodies⟩ := exec_framed himm
    obtain ⟨hz, hbody⟩ := hbodies hi
    rw [hexec]
    rcases framed_cases (usesOf i) z body s with ⟨-, -, h⟩ | ⟨-, e, -, h⟩ | ⟨-, -, e, -, h⟩ | ⟨-, -, -, h⟩ <;> rw [h]
    · exact .inr ⟨_, rfl, hz s⟩
    · exact .inl ⟨e, rfl⟩
    · exact .inl ⟨e, rfl⟩
    · exact .inr ⟨_, rfl, hbody _ s⟩
  · exact .inl (exec_illegal_immediate himm)

/-- The error registers hold a precise error that a command raised (R240). -/
abbrev PreciseLatched (t : State) : Prop :=
  errField t.status = 3 ∨ errField t.status = 4 ∨ (errField t.status = 2 ∧ t.errInfo = 0x10)

theorem not_preciseLatched_of_noError {t : State} (h : NoError t) : ¬PreciseLatched t := by
  have hcode : errField t.status = 0 := h
  simp [PreciseLatched, hcode]

/-- The errors of a body have other codes than the precise ones, or `ERRINFO` names TBUF and not an immediate. -/
theorem not_preciseLatched_takeError {e : Err} (h : e.OfBody) (t : State) : ¬PreciseLatched (takeError e t) := by
  rw [PreciseLatched, takeError_status, errField_withErrField, takeError_errInfo]
  rcases h with hk | ⟨hk, hinfo⟩
  · simp [hk, errCode]
  · rw [hk, hinfo]
    decide

theorem Res.BodyEnd.not_preciseLatched {r : Res Unit} {t : State} (h : r.BodyEnd s.status) (hs : NoError s)
    (ht : finish r = .next t) : ¬PreciseLatched t := by
  rcases (finish_next_iff r t).mp ht with rfl | ⟨e, u, rfl, rfl⟩
  · have hstatus : t.status = s.status := h
    exact not_preciseLatched_of_noError (by rwa [NoError, hstatus])
  · exact not_preciseLatched_takeError h u

/-! ### Errors of the frame (R243, R244, R246) -/

theorem exec_bounds {e : Err} (himm : ImmediatesLegal s i) (hn : (useRow i).counted = true → s.n ≠ 0)
    (h : boundsError (usesOf i) s = some e) : exec i s = .next (takeError e s) := by
  obtain ⟨z, body, hexec, -⟩ := exec_framed himm
  rw [hexec, framed_bounds z body (fun hz => hn ((usesOf_agrees i).1 ▸ hz.1) hz.2) h, finish_raised]

theorem exec_overlap {e : Err} (hc : (useRow i).counted = true) (hn : s.n ≠ 0) (hb : boundsError (usesOf i) s = none)
    (h : overlapError (usesOf i) s = some e) : exec i s = .next (takeError e s) := by
  obtain ⟨body, hexec⟩ := exec_counted hc s
  rw [hexec, framed_overlap _ body (fun hz => hn hz.2) hb h, finish_raised]

/-- An instruction that its frame or an immediate refuses: the error is latched and nothing else changes (R248). -/
theorem refused_latches {e : Err} (h : exec i s = .next (takeError e s)) :
    ∃ t, exec i s = .next t ∧ ErrorLatched s t (errCode e.kind) e.info e.addr ∧ OnlyErrorRegs s t :=
  ⟨_, h, errorLatched_takeError e s s rfl, onlyErrorRegs_takeError e s⟩

theorem spanCode_toNat (sp : SpanSel) : (spanCode sp).toNat = selNumber sp := by cases sp <;> rfl

theorem boundsError_first_span {sp : SpanSel} (hsp : sp ∈ (useRow i).spans)
    (hbad : ¬SpanFits s sp ((useRow i).count s))
    (hbefore : ∀ sp' ∈ (useRow i).spans, selNumber sp' < selNumber sp → SpanFits s sp' ((useRow i).count s)) :
    boundsError (usesOf i) s = some { kind := .bounds, info := BitVec.ofNat 32 (selNumber sp), addr := 0 } := by
  obtain ⟨-, hspans, -⟩ := usesOf_agrees i
  rw [← spanCode_eq]
  refine boundsError_span (hspans ▸ hsp) ?_ fun sp' hsp' hlt => ?_
  · rwa [usesOf_count, ← Bool.not_eq_true, ← spanFits_iff_valid]
  · rw [spanCode_toNat, spanCode_toNat] at hlt
    rw [usesOf_count, ← spanFits_iff_valid]
    exact hbefore sp' (hspans ▸ hsp') hlt

theorem boundsError_cells (hcells : (useRow i).cells ≠ .none) (hbad : ¬CellsFit s ((useRow i).cellCount s))
    (hfit : ∀ sp ∈ (useRow i).spans, SpanFits s sp ((useRow i).count s)) :
    boundsError (usesOf i) s = some { kind := .bounds, info := tbufCode, addr := 0 } := by
  obtain ⟨-, hspans, hc⟩ := usesOf_agrees i
  refine boundsError_tbuf (hc ▸ hcells) (by rw [usesOf_cellCount]; omega) fun sp hsp => ?_
  rw [usesOf_count, ← spanFits_iff_valid]
  exact hfit sp (hspans ▸ hsp)

/-- A pair clashes exactly when both groups are used and the overlap rule of the table refuses them. -/
theorem clashes_iff {a b : SpanSel} (hc : (useRow i).counted = true) (hab : a ≠ b) :
    clashes (usesOf i) s a b = true ↔
      a ∈ (useRow i).spans ∧ b ∈ (useRow i).spans ∧ ¬PairAllowed i s a b := by
  obtain ⟨-, hspans, -⟩ := usesOf_agrees i
  rw [clashes, Bool.and_eq_true, Bool.and_eq_true, decide_eq_true_eq, decide_eq_true_eq, hspans, and_assoc]
  exact and_congr_right fun ha => and_congr_right fun hb => pairClash_iff s hc hab ha hb

theorem not_clashes_of_allowed {a b : SpanSel} (hc : (useRow i).counted = true) (hab : a ≠ b)
    (h : a ∈ (useRow i).spans → b ∈ (useRow i).spans → PairAllowed i s a b) : ¬clashes (usesOf i) s a b = true := by
  rw [clashes_iff hc hab]
  exact fun ⟨ha, hb, hbad⟩ => hbad (h ha hb)

end

/-! ### CLRERR and the latch (R249, R250) -/

theorem decode_eq_clrerr_iff (w : CmdWord) : decode w = .ok .clrerr ↔ w = 0x0000003F#32 := by
  have hword : encode .clrerr = 0x0000003F#32 := rfl
  have hwf : Instr.clrerr.wf = true := rfl
  rw [decode_eq_ok_iff, hword]
  exact ⟨fun h => h.2.symm, fun h => ⟨hwf, h.symm⟩⟩

/-- Writing back the error code that `STATUS` holds changes nothing. -/
theorem withErrField_errField (v : RegVal) : withErrField v (errField v) = v := by
  unfold withErrField errField
  ext i hi
  interval_cases i <;> simp

theorem clearError_of_clear {s : State} (hs : NoError s) (hinfo : s.errInfo = 0) (haddr : s.errAddr = 0) :
    clearError s = s := by
  have hstatus := withErrField_errField s.status
  rw [show errField s.status = 0 from hs] at hstatus
  cases s
  simp_all [clearError]

theorem onCmdWrite_clrerr (s : State) : onCmdWrite 0x0000003F#32 s = exec .clrerr s := by
  by_cases hs : NoError s
  · exact onCmdWrite_command hs ((decode_eq_clrerr_iff _).mpr rfl)
  · rw [onCmdWrite, if_pos hs, if_pos rfl]

theorem onCmdWrite_dropped {w : CmdWord} {s : State} (hs : ¬NoError s) (hw : w ≠ 0x0000003F#32) :
    onCmdWrite w s = .next s := by
  rw [onCmdWrite, if_pos hs, if_neg hw]

/-- The error registers replaced. -/
abbrev withErrorRegs (s : State) (st ei ea : RegVal) : State := { s with status := st, errInfo := ei, errAddr := ea }

/-- A register write neither reads nor writes the error registers. -/
theorem writeReg_withErrorRegs (s : State) (r : Nat) (v st ei ea : RegVal) :
    writeReg (withErrorRegs s st ei ea) r v = withErrorRegs (writeReg s r v) st ei ea := by
  unfold writeReg
  split <;> rfl

/-- An access that faults past its bound has been performed when it answers a next state. -/
theorem performed_of_next {c : Prop} [Decidable c] {t u : State} {f : Fault}
    (h : (if c then Host.Outcome.next u else .fault f : Host.Outcome State Fault Refusal) = .next t) :
    c ∧ u = t := by
  split at h
  · exact ⟨by assumption, Host.Outcome.next.inj h⟩
  · exact nomatch h

end Sys2Proof.Machine

/-!
The statements about errors (60_exceptions.md): which error is raised first and with what, what an error leaves behind,
and the latch.
-/

namespace Sys2Proof.Machine

open Sys2Proof

/-- Settles O22: an instruction that raises an error has changed storage only. -/
theorem errorKeepsResultAndWdata : Obligations.ErrorKeepsResultAndWdata := by
  intro i s t hs h ht
  rcases exec_next_cases h with he | ⟨e, u, rfl, hu, -⟩ | ⟨-, rfl⟩
  · have hstatus : t.status = s.status := by rw [he.eq_update]
    exact absurd (by rwa [NoError, hstatus]) ht
  · rw [hu.rest]
    exact ⟨rfl, rfl⟩
  · exact absurd (errField_withErrField _ _) ht

/-- Settles O23: the precise errors are those raised before the body, from the state as it was. -/
theorem preciseErrorsChangeNothingElse : Obligations.PreciseErrorsChangeNothingElse := by
  intro i s t hs h hprecise
  by_cases hi : i = .clrerr
  · subst hi
    cases (exec_clrerr s).symm.trans h
    exact absurd hprecise (not_preciseLatched_of_noError (errField_withErrField _ _))
  · rcases exec_refused_or_bodyEnd (s := s) hi with ⟨e, he⟩ | ⟨r, hr, hend⟩
    · cases he.symm.trans h
      exact onlyErrorRegs_takeError e s
    · exact absurd hprecise (hend.not_preciseLatched hs (hr.symm.trans h))

/-- Settles O27, by the order of the bounds checks. -/
theorem boundsErrorInOrder : Obligations.BoundsErrorInOrder := by
  intro i s himm hn
  exact ⟨fun sp hsp hbad hbefore => refused_latches (exec_bounds himm hn (boundsError_first_span hsp hbad hbefore)),
    fun hcells hbad hfit => refused_latches (exec_bounds himm hn (boundsError_cells hcells hbad hfit))⟩

/-- Settles O28: the pairs are checked in order, and each clashes as the table of 30_encoding.md R105 says. -/
theorem overlapErrorInOrder : Obligations.OverlapErrorInOrder := by
  intro i s hc hn hspans hcells
  have hb : boundsError (usesOf i) s = none := by
    refine boundsError_eq_none ?_ hcells
    rwa [UseRow.count, if_pos hc]
  have hrun {e : Err} := exec_overlap (e := e) hc hn hb
  rw [overlapError_eq] at hrun
  refine ⟨fun hs hx hbad => ?_, fun hs hy hbad hsx => ?_, fun hx hy hbad hpairs => ?_⟩
  · exact refused_latches (hrun (if_pos ((clashes_iff hc (by decide)).mpr ⟨hs, hx, hbad⟩)))
  · rw [if_neg (not_clashes_of_allowed hc (by decide) fun _ hx => hsx hx)] at hrun
    exact refused_latches (hrun (if_pos ((clashes_iff hc (by decide)).mpr ⟨hs, hy, hbad⟩)))
  · rw [if_neg (not_clashes_of_allowed hc (by decide) fun hs _ => (hpairs hs).1),
      if_neg (not_clashes_of_allowed hc (by decide) fun hs _ => (hpairs hs).2)] at hrun
    exact refused_latches (hrun (if_pos ((clashes_iff hc (by decide)).mpr ⟨hx, hy, hbad⟩)))

/-- Settles O7: the latch is looked at before the decoder, and by no other action of the host. -/
theorem latchedErrorDropsCommands : Obligations.LatchedErrorDropsCommands := by
  refine ⟨fun s rest w hin hs hw => ?_, fun s t a rest st ei ea hin ha h => ?_⟩
  · exact (step_cmdWrite hin).trans (onCmdWrite_dropped hs hw)
  · rw [step_act hin] at h
    rw [step_act (s := withErrorRegs s st ei ea) hin]
    rcases ha with ⟨r, v, rfl, hr⟩ | ⟨addr, count, rfl⟩ | ⟨addr, ws, rfl⟩ | ⟨c, count, rfl⟩ | ⟨c, cs, rfl⟩
    · rw [hostAct, if_neg (show ¬r = cmdReg from hr)] at h ⊢
      cases h
      exact congrArg _ (writeReg_withErrorRegs (withInbox s rest) r v st ei ea)
    all_goals
      obtain ⟨hbound, rfl⟩ := performed_of_next h
      exact if_pos hbound

/-- Settles O8: no check of the frame can refuse CLRERR, and its word is the one that the latch lets through. -/
theorem clrerrClearsErrorRegs : Obligations.ClrerrClearsErrorRegs := by
  refine ⟨decode_eq_clrerr_iff, fun s hs hinfo haddr => ?_, fun s => ?_, fun s rest hin => ?_⟩
  · rw [exec_clrerr, clearError_of_clear hs hinfo haddr]
  · exact ⟨_, exec_clrerr s, ⟨errField_withErrField _ _, withErrField_rest _ _, rfl, rfl⟩, rfl⟩
  · rw [step_cmdWrite hin, onCmdWrite_clrerr]

/-- Settles O26: the immediates are checked before the frame, `sym` before `sym2`. -/
theorem illegalImmediateRaises : Obligations.IllegalImmediateRaises := by
  refine ⟨fun s a v h => refused_latches (exec_put_illegal a h), fun s v u i hi => ?_⟩
  obtain ⟨f, hexec⟩ := exec_addSub (s := s) hi
  exact ⟨fun hv => refused_latches (hexec.trans (symbolOp_illegal_sym _ f hv)),
    fun hv hu => refused_latches (hexec.trans (symbolOp_illegal_sym2 _ f hv hu))⟩

end Sys2Proof.Machine

/-!
The statements about reset (70_reset_and_hazards.md R280, R281): the registers take their reset values, the rest of the
machine stays what it was, and the state has the invariant.
-/

namespace Sys2Proof.Machine

open Sys2Proof

/-- Every register but `CFG` has the reset value 0 (R280). -/
theorem readReg_resetRegisters {r : Nat} (s : State) (hr : 1 ≤ r) : readReg (resetRegisters s) r = 0 := by
  by_cases hlast : 18 ≤ r
  · exact readReg_of_ge _ hlast
  · interval_cases r <;> rfl

theorem wf_vectors : Params.vectors.wf := by decide

/-- Reset asks of the storage only what the invariant does; no register can break it. -/
theorem inv_resetWith {p : Params} {mem : Memory 8} {tbuf : Memory 2} (inbox : List HostAction)
    (outbox : List HostReply) (hp : p.wf) (hst : StorageOk (State.resetWith p mem tbuf inbox outbox)) :
    Inv (State.resetWith p mem tbuf inbox outbox) := by
  have hcode : errField 0 = 0 := by decide
  have hstatus : StatusOk (State.resetWith p mem tbuf inbox outbox) :=
    ⟨BitVec.zero_and, hcode ▸ Nat.zero_le 5⟩
  have hresult : ResultOk (State.resetWith p mem tbuf inbox outbox) :=
    (isCode_symCode (inAlphabet_zero p.enc)).resultOk
  exact ⟨hp, hst, hstatus, .inl ⟨hcode, rfl, rfl⟩, hresult⟩

/-- Settles O14: the step is the reset event on the state without that action; `CFG` follows the parameters. -/
theorem resetClearsRegistersOnly : Obligations.ResetClearsRegistersOnly := by
  intro s rest hin
  have hstep : step s = .next (resetRegisters (withInbox s rest)) := step_act hin
  exact ⟨_, hstep, rfl, rfl, rfl, rfl, rfl, rfl, fun _ hr => readReg_resetRegisters _ hr⟩

/-- Settles O15: `State.reset` is the case of empty storage in the build of the test vectors. -/
theorem resetMeetsInvariant : Obligations.ResetMeetsInvariant :=
  ⟨inv_resetWith [] [] wf_vectors ⟨rfl, rfl, rfl, rfl⟩,
    fun _ _ _ inbox outbox hp hmwf hmbelow htwf htbelow =>
      inv_resetWith inbox outbox hp ⟨hmwf, hmbelow, htwf, htbelow⟩⟩

end Sys2Proof.Machine

/-!
The sample words of the test vectors (95_test_vectors.md V8.1).
-/

namespace Sys2Proof.Machine

open Sys2Proof

/-- Settles O4: each of the words is the encoding of the command listed with it, and a word that encodes a command decodes
to it. -/
theorem sampleWordsDecode : Obligations.SampleWordsDecode := by
  simp only [Obligations.SampleWordsDecode, decode_eq_ok_iff]
  decide

end Sys2Proof.Machine
